-- ==== Sys2Proof/Word.lean ====
section
/-! DEFINITION. Words and double words (spec/00_scope.md R3, R6, R7): bit 0 is the least significant bit. -/

namespace Sys2Proof

/-- A data word or an instruction word: 16 bits (R3). -/
abbrev Word := BitVec 16

/-- A double word: 32 bits, high word in 31:16, low word in 15:0 (R7). -/
abbrev DWord := BitVec 32

/-- The field of "#Simm" or "#sSImm": it shares a 16 bit word with an opcode, so it has at most 15 bits (30_encoding.md R68). -/
abbrev ShortImm := BitVec 15

/-- The direct address "RAM": it shares a 16 bit word with an opcode, so it has at most 15 bits (40_alu.md R81). -/
abbrev DirectAddr := BitVec 15

/-- `hi:lo` of R7. -/
def DWord.make (hi lo : Word) : DWord := hi.setWidth 32 <<< 16 ||| lo.setWidth 32

/-- Bits 31:16. -/
def DWord.hi (v : DWord) : Word := (v >>> 16).setWidth 16

/-- Bits 15:0. -/
def DWord.lo (v : DWord) : Word := v.setWidth 16

end Sys2Proof
end

