-- ==== Sys2Proof/Syntax.lean ====
section
/-! DEFINITION. The abstract syntax (spec/30_encoding.md R64, R65, R70): the nineteen surviving forms and their operands. -/

namespace Sys2Proof

/-- The sixteen register addresses of 10_state.md R10, by one name each.
`bfRc` is address 13, which SELBF turns into BF or RC (R28). -/
inductive RegAddr where
  | al0 | ah0 | al1 | ah1 | al2 | ah2 | pl | ph
  | x | y | st | pc | sp | bfRc | tr | pm
  deriving DecidableEq, Repr, Inhabited

/-- The four double-word accumulators of 10_state.md R31. -/
inductive Acc where
  | acc0 | acc1 | acc2 | acc3
  deriving DecidableEq, Repr, Inhabited

/-- An address pointer register "Rij" (10_state.md R33): its two indices, numbered from 0. -/
structure Rij where
  i : Nat
  j : Nat
  deriving DecidableEq, Repr, Inhabited

/-- A condition (41_control.md R92): the two named families, and the conditions whose names are lost, by number. -/
inductive Cond where
  | drz (i : Nat)
  | ndrz (i : Nat)
  | other (k : Nat)
  deriving DecidableEq, Repr, Inhabited

/-- A member of the OPEN set `AOP` of its class, by number (40_alu.md R88). -/
abbrev AluOp := Nat

/-- The instructions: one constructor per row of spec/opcode_table.json.
`w` is the option ",w" of the form, present or not; `w1` is the second instruction word, whole (30_encoding.md R63). -/
inductive Instr where
  /-- "ADSI Rij,#sSImm" (R80) -/
  | adsi (r : Rij) (imm : ShortImm)
  /-- "Aop A,RAM,w" (R81) -/
  | aopARam (op : AluOp) (ram : DirectAddr) (w : Bool)
  /-- "Aop Ad,As,(Rij),w" (R82) -/
  | aopInd (op : AluOp) (ad src : Acc) (r : Rij) (w : Bool)
  /-- "Aop Ad,As,Rij" (R83) -/
  | aopPtr (op : AluOp) (ad src : Acc) (r : Rij)
  /-- "Aop Ad,As,S,w" (R84) -/
  | aopReg (op : AluOp) (ad src : Acc) (sr : RegAddr) (w : Bool)
  /-- "AopI Ad,As,#Imm" (R85) -/
  | aopi (op : AluOp) (ad src : Acc) (w1 : Word)
  /-- "AopSI As,#Simm" (R86) -/
  | aopsi (op : AluOp) (src : Acc) (imm : ShortImm)
  /-- "BRA cond" (R90) -/
  | bra (c : Cond) (w1 : Word)
  /-- "CALL cond" (R91) -/
  | call (c : Cond) (w1 : Word)
  /-- "INC (Rij)[,cond]" (R95, R99) -/
  | incInd (r : Rij) (c : Option Cond)
  /-- "DEC (Rij),cond" (R96) -/
  | decInd (r : Rij) (c : Cond)
  /-- "INC S[,cond]" (R97, R99) -/
  | incReg (sr : RegAddr) (c : Option Cond)
  /-- "DEC S,cond" (R98) -/
  | decReg (sr : RegAddr) (c : Cond)
  /-- "LD A,RAM,w" (R100) -/
  | ldARam (ram : DirectAddr) (w : Bool)
  /-- "LD RAM,A,w" (R101) -/
  | ldRamA (ram : DirectAddr) (w : Bool)
  /-- "LD D,(Rij),w" (R102) -/
  | ldDInd (d : RegAddr) (r : Rij) (w : Bool)
  /-- "LD (Rij),S,w" (R103) -/
  | ldIndS (r : Rij) (sr : RegAddr) (w : Bool)
  /-- "LD D,(Rij)p" (R104) -/
  | ldDIndp (d : RegAddr) (r : Rij)
  /-- "LD (Rij)p,S" (R105) -/
  | ldIndpS (r : Rij) (sr : RegAddr)
  deriving DecidableEq, Repr, Inhabited

/-- The nineteen forms, under the constructor names of 30_encoding.md R70. -/
inductive Form where
  | ADSI | AOP_A_RAM | AOP_IND | AOP_PTR | AOP_REG | AOPI | AOPSI
  | BRA | CALL
  | INC_IND | DEC_IND | INC_REG | DEC_REG
  | LD_A_RAM | LD_RAM_A | LD_D_IND | LD_IND_S | LD_D_INDP | LD_INDP_S
  deriving DecidableEq, Repr, Inhabited

/-- The eleven fields of ST, left to right (10_state.md R21). -/
inductive StField where
  | n | ov | z | cy | rz | op | iex | ie2 | ie1 | ie0 | prl
  deriving DecidableEq, Repr, Inhabited

/-- R21's order, most significant field first. -/
abbrev StField.all : List StField :=
  [.n, .ov, .z, .cy, .rz, .op, .iex, .ie2, .ie1, .ie0, .prl]

/-- The place of a field in that order, 0 for the leftmost. -/
def StField.rank : StField → Nat
  | .n => 0 | .ov => 1 | .z => 2 | .cy => 3 | .rz => 4 | .op => 5
  | .iex => 6 | .ie2 => 7 | .ie1 => 8 | .ie0 => 9 | .prl => 10

/-- What the first word of an instruction selects, with the second word still to come (30_encoding.md R61, R62).
`custom` is the integrator's code space (R66), `unlisted` the lost instructions (44_named_only.md R110),
`undecoded` no instruction at all (R67). -/
inductive FirstWord where
  | undecoded
  | custom
  | unlisted
  | one (i : Instr)
  | two (f : Word → Instr)
  deriving Inhabited

end Sys2Proof
end

