-- ==== Sys2Proof/Config.lean ====
section
/-! DEFINITION. The OPEN parameters that do not act on the state (spec/00_scope.md R9), and the one chip the machine models.
`Config` is what a chip fixes; a rule that mentions a parameter holds for every value of it.
`Config.chip` takes every parameter the spec leaves without a default from an OPAQUE constant: nothing can be proved of its value.
The semantic functions and conditions, which act on the state, are in Machine/Chip.lean. -/

namespace Sys2Proof

/-- The bits `hi` down to `lo` of ST. -/
structure StRange where
  hi : Nat
  lo : Nat
  deriving DecidableEq, Repr, Inhabited

/-- A value of `ST_LAYOUT`: bit ranges for the eleven fields (10_state.md R22). -/
abbrev StLayout := StField → StRange

/-- Each field of the list lies wholly to the left of the next. -/
def StLayout.ordered (l : StLayout) : List StField → Bool
  | f :: g :: rest => decide ((l g).hi < (l f).lo) && StLayout.ordered l (g :: rest)
  | _ => true

/-- R22's condition on a layout: `15 >= hi >= lo >= 0`, disjoint, in the order of R21. -/
def StLayout.legal (l : StLayout) : Bool :=
  StField.all.all (fun f => decide ((l f).lo ≤ (l f).hi) && decide ((l f).hi ≤ 15))
    && l.ordered StField.all

/-- Adjacent fields touch. -/
def StLayout.adjacent (l : StLayout) : List StField → Bool
  | f :: g :: rest => decide ((l g).hi + 1 = (l f).lo) && StLayout.adjacent l (g :: rest)
  | _ => true

/-- R22's tiling observation, a check on a candidate layout and never a rule. -/
def StLayout.tiles (l : StLayout) : Bool :=
  decide ((l .n).hi = 15) && decide ((l .prl).lo = 0) && l.adjacent StField.all

/-- One legal layout (95_test_vectors.md V2.1), used only where an arbitrary layout is not legal. -/
def StLayout.fallback : StLayout
  | .n => ⟨15, 15⟩ | .ov => ⟨14, 14⟩ | .z => ⟨13, 13⟩ | .cy => ⟨12, 12⟩ | .rz => ⟨11, 11⟩ | .op => ⟨10, 10⟩
  | .iex => ⟨9, 9⟩ | .ie2 => ⟨8, 8⟩ | .ie1 => ⟨7, 7⟩ | .ie0 => ⟨6, 6⟩ | .prl => ⟨5, 0⟩

/-- The layout itself when it is legal: over all layouts, the values of `legalised` are exactly the legal ones. -/
def StLayout.legalised (l : StLayout) : StLayout :=
  if l.legal then l else StLayout.fallback

/-- The four values of `DW_ORDER` (20_memory.md R47). -/
inductive DwOrder where
  | highFirst | lowFirst | splitD0High | splitD1High
  deriving DecidableEq, Repr, Inhabited

/-- Both words of a double word in one memory. -/
def DwOrder.consecutive : DwOrder → Bool
  | .highFirst | .lowFirst => true
  | .splitD0High | .splitD1High => false

/-- The two values of `DW_ALIGN` (20_memory.md R46). -/
inductive DwAlign where
  | evenOnly | any
  deriving DecidableEq, Repr, Inhabited

/-- What a chip fixes and the state does not hold (R9). -/
structure Config where
  /-- `ST_LAYOUT` -/
  stLayout : StLayout
  /-- `DW_ORDER` -/
  dwOrder : DwOrder
  /-- `DW_ALIGN` -/
  dwAlign : DwAlign
  /-- `PTR_FILE`: how many values i takes -/
  ptrI : Nat
  /-- `PTR_FILE`: how many values j takes -/
  ptrJ : Nat
  /-- `PTR_FILE`: how many bits a pointer register has (D5) -/
  ptrWidth : Nat
  /-- `COND`: how many indices the families DRZi and NDRZi have -/
  condDrz : Nat
  /-- `COND`: how many conditions there are beside those two families -/
  condOther : Nat
  /-- `AOP`: the members of the class Aop -/
  aop : Nat
  /-- `AOP`: the members of the class AopI -/
  aopi : Nat
  /-- `AOP`: the members of the class AopSI -/
  aopsi : Nat
  /-- `DECODE`, as what a first word selects -/
  firstWord : Word → FirstWord

namespace Config

/-- `RESET_PC`: OPEN, no default (70_reset_and_hazards.md R140). -/
opaque resetPc : Word

/-- `ST_LAYOUT`: OPEN, no default (D3). -/
opaque openStLayout : StLayout

/-- `DW_ORDER`: OPEN, no default (D10). -/
opaque openDwOrder : DwOrder

/-- `PTR_FILE`: OPEN (D5). -/
opaque openPtrI : Nat

/-- `PTR_FILE`: OPEN (D5). -/
opaque openPtrJ : Nat

/-- `PTR_FILE`: how many bits a pointer register has beyond sixteen; OPEN (D5). -/
opaque openPtrExtra : Nat

/-- `COND`: OPEN (D8). -/
opaque openCondDrz : Nat

/-- `COND`: OPEN (D8). -/
opaque openCondOther : Nat

/-- `AOP`: OPEN (D9). -/
opaque openAop : Nat

/-- `AOP`, class AopI: OPEN (D9). -/
opaque openAopi : Nat

/-- `AOP`, class AopSI: OPEN (D9). -/
opaque openAopsi : Nat

/-- `DECODE`: OPEN, no bit of any encoding is in the sources (D6). -/
opaque openFirstWord : Word → FirstWord

/-- The chip: every OPEN parameter free; `DW_ALIGN` at the spec's own default (D10). A pointer has sixteen bits (D5's default) or more:
a narrower one is a pointer whose high bits stay 0 (log 13). -/
def chip : Config where
  stLayout := openStLayout.legalised
  dwOrder := openDwOrder
  dwAlign := .evenOnly
  ptrI := openPtrI
  ptrJ := openPtrJ
  ptrWidth := 16 + openPtrExtra
  condDrz := openCondDrz
  condOther := openCondOther
  aop := openAop
  aopi := openAopi
  aopsi := openAopsi
  firstWord := openFirstWord

end Config

end Sys2Proof
end

