-- ==== Sys2Proof/WellFormed.lean ====
section
/-! DEFINITION. Which instructions a chip has: every operand is a member of its OPEN set (spec/95_test_vectors.md V7.1;
spec/92_eei_decisions.md D5, D8, D9). Operands with a fixed range (register address, accumulator, short immediate) carry it in their type. -/

namespace Sys2Proof

/-- The pointer register belongs to `PTR_FILE` (D5). -/
abbrev Rij.wf (c : Config) (r : Rij) : Bool := decide (r.i < c.ptrI) && decide (r.j < c.ptrJ)

/-- The condition belongs to `COND` (D8). -/
def Cond.wf (c : Config) : Cond → Bool
  | .drz i => decide (i < c.condDrz)
  | .ndrz i => decide (i < c.condDrz)
  | .other k => decide (k < c.condOther)

/-- An optional condition (42_incdec.md R99). -/
def Cond.wfOption (c : Config) : Option Cond → Bool
  | none => true
  | some k => k.wf c

/-- The instruction's operands are members of the chip's sets. -/
def Instr.wf (c : Config) : Instr → Bool
  | .adsi r _ => r.wf c
  | .aopARam op _ _ => decide (op < c.aop)
  | .aopInd op _ _ r _ => decide (op < c.aop) && r.wf c
  | .aopPtr op _ _ r => decide (op < c.aop) && r.wf c
  | .aopReg op _ _ _ _ => decide (op < c.aop)
  | .aopi op _ _ _ => decide (op < c.aopi)
  | .aopsi op _ _ => decide (op < c.aopsi)
  | .bra k _ => k.wf c
  | .call k _ => k.wf c
  | .incInd r k => r.wf c && Cond.wfOption c k
  | .decInd r k => r.wf c && k.wf c
  | .incReg _ k => Cond.wfOption c k
  | .decReg _ k => k.wf c
  | .ldARam _ _ => true
  | .ldRamA _ _ => true
  | .ldDInd _ r _ => r.wf c
  | .ldIndS r _ _ => r.wf c
  | .ldDIndp _ r => r.wf c
  | .ldIndpS r _ => r.wf c

end Sys2Proof
end

