-- ==== Sys2Proof/Decode.lean ====
section
/-! DEFINITION. Lengths, the decoder and the encoder (spec/30_encoding.md R60 to R63, R66, R67, R71).
No bit of any encoding is in the sources (spec/91_not_in_source.md N30-1), so the decoder reads the OPEN parameter `DECODE` and
adds R61's three conditions by its own form: (a) the length is the form's W, (b) a one-word result does not depend on the second
word, (c) a first word in the custom space selects no instruction. The encoder is that decoder's partial inverse. -/

namespace Sys2Proof

/-- The form of an instruction (R70). -/
def Instr.form : Instr → Form
  | .adsi .. => .ADSI
  | .aopARam .. => .AOP_A_RAM
  | .aopInd .. => .AOP_IND
  | .aopPtr .. => .AOP_PTR
  | .aopReg .. => .AOP_REG
  | .aopi .. => .AOPI
  | .aopsi .. => .AOPSI
  | .bra .. => .BRA
  | .call .. => .CALL
  | .incInd .. => .INC_IND
  | .decInd .. => .DEC_IND
  | .incReg .. => .INC_REG
  | .decReg .. => .DEC_REG
  | .ldARam .. => .LD_A_RAM
  | .ldRamA .. => .LD_RAM_A
  | .ldDInd .. => .LD_D_IND
  | .ldIndS .. => .LD_IND_S
  | .ldDIndp .. => .LD_D_INDP
  | .ldIndpS .. => .LD_INDP_S

/-- The column W of R62: how many 16 bit words the form occupies. -/
def Form.words : Form → Nat
  | .AOPI => 2 | .BRA => 2 | .CALL => 2
  | .ADSI => 1 | .AOP_A_RAM => 1 | .AOP_IND => 1 | .AOP_PTR => 1 | .AOP_REG => 1 | .AOPSI => 1
  | .INC_IND => 1 | .DEC_IND => 1 | .INC_REG => 1 | .DEC_REG => 1
  | .LD_A_RAM => 1 | .LD_RAM_A => 1 | .LD_D_IND => 1 | .LD_IND_S => 1 | .LD_D_INDP => 1 | .LD_INDP_S => 1

/-- The column C of R62; `none` for the two forms whose C is lost. No rule depends on it (70_reset_and_hazards.md R145). -/
def Form.cycles : Form → Option Nat
  | .AOPI => some 2 | .BRA => some 2 | .CALL => some 2
  | .ADSI => some 1 | .AOP_A_RAM => some 1 | .AOP_IND => some 1 | .AOP_PTR => some 1 | .AOP_REG => some 1 | .AOPSI => some 1
  | .INC_IND => some 2 | .DEC_IND => some 2 | .INC_REG => some 2 | .DEC_REG => some 2
  | .LD_A_RAM => some 1 | .LD_RAM_A => some 1 | .LD_D_IND => some 1 | .LD_IND_S => some 1
  | .LD_D_INDP => none | .LD_INDP_S => none

/-- The length of an instruction in words. -/
def Instr.words (i : Instr) : Nat := i.form.words

/-- The second word of a two-word instruction, whole (R63). -/
def Instr.secondWord : Instr → Option Word
  | .aopi _ _ _ w1 => some w1
  | .bra _ w1 => some w1
  | .call _ w1 => some w1
  | .adsi .. | .aopARam .. | .aopInd .. | .aopPtr .. | .aopReg .. | .aopsi ..
  | .incInd .. | .decInd .. | .incReg .. | .decReg ..
  | .ldARam .. | .ldRamA .. | .ldDInd .. | .ldIndS .. | .ldDIndp .. | .ldIndpS .. => none

/-- What one or two words decode to: an instruction, or one of the three ways a word selects none. -/
inductive Decoded where
  | instr (i : Instr)
  | undecoded
  | custom
  | unlisted
  deriving DecidableEq, Repr

/-- The instruction, if there is one: `DECODE`'s own option (R61). -/
def Decoded.instr? : Decoded → Option Instr
  | .instr i => some i
  | .undecoded | .custom | .unlisted => none

/-- Must the second word be fetched before decoding (R72)? -/
def needsSecond (c : Config) (w0 : Word) : Bool :=
  match c.firstWord w0 with
  | .two _ => true
  | .undecoded | .custom | .unlisted | .one _ => false

/-- The decoder, total: `DECODE` of R61, with its conditions kept and operands outside the chip's sets refused (V7.1, V4.20). -/
def decode (c : Config) (w0 w1 : Word) : Decoded :=
  match c.firstWord w0 with
  | .undecoded => .undecoded
  | .custom => .custom
  | .unlisted => .unlisted
  | .one i => if i.words = 1 ∧ i.wf c = true then .instr i else .undecoded
  | .two f => if (f w1).secondWord = some w1 ∧ (f w1).wf c = true then .instr (f w1) else .undecoded

/-- Decoding a list of words: the instruction and the words after it. -/
def decodeWords (c : Config) : List Word → Option (Instr × List Word)
  | [] => none
  | w0 :: rest =>
    if needsSecond c w0 then
      match rest with
      | [] => none
      | w1 :: rest' => (decode c w0 w1).instr?.map (·, rest')
    else (decode c w0 0).instr?.map (·, rest)

/-- Does the first word `w0`, with the instruction's own second word, decode to `i`? -/
def encodes (c : Config) (i : Instr) (w0 : Word) : Bool :=
  decide ((decode c w0 (i.secondWord.getD 0)).instr? = some i)

/-- The lowest first word below `n` that encodes `i`, the search going up from `k`. -/
def searchFirstWord (c : Config) (i : Instr) : Nat → Nat → Option Word
  | 0, _ => none
  | n + 1, k => if encodes c i (BitVec.ofNat 16 k) then some (BitVec.ofNat 16 k) else searchFirstWord c i n (k + 1)

/-- The encoder: the words of `i`, where the chip has words for it (R63: the second word is the instruction's own, whole). -/
def encode (c : Config) (i : Instr) : Option (List Word) :=
  (searchFirstWord c i 65536 0).map fun w0 => w0 :: i.secondWord.toList

/-- The chip's decoder on an instruction whose bits are `w`, first word in bits 15:0, second in 31:16. -/
def decodeTableWord (nbits w : Nat) : Option Instr :=
  (decode Config.chip (BitVec.ofNat 16 (w % 2 ^ nbits)) (BitVec.ofNat 16 (w % 2 ^ nbits / 2 ^ 16))).instr?

end Sys2Proof
end

