-- ==== Sys2Proof/Machine/State.lean ====
section
/-! DEFINITION. The state of one CD2470A core (spec/10_state.md R10 to R36, spec/20_memory.md R40 to R44), the reasons a step can stop
(spec/60_exceptions.md R136), and the state after reset (R35, spec/70_reset_and_hazards.md R140). -/

namespace Sys2Proof.Machine

/-- The three memories (R40). -/
inductive Space where
  | prog | data0 | data1
  deriving DecidableEq, Repr, Inhabited

/-- A memory: (address, word) pairs, addresses strictly rising. The smallest addressable unit is the 16 bit word (R44);
an unlisted word holds no value (R35). -/
abbrev Memory := List (Nat × Word)

/-- The pointer registers that do not hold 0, in rising order of (i, j). An unlisted pointer register holds 0 (log 4).
A value is a number below `2 ^ PTR_FILE.width`: the width is OPEN (D5), so it stands in `Config` and not in the type. -/
abbrev PtrFile := List (Rij × Nat)

/-- A range of addresses of one space with no memory behind it: the complement of `MEM_PRESENT` (R52). -/
structure Hole where
  space : Space
  first : Nat
  last : Nat
  deriving DecidableEq, Repr

/-- THE MODEL'S OWN: whether an operand whose space the sources do not identify (R51) may lie in `PROG`. Both are OPEN; data memories it may
lie in always (log 36). -/
structure OpenSpaces where
  /-- "(Rij)p" (43_load.md R104, R105) -/
  indp : Bool
  /-- the stack of CALL (10_state.md R25, 41_control.md R91) -/
  stack : Bool
  deriving DecidableEq, Repr

/-- Why a step stops with a fault. -/
inductive Fault where
  /-- A memory word that holds no value is read (R35, R136). Raised by `memRead` and `memReadDouble`, so by the instruction fetch and by a read of an open semantic function. Safe. -/
  | readOfUnwritten
  /-- An access outside `MEM_PRESENT`, which R52 calls stuck. Raised by every memory primitive and by an access of an open semantic function. Safe. -/
  | stuck
  deriving DecidableEq, Repr

/-- Why a step is refused: R136's closed list, and the host's `notModelled`. Every one of them is safe. -/
inductive Refusal where
  /-- An instruction without a meaning. No arm of `exec` uses it. Safe. -/
  | notModelled (mnemonic : String)
  /-- The words select no instruction (R67). Raised by the fetch. Safe. -/
  | undecoded
  /-- The first word is in the custom code space (R66). Raised by the fetch. Safe. -/
  | customInstruction
  /-- The words are an instruction the sources lost (R110). Raised by the fetch. Safe. -/
  | unlistedInstruction
  /-- No `SEM` is supplied for the form (R72). Raised by `runForm` only, on an instantiation that lacks it; never by `exec`. Safe. -/
  | noSemantics (f : Form)
  /-- A supplied `SEM` broke the frame (R72). Raised by `runForm` only; never by `exec`. Safe. -/
  | frame (f : Form)
  /-- The pc, or the address of a second word, would pass 0xFFFF (R24, R72). Raised by the fetch and by `advance`. Safe. -/
  | pcWrap
  /-- The second word of a double word would pass 0xFFFF (R45 (b)), or an effective address, a pointer stepping or SP moving would (R52, D12; log 33). Raised by the double-word primitives, `addressSum` and `stepPtr`, so by an instruction whose open semantic function makes such an access or step. Safe. -/
  | addressWrap
  /-- A double word at an odd address under `even_only` (R45 (c)). Raised by the double-word primitives, so by a form with ",w" whose open semantic function makes such an access. Safe. -/
  | dwMisaligned
  /-- A write to `PROG` (R45 (d), R56). Raised by the write primitives, so by a form with "(Rij)p" and by CALL where that operand or the stack may lie in `PROG` and their open semantic function stores there (R105, log 36). Safe. -/
  | programWrite
  /-- An "S" or "D" operand names register address 11, the PC (R37). Raised by `checkOperand`. Safe. -/
  | pcOperand
  /-- Register address 13 is accessed while SELBF is 1 (R26, R37). Raised by `checkOperand`, `readReg`, `writeReg`. Safe. -/
  | bfAccess
  /-- An interrupt request, in the variant of R126 only (`stepUnderRequest`). Safe. -/
  | interrupt
  deriving DecidableEq, Repr

/-- The state of the core. -/
structure State where
  /-- AL/AL0, address 0 (R11) -/
  al0 : Word
  /-- A/AH/AH0, address 1 (R12) -/
  ah0 : Word
  /-- AL1/TL, address 2 (R13) -/
  al1 : Word
  /-- AH1/TH, address 3 (R14) -/
  ah1 : Word
  /-- AL2, address 4 (R15) -/
  al2 : Word
  /-- AH2, address 5 (R16) -/
  ah2 : Word
  /-- PL/AL3, address 6 (R17) -/
  pl : Word
  /-- PH/AH3, address 7 (R18) -/
  ph : Word
  /-- X, address 8 (R19) -/
  x : Word
  /-- Y, address 9 (R20) -/
  y : Word
  /-- ST, address 10 (R21) -/
  st : Word
  /-- PC, address 11 (R24) -/
  pc : Word
  /-- SP, address 12 (R25) -/
  sp : Word
  /-- BF, address 13 when SELBF is 1 (R26) -/
  bf : Word
  /-- RC, address 13 when SELBF is 0 (R27) -/
  rc : Word
  /-- TR, address 14 (R29) -/
  tr : Word
  /-- PM, address 15 (R30) -/
  pm : Word
  /-- SELBF, a strap of the launch (R28, D4) -/
  selbf : Bool
  /-- the address pointer registers Rij (R33) -/
  ptr : PtrFile
  /-- Program memory (R41) -/
  prog : Memory
  /-- first data memory (R42) -/
  data0 : Memory
  /-- second data memory (R43) -/
  data1 : Memory
  /-- the addresses of the launch with no memory behind them (R52, R148 (3)) -/
  holes : List Hole
  /-- THE MODEL'S OWN: which operands may lie in `PROG` (log 36); constant for a run -/
  spaces : OpenSpaces
  /-- THE MODEL'S OWN: how many free values have been drawn (log 27) -/
  freeCount : Nat
  deriving DecidableEq, Repr

/-- The state after reset. The spec gives no reset value (R35): registers are 0 by the model's choice (log 4), the pc is the OPEN
`RESET_PC` (log 5), SELBF is 0 (log 6), no memory word holds a value (log 7), every address is present (log 8), no space is shut out (log 36). -/
def State.reset : State where
  al0 := 0
  ah0 := 0
  al1 := 0
  ah1 := 0
  al2 := 0
  ah2 := 0
  pl := 0
  ph := 0
  x := 0
  y := 0
  st := 0
  pc := Config.resetPc
  sp := 0
  bf := 0
  rc := 0
  tr := 0
  pm := 0
  selbf := false
  ptr := []
  prog := []
  data0 := []
  data1 := []
  holes := []
  spaces := ⟨true, true⟩
  freeCount := 0

/-- A result of the model: a value, a fault or a refusal (00_scope.md R8). -/
abbrev Res (α : Type) := Host.Outcome α Fault Refusal

end Sys2Proof.Machine
end

