-- ==== Sys2Proof/Machine/Ops.lean ====
section
/-! DEFINITION. The named operations: results, memories and their primitives (spec/20_memory.md R45 to R48, R52, R59), the register file
(spec/10_state.md R10, R28, R31 to R33), the hidden host buffer (R26), the advance of the pc (R24, spec/41_control.md R93), and what a
free effect does to the state (spec/30_encoding.md R72).
There is no exception entry and no return from one: the sources architect no exception (spec/60_exceptions.md R120). -/

namespace Sys2Proof.Machine

/-! ## Results -/

/-- Go on with the value, or stop as before. -/
def andThen {α β : Type} (r : Res α) (f : α → Res β) : Res β :=
  match r with
  | .next a => f a
  | .fault e => .fault e
  | .refused e => .refused e

/-- Change the value of a result. -/
def mapRes {α β : Type} (f : α → β) (r : Res α) : Res β := andThen r fun a => .next (f a)

/-- The value of a result, if it has one. -/
def value? {α : Type} : Res α → Option α
  | .next a => some a
  | .fault _ => none
  | .refused _ => none

/-- The fault of a result, if it is one. -/
def fault? {α : Type} : Res α → Option Fault
  | .next _ => none
  | .fault e => some e
  | .refused _ => none

/-- The refusal of a result, if it is one. -/
def refusal? {α : Type} : Res α → Option Refusal
  | .next _ => none
  | .fault _ => none
  | .refused e => some e

/-! ## One memory as a list -/

/-- The word at an address, if one has been written. -/
def Memory.read : Memory → Nat → Option Word
  | [], _ => none
  | (k, v) :: rest, a => if a = k then some v else Memory.read rest a

/-- The memory with the word at an address replaced, the list kept in rising order. -/
def Memory.write : Memory → Nat → Word → Memory
  | [], a, w => [(a, w)]
  | (k, v) :: rest, a, w =>
    if a < k then (a, w) :: (k, v) :: rest
    else if a = k then (a, w) :: rest
    else (k, v) :: Memory.write rest a w

/-- Addresses strictly rise from `lo` on and stay below 65,536. -/
def Memory.wfFrom : Memory → Nat → Bool
  | [], _ => true
  | (k, _) :: rest, lo => decide (lo ≤ k) && decide (k < 65536) && Memory.wfFrom rest (k + 1)

/-- The canonical form (R40 to R44). -/
def Memory.wf (m : Memory) : Bool := m.wfFrom 0

/-! ## The three memories -/

/-- The memory of a space (R40). -/
def State.mem (s : State) : Space → Memory
  | .prog => s.prog
  | .data0 => s.data0
  | .data1 => s.data1

/-- The state with the memory of a space replaced. -/
def State.setMem (s : State) (sp : Space) (m : Memory) : State :=
  match sp with
  | .prog => { s with prog := m }
  | .data0 => { s with data0 := m }
  | .data1 => { s with data1 := m }

/-- The word at (space, address), if it holds a value. -/
def State.word? (s : State) (sp : Space) (a : Word) : Option Word := (s.mem sp).read a.toNat

/-- The state with the word at (space, address) written. -/
def State.setWord (s : State) (sp : Space) (a v : Word) : State := s.setMem sp ((s.mem sp).write a.toNat v)

/-- Does the hole cover (space, address)? -/
def Hole.covers (h : Hole) (sp : Space) (a : Nat) : Bool :=
  decide (h.space = sp) && decide (h.first ≤ a) && decide (a ≤ h.last)

/-- What is left of the hole when one address gets memory behind it: nothing changes at any other address. -/
def Hole.without (h : Hole) (sp : Space) (a : Nat) : List Hole :=
  if h.covers sp a then
    (if h.first < a then [{ h with last := a - 1 }] else []) ++ (if a < h.last then [{ h with first := a + 1 }] else [])
  else [h]

/-- The absent ranges with memory put behind (space, address). -/
def makePresent (holes : List Hole) (sp : Space) (a : Nat) : List Hole := holes.flatMap fun h => h.without sp a

/-- `MEM_PRESENT` (R52): no hole covers (space, address). -/
def State.present (s : State) (sp : Space) (a : Word) : Bool := !s.holes.any fun h => h.covers sp a.toNat

/-! ## Access primitives (R45) -/

/-- `DW_ORDER.place` (R47): where the high and the low word of a double word stand. -/
def place (o : DwOrder) (sp : Space) (a : Word) : (Space × Word) × (Space × Word) :=
  match o with
  | .highFirst => ((sp, a), (sp, a + 1))
  | .lowFirst => ((sp, a + 1), (sp, a))
  | .splitD0High => ((.data0, a), (.data1, a))
  | .splitD1High => ((.data1, a), (.data0, a))

/-- `MemRead(space, addr, 1)`. -/
def memRead (s : State) (sp : Space) (a : Word) : Res Word :=
  if s.present sp a then
    match s.word? sp a with
    | some v => .next v
    | none => .fault .readOfUnwritten
  else .fault .stuck

/-- `MemWrite(space, addr, 1, v)`: side condition (d), then (a). -/
def memWrite (s : State) (sp : Space) (a v : Word) : Res State :=
  if sp = .prog then .refused .programWrite
  else if s.present sp a then .next (s.setWord sp a v)
  else .fault .stuck

/-- Side conditions (c), (b) and (a) of R45 on a double-word access, in that order. -/
def checkDouble (c : Config) (s : State) (sp : Space) (a : Word) : Res Unit :=
  if c.dwOrder.consecutive ∧ c.dwAlign = .evenOnly ∧ a.toNat % 2 = 1 then .refused .dwMisaligned
  else if c.dwOrder.consecutive ∧ a = 0xFFFF then .refused .addressWrap
  else if s.present (place c.dwOrder sp a).1.1 (place c.dwOrder sp a).1.2
      && s.present (place c.dwOrder sp a).2.1 (place c.dwOrder sp a).2.2 then .next ()
  else .fault .stuck

/-- `MemRead(space, addr, 2)`. -/
def memReadDouble (c : Config) (s : State) (sp : Space) (a : Word) : Res DWord :=
  andThen (checkDouble c s sp a) fun _ =>
    match s.word? (place c.dwOrder sp a).1.1 (place c.dwOrder sp a).1.2,
        s.word? (place c.dwOrder sp a).2.1 (place c.dwOrder sp a).2.2 with
    | some hi, some lo => .next (DWord.make hi lo)
    | _, _ => .fault .readOfUnwritten

/-- `MemWrite(space, addr, 2, v)`: side condition (d) first. -/
def memWriteDouble (c : Config) (s : State) (sp : Space) (a : Word) (v : DWord) : Res State :=
  if sp = .prog then .refused .programWrite
  else andThen (checkDouble c s sp a) fun _ =>
    .next ((s.setWord (place c.dwOrder sp a).1.1 (place c.dwOrder sp a).1.2 v.hi).setWord
      (place c.dwOrder sp a).2.1 (place c.dwOrder sp a).2.2 v.lo)

/-! ## Pointer registers (R33) -/

/-- The order in which pointer registers are listed. -/
def ptrBefore (r q : Rij) : Bool := decide (r.i < q.i) || (decide (r.i = q.i) && decide (r.j < q.j))

/-- The value of a pointer register; an unlisted one holds 0. -/
def PtrFile.read : PtrFile → Rij → Nat
  | [], _ => 0
  | (k, v) :: rest, r => if r = k then v else PtrFile.read rest r

/-- The list without the pointer register. -/
def PtrFile.erase : PtrFile → Rij → PtrFile
  | [], _ => []
  | (k, v) :: rest, r => if r = k then rest else (k, v) :: PtrFile.erase rest r

/-- The list with the pointer register's entry put in its place. -/
def PtrFile.insert : PtrFile → Rij → Nat → PtrFile
  | [], r, w => [(r, w)]
  | (k, v) :: rest, r, w =>
    if ptrBefore r k then (r, w) :: (k, v) :: rest
    else if r = k then (r, w) :: rest
    else (k, v) :: PtrFile.insert rest r w

/-- Writing a pointer register: writing 0 removes its entry. -/
def PtrFile.write (p : PtrFile) (r : Rij) (w : Nat) : PtrFile := if w = 0 then p.erase r else p.insert r w

/-- Every entry of the list stands after `r`. -/
def PtrFile.above (p : PtrFile) (r : Rij) : Bool := p.all fun e => ptrBefore r e.1

/-- Rising order, no entry 0. -/
def PtrFile.canonical : PtrFile → Bool
  | [] => true
  | (k, v) :: rest => decide (v ≠ 0) && PtrFile.above rest k && PtrFile.canonical rest

/-- The canonical form: rising order, no entry 0, every register one of `PTR_FILE`, every value of its width. -/
def PtrFile.wf (c : Config) (p : PtrFile) : Bool :=
  p.canonical && p.all fun e => e.1.wf c && decide (e.2 < 2 ^ c.ptrWidth)

/-- The value of Rij. -/
def State.readPtr (s : State) (r : Rij) : Nat := s.ptr.read r

/-- The state with Rij written. -/
def State.setPtr (s : State) (r : Rij) (v : Nat) : State := { s with ptr := s.ptr.write r v }

/-- The word address in a pointer register: its low sixteen bits (R4, R33). -/
def State.ptrAddr (s : State) (r : Rij) : Word := BitVec.ofNat 16 (s.readPtr r)

/-- How many addresses a pointer reaches: 65,536, or fewer where it is narrower than an address. -/
def ptrSpan (c : Config) : Nat := 2 ^ min 16 c.ptrWidth

/-- A pointer's address stepped by `d`, the bits above the address kept. A step past the last address, or below 0, is refused and never
wrapped (R52, D12; log 33). -/
def stepPtr (c : Config) (v : Nat) (d : Int) : Res Nat :=
  if 0 ≤ (v % ptrSpan c : Nat) + d ∧ (v % ptrSpan c : Nat) + d < (ptrSpan c : Nat) then .next ((v : Int) + d).toNat
  else .refused .addressWrap

/-- An address formed by an addition. One past 0xFFFF, or below 0, is refused and never wrapped (R52, D12; log 33). -/
def addressSum (n : Int) : Res Word :=
  if 0 ≤ n ∧ n < 65536 then .next (BitVec.ofInt 16 n) else .refused .addressWrap

/-! ## The register file (R10, R28, R31, R36) -/

/-- The 16 bits behind a register address; address 13 is BF or RC as SELBF says (R28). -/
def State.reg (s : State) : RegAddr → Word
  | .al0 => s.al0
  | .ah0 => s.ah0
  | .al1 => s.al1
  | .ah1 => s.ah1
  | .al2 => s.al2
  | .ah2 => s.ah2
  | .pl => s.pl
  | .ph => s.ph
  | .x => s.x
  | .y => s.y
  | .st => s.st
  | .pc => s.pc
  | .sp => s.sp
  | .bfRc => if s.selbf then s.bf else s.rc
  | .tr => s.tr
  | .pm => s.pm

/-- The state with those 16 bits replaced. -/
def State.setReg (s : State) (a : RegAddr) (v : Word) : State :=
  match a with
  | .al0 => { s with al0 := v }
  | .ah0 => { s with ah0 := v }
  | .al1 => { s with al1 := v }
  | .ah1 => { s with ah1 := v }
  | .al2 => { s with al2 := v }
  | .ah2 => { s with ah2 := v }
  | .pl => { s with pl := v }
  | .ph => { s with ph := v }
  | .x => { s with x := v }
  | .y => { s with y := v }
  | .st => { s with st := v }
  | .pc => { s with pc := v }
  | .sp => { s with sp := v }
  | .bfRc => { s with bf := if s.selbf then v else s.bf, rc := if s.selbf then s.rc else v }
  | .tr => { s with tr := v }
  | .pm => { s with pm := v }

/-- `x[a]` (00_scope.md 5.1): refused at address 13 unless SELBF is 0 (R26). -/
def readReg (s : State) (a : RegAddr) : Res Word :=
  if a = .bfRc ∧ s.selbf = true then .refused .bfAccess else .next (s.reg a)

/-- `x[a] <- v`: refused at address 13 unless SELBF is 0 (R26). -/
def writeReg (s : State) (a : RegAddr) (v : Word) : Res State :=
  if a = .bfRc ∧ s.selbf = true then .refused .bfAccess else .next (s.setReg a v)

/-- The register address of `AHn` (R31). -/
def accHigh : Acc → RegAddr
  | .acc0 => .ah0 | .acc1 => .ah1 | .acc2 => .ah2 | .acc3 => .ph

/-- The register address of `ALn` (R31). -/
def accLow : Acc → RegAddr
  | .acc0 => .al0 | .acc1 => .al1 | .acc2 => .al2 | .acc3 => .pl

/-- `ACC[n] = x[2n+1] : x[2n]` (R31). -/
def State.acc (s : State) (n : Acc) : DWord := DWord.make (s.reg (accHigh n)) (s.reg (accLow n))

/-- The state with `ACC[n]` written. -/
def State.setAcc (s : State) (n : Acc) (v : DWord) : State :=
  (s.setReg (accLow n) v.lo).setReg (accHigh n) v.hi

/-! ## The host buffer is out of an instruction's reach (R26, R72 (3)) -/

/-- The state as a semantic function sees it: BF reads as 0, and RC too while SELBF is 1. -/
def State.hidden (s : State) : State := { s with bf := 0, rc := if s.selbf then 0 else s.rc }

/-- The state with what `hidden` took away put back from `s`. -/
def State.restored (t s : State) : State := { t with bf := s.bf, rc := if s.selbf then s.rc else t.rc }

/-- The state with BF replaced. -/
def State.withBf (s : State) (v : Word) : State := { s with bf := v }

/-! ## The program counter (R24, R93) -/

/-- The state with the pc replaced. -/
def State.setPc (s : State) (v : Word) : State := { s with pc := v }

/-- BRA and CALL: the two forms whose semantic function owns the next pc. -/
def isTransfer (i : Instr) : Bool :=
  match i.form with
  | .BRA | .CALL => true
  | .ADSI | .AOP_A_RAM | .AOP_IND | .AOP_PTR | .AOP_REG | .AOPI | .AOPSI
  | .INC_IND | .DEC_IND | .INC_REG | .DEC_REG
  | .LD_A_RAM | .LD_RAM_A | .LD_D_IND | .LD_IND_S | .LD_D_INDP | .LD_INDP_S => false

/-- The end of a step of the instruction `i` at address `a`, after its semantic function left `t`: BRA and CALL keep the pc of `t`,
every other form goes to `a + W`, and a carry out of bit 15 is refused (R24, R72).
DESIGN CHOICE, unsafe (log 34): a write to RC (address 13 while SELBF is 0) starts no repeat. Whatever `t` holds in RC, the next instruction
is the one at `a + W`, once: the hypothesis `rc_side_effect` of 93_implementation_defined.md U10 is that the chip does the same. -/
def advance (i : Instr) (a : Word) (t : State) : Res State :=
  if isTransfer i then .next t
  else if a.toNat + i.words < 65536 then .next (t.setPc (a + BitVec.ofNat 16 i.words))
  else .refused .pcWrap

end Sys2Proof.Machine
end

