-- ==== Sys2Proof/Machine/Operands.lean ====
section
/-! DEFINITION. Operands: register addresses and names (spec/10_state.md R10, R32), the sub-fields of RC, TR and PM (R27, R29, R30), the
"S" and "D" operands and the two refusals on them (R37), and the condition operand (spec/30_encoding.md R65, spec/41_control.md R92). -/

namespace Sys2Proof.Machine

/-! ## Register addresses and names -/

/-- The register address as the number R10 prints. -/
def regNumber : RegAddr → Nat
  | .al0 => 0 | .ah0 => 1 | .al1 => 2 | .ah1 => 3 | .al2 => 4 | .ah2 => 5 | .pl => 6 | .ph => 7
  | .x => 8 | .y => 9 | .st => 10 | .pc => 11 | .sp => 12 | .bfRc => 13 | .tr => 14 | .pm => 15

/-- The register at a 4 bit address. -/
def regOfNumber (n : Nat) : Option RegAddr :=
  [RegAddr.al0, .ah0, .al1, .ah1, .al2, .ah2, .pl, .ph, .x, .y, .st, .pc, .sp, .bfRc, .tr, .pm][n]?

/-- The twenty-four register names of R32. -/
inductive RegName where
  | AL | AL0 | A | AH | AH0 | AL1 | TL | AH1 | TH | AL2 | AH2 | PL | AL3 | PH | AH3
  | X | Y | ST | PC | SP | BF | RC | TR | PM
  deriving DecidableEq, Repr

/-- All the names, for counting them. -/
def regNames : List RegName :=
  [.AL, .AL0, .A, .AH, .AH0, .AL1, .TL, .AH1, .TH, .AL2, .AH2, .PL, .AL3, .PH, .AH3,
    .X, .Y, .ST, .PC, .SP, .BF, .RC, .TR, .PM]

/-- The register address a name means (R32). -/
def nameAddr : RegName → RegAddr
  | .AL | .AL0 => .al0
  | .A | .AH | .AH0 => .ah0
  | .AL1 | .TL => .al1
  | .AH1 | .TH => .ah1
  | .AL2 => .al2
  | .AH2 => .ah2
  | .PL | .AL3 => .pl
  | .PH | .AH3 => .ph
  | .X => .x
  | .Y => .y
  | .ST => .st
  | .PC => .pc
  | .SP => .sp
  | .BF | .RC => .bfRc
  | .TR => .tr
  | .PM => .pm

/-- A read by name. BF is refused while SELBF is 1 (R26), and at 0 too (DEDUCED, log 19). -/
def readName (s : State) (n : RegName) : Res Word :=
  if n = .BF then .refused .bfAccess else readReg s (nameAddr n)

/-- A write by name. BF is refused while SELBF is 1 (R26), and at 0 too (DEDUCED, log 19). -/
def writeName (s : State) (n : RegName) (v : Word) : Res State :=
  if n = .BF then .refused .bfAccess else writeReg s (nameAddr n) v

/-! ## Sub-fields -/

/-- RC[15:8], the field n (R27). -/
def rcN (rc : Word) : BitVec 8 := rc.extractLsb' 8 8

/-- RC[7:0], the field m (R27). -/
def rcM (rc : Word) : BitVec 8 := rc.extractLsb' 0 8

/-- TR[5:0], the bit count of the barrel shifter (R29). -/
def trCount (tr : Word) : BitVec 6 := tr.extractLsb' 0 6

/-- PM[8:0], the pointer modifier (R30). -/
def pmModifier (pm : Word) : BitVec 9 := pm.extractLsb' 0 9

/-- PM[15:9], the guard bits (R30). -/
def pmGuard (pm : Word) : BitVec 7 := pm.extractLsb' 9 7

/-! ## Operands of an instruction -/

/-- The "S" or "D" operand, where the form has one (R65). -/
def regOperand : Instr → Option RegAddr
  | .aopReg _ _ _ sr _ => some sr
  | .incReg sr _ => some sr
  | .decReg sr _ => some sr
  | .ldDInd d _ _ => some d
  | .ldIndS _ sr _ => some sr
  | .ldDIndp d _ => some d
  | .ldIndpS _ sr => some sr
  | .adsi .. | .aopARam .. | .aopInd .. | .aopPtr .. | .aopi .. | .aopsi .. | .bra .. | .call ..
  | .incInd .. | .decInd .. | .ldARam .. | .ldRamA .. => none

/-- The condition operand, where the instruction has one (R65, R99). -/
def condOperand : Instr → Option Cond
  | .bra k _ => some k
  | .call k _ => some k
  | .incInd _ k => k
  | .decInd _ k => some k
  | .incReg _ k => k
  | .decReg _ k => some k
  | .adsi .. | .aopARam .. | .aopInd .. | .aopPtr .. | .aopReg .. | .aopi .. | .aopsi ..
  | .ldARam .. | .ldRamA .. | .ldDInd .. | .ldIndS .. | .ldDIndp .. | .ldIndpS .. => none

/-- The pointer register an instruction can step (R52, R106): the one its memory operand "(Rij)" or "(Rij)p" goes through, or the operand
of ADSI (95_test_vectors.md's H.ADSI steps it). "Aop Ad,As,Rij" takes its pointer as a value and steps none. -/
def ptrOperand : Instr → Option Rij
  | .adsi r _ => some r
  | .aopInd _ _ _ r _ => some r
  | .incInd r _ => some r
  | .decInd r _ => some r
  | .ldDInd _ r _ => some r
  | .ldIndS r _ _ => some r
  | .ldDIndp _ r => some r
  | .ldIndpS r _ => some r
  | .aopARam .. | .aopPtr .. | .aopReg .. | .aopi .. | .aopsi .. | .bra .. | .call ..
  | .incReg .. | .decReg .. | .ldARam .. | .ldRamA .. => none

/-- The place in memory a form goes to. -/
inductive MemOperand where
  /-- no memory -/
  | none
  /-- "RAM" -/
  | direct (ram : DirectAddr)
  /-- "(Rij)" -/
  | pointer (r : Rij)
  /-- "(Rij)p" -/
  | pointerP (r : Rij)
  /-- the stack, through SP -/
  | stack
  deriving DecidableEq, Repr

/-- The memory operand of an instruction (20_memory.md R51, 43_load.md R106), and for CALL the stack (10_state.md R25). A form whose rule
lists no memory case has none (40_alu.md R80, R83 to R86; 41_control.md R90; 42_incdec.md R97, R98). -/
def memOperand : Instr → MemOperand
  | .aopARam _ ram _ => .direct ram
  | .ldARam ram _ => .direct ram
  | .ldRamA ram _ => .direct ram
  | .aopInd _ _ _ r _ => .pointer r
  | .incInd r _ => .pointer r
  | .decInd r _ => .pointer r
  | .ldDInd _ r _ => .pointer r
  | .ldIndS r _ _ => .pointer r
  | .ldDIndp _ r => .pointerP r
  | .ldIndpS r _ => .pointerP r
  | .call .. => .stack
  | .adsi .. | .aopPtr .. | .aopReg .. | .aopi .. | .aopsi .. | .bra .. | .incReg .. | .decReg .. => .none

/-- The spaces a memory operand can lie in. "RAM" and "(Rij)" are in a data memory (20_memory.md R51); "(Rij)p" and the stack are in a space
the sources do not identify, so in `PROG` too where `spaces` says so (R51, R91; log 36). -/
def memorySpaces (i : Instr) (s : State) : List Space :=
  match memOperand i with
  | .none => []
  | .direct _ | .pointer _ => [.data0, .data1]
  | .pointerP _ => if s.spaces.indp then [.prog, .data0, .data1] else [.data0, .data1]
  | .stack => if s.spaces.stack then [.prog, .data0, .data1] else [.data0, .data1]

/-- A register as the base of an effective address: any but the PC, which stands for no base (log 33). -/
def baseValue (s : State) (b : RegAddr) : Nat := if b = .pc then 0 else (s.reg b).toNat

/-- An effective address formed by an addition (D12; log 33): a base register plus the direct operand, or the address in the pointer or in SP
plus a displacement `d`. A form without a memory operand forms none. -/
def effAddr (i : Instr) (b : RegAddr) (d : ShortImm) (s : State) : Res Word :=
  match memOperand i with
  | .none => .next 0
  | .direct ram => addressSum ((baseValue s b + ram.toNat : Nat) : Int)
  | .pointer r | .pointerP r => addressSum ((s.ptrAddr r).toNat + d.toInt)
  | .stack => addressSum (s.sp.toNat + d.toInt)

/-- The form has a memory operand and the option ",w": the one place where a double-word access can stand (20_memory.md R48; log 29). -/
def takesDouble : Instr → Bool
  | .aopARam _ _ w => w
  | .aopInd _ _ _ _ w => w
  | .ldARam _ w => w
  | .ldRamA _ w => w
  | .ldDInd _ _ w => w
  | .ldIndS _ _ w => w
  | .adsi .. | .aopPtr .. | .aopReg .. | .aopi .. | .aopsi .. | .bra .. | .call ..
  | .incInd .. | .decInd .. | .incReg .. | .decReg .. | .ldDIndp .. | .ldIndpS .. => false

/-- An operand names register address 10, so that the whole of ST may change (R72 (4)). -/
def namesSt (i : Instr) : Bool := decide (regOperand i = some .st)

/-- The refusals on an "S" or "D" operand: the PC, and address 13 while SELBF is 1 (R37, D25). -/
def checkOperand (i : Instr) (s : State) : Option Refusal :=
  match regOperand i with
  | some .pc => some .pcOperand
  | some .bfRc => if s.selbf then some .bfAccess else none
  | some .al0 | some .ah0 | some .al1 | some .ah1 | some .al2 | some .ah2 | some .pl | some .ph
  | some .x | some .y | some .st | some .sp | some .tr | some .pm | none => none

end Sys2Proof.Machine
end

