-- ==== Sys2Proof/Machine/Flags.lean ====
section
/-! DEFINITION. The fields of ST under a layout (spec/10_state.md R21 to R23).
The sources give no flag computation (R23, spec/40_alu.md R87): N, OV, Z, CY and RZ after an instruction are free values.
What they do give is which fields an instruction leaves alone: OP, IEx, IE2, IE1, IE0 and PRL (R23, spec/30_encoding.md R72 (4)). -/

namespace Sys2Proof.Machine

/-- Ones on the bits of the range. -/
def rangeMask (r : StRange) : Word :=
  (BitVec.allOnes 16 <<< r.lo) &&& (BitVec.allOnes 16 >>> (15 - r.hi))

/-- A field of a status word, in the low bits. -/
def readField (l : StLayout) (f : StField) (st : Word) : Word := (st &&& rangeMask (l f)) >>> (l f).lo

/-- The status word with a field replaced by the low bits of `v`. -/
def writeField (l : StLayout) (f : StField) (st v : Word) : Word :=
  (st &&& ~~~(rangeMask (l f))) ||| ((v <<< (l f).lo) &&& rangeMask (l f))

/-- One of the five flags an instruction may update (R23). -/
def isAluFlag : StField → Bool
  | .n | .ov | .z | .cy | .rz => true
  | .op | .iex | .ie2 | .ie1 | .ie0 | .prl => false

/-- Ones on the six fields an instruction leaves alone (R23). -/
def protectedMask (l : StLayout) : Word :=
  rangeMask (l .op) ||| rangeMask (l .iex) ||| rangeMask (l .ie2) ||| rangeMask (l .ie1)
    ||| rangeMask (l .ie0) ||| rangeMask (l .prl)

/-- The status word `new`, but for the six protected fields, which stay as in `old` unless an operand names ST (R72 (4)). -/
def keepProtected (l : StLayout) (names : Bool) (old new : Word) : Word :=
  if names then new else (old &&& protectedMask l) ||| (new &&& ~~~(protectedMask l))

end Sys2Proof.Machine
end

