-- ==== Sys2Proof/Machine/Chip.lean ====
section
/-! DEFINITION. The open semantic functions of the chip (`SEM`, `COND`; spec/30_encoding.md R72, spec/41_control.md R92, D7, D8) as free
values, and the one shared operation that runs an instruction with them.
No surviving sentence says what an instruction does (spec/91_not_in_source.md N40-1), so an instruction's effect is an opaque function of
the instruction, the truth value of its condition and the state. The frame of R72 bounds it: everything the frame lets a semantic
function change is free, and everything it forbids is kept. Its memory accesses go through the primitives of R45 and reach what its form
reaches (R51). `freeCount` makes each value fresh, so that a chip whose effect depends on state the sources never describe
(spec/10_state.md R34) is covered too. -/

namespace Sys2Proof.Machine

/-- One access of a semantic function to memory, by a primitive of R45. -/
inductive Access where
  | read (space : Space) (addr : Word)
  | store (space : Space) (addr : Word) (value : Word)
  | readDouble (space : Space) (addr : Word)
  | storeDouble (space : Space) (addr : Word) (value : DWord)
  /-- an access whose effective address passes the end of a memory (R52, D12): it has no address -/
  | pastEnd
  deriving DecidableEq, Repr, Inhabited

/-- An access a semantic function asks for. With `sum`, its address is the sum that `effAddr` forms from a base register and a displacement,
in place of the address written; without, its effective address is formed in some way that cannot carry (log 33). -/
structure Request where
  access : Access
  sum : Option (RegAddr × ShortImm)
  deriving DecidableEq, Repr, Inhabited

/-- What an evaluation leaves in the core: a value for every register, and pointer registers written. -/
structure Change where
  reg : RegAddr → Word
  ptr : List (Rij × Nat)
  deriving Inhabited

/-- What a semantic function answers: a change, memory accesses in order, and a step of its pointer operand, or of SP for CALL. -/
structure Effect extends Change where
  accesses : List Request
  step : Option ShortImm
  deriving Inhabited

end Sys2Proof.Machine

namespace Sys2Proof.Config

open Sys2Proof.Machine

/-- `COND` of the chip: a condition's truth value and what its evaluation changes, together (R92, U20). OPEN (D8). -/
opaque freeCond : Cond → State → Bool × Change

/-- `SEM` of the chip: what an instruction does, given its condition's truth value and the state it sees. OPEN (D7). -/
opaque freeEffect : Instr → Option Bool → State → Effect

end Sys2Proof.Config

namespace Sys2Proof.Machine

/-! ## What an effect can reach -/

/-- May the instruction make the access? It reaches its operand's spaces (R51), and makes a double-word access only under ",w" (log 29).
A store to `PROG` that it reaches is made, so that the primitive refuses it (R56, R105). -/
def reaches (i : Instr) (s : State) : Access → Bool
  | .read sp _ => decide (sp ∈ memorySpaces i s)
  | .store sp _ _ => decide (sp ∈ memorySpaces i s)
  | .readDouble sp _ => decide (sp ∈ memorySpaces i s) && takesDouble i
  | .storeDouble sp _ _ => decide (sp ∈ memorySpaces i s) && takesDouble i
  | .pastEnd => false

/-- The access at another address. -/
def Access.at (x : Access) (a : Word) : Access :=
  match x with
  | .read sp _ => .read sp a
  | .store sp _ v => .store sp a v
  | .readDouble sp _ => .readDouble sp a
  | .storeDouble sp _ v => .storeDouble sp a v
  | .pastEnd => .pastEnd

/-- The access asked for, at its effective address; BF, and RC while SELBF is 1, are no base registers (R72 (3)). -/
def Request.formed (q : Request) (i : Instr) (s : State) : Access :=
  match q.sum with
  | none => q.access
  | some (b, d) =>
    match value? (effAddr i b d s.hidden) with
    | some a => q.access.at a
    | none => .pastEnd

/-- The accesses of an effect that the instruction makes when it begins at `s`. -/
def Effect.made (e : Effect) (i : Instr) (s : State) : List Access :=
  (e.accesses.filter fun q => reaches i s q.access).map fun q => q.formed i s

/-- The step of an effect that the instruction makes: of its pointer operand, one of `PTR_FILE`. -/
def Effect.stepOf (e : Effect) (c : Config) (i : Instr) : Option (Rij × ShortImm) :=
  match ptrOperand i, e.step with
  | some r, some d => if r.wf c then some (r, d) else none
  | some _, none => none
  | none, _ => none

/-- The step of SP that an effect makes: CALL's only (R25, log 33). -/
def Effect.spStepOf (e : Effect) (i : Instr) : Option ShortImm :=
  match memOperand i with
  | .stack => e.step
  | .none | .direct _ | .pointer _ | .pointerP _ => none

/-! ## Making it -/

/-- One access, by its primitive: the state after it. A value read has gone into the free effect already. -/
def access (c : Config) (s : State) : Access → Res State
  | .read sp a => mapRes (fun _ => s) (memRead s sp a)
  | .store sp a v => memWrite s sp a v
  | .readDouble sp a => mapRes (fun _ => s) (memReadDouble c s sp a)
  | .storeDouble sp a v => memWriteDouble c s sp a v
  | .pastEnd => .refused .addressWrap

/-- The accesses, in order, each on the memory the ones before it left; the first that a primitive stops stops them all (R53). -/
def runAccesses (c : Config) : List Access → State → Res State
  | [], s => .next s
  | x :: rest, s => andThen (access c s x) (runAccesses c rest)

/-- The pointer file after the step, if there is one, of the value the pointer held in `base`. -/
def stepFile (c : Config) (step : Option (Rij × ShortImm)) (base p : PtrFile) : Res PtrFile :=
  match step with
  | none => .next p
  | some (r, d) => mapRes (fun v => p.write r v) (stepPtr c (base.read r) d.toInt)

/-- SP after the step, if there is one, of the value `base` it held; otherwise the value `v`. -/
def stepSp (step : Option ShortImm) (base v : Word) : Res Word :=
  match step with
  | none => .next v
  | some d => addressSum (base.toNat + d.toInt)

/-- The change with another value for SP. -/
def Change.withSp (e : Change) (v : Word) : Change := { e with reg := fun a => if a = .sp then v else e.reg a }

/-- The pointer registers written, in order, cut to their width; a register outside `PTR_FILE` does not exist. -/
def applyPtrs (c : Config) (writes : List (Rij × Nat)) (p : PtrFile) : PtrFile :=
  writes.foldl (fun q w => if w.1.wf c then q.write w.1 (w.2 % 2 ^ c.ptrWidth) else q) p

/-- A change inside the frame: registers, pointer registers on top of the file `p`; one more free value has been drawn. `names`: an
operand names ST; `transfer`: the pc is the semantic function's. BF is out of reach, and RC too while SELBF is 1 (R72 (3)).
DESIGN CHOICE, unsafe (log 33): SP takes any value, as a register written outright; only a step of CALL's (`stepSp`) is a move that R52 can
refuse. -/
def settle (c : Config) (names transfer : Bool) (e : Change) (p : PtrFile) (s : State) : State :=
  { s with
    al0 := e.reg .al0
    ah0 := e.reg .ah0
    al1 := e.reg .al1
    ah1 := e.reg .ah1
    al2 := e.reg .al2
    ah2 := e.reg .ah2
    pl := e.reg .pl
    ph := e.reg .ph
    x := e.reg .x
    y := e.reg .y
    st := keepProtected c.stLayout names s.st (e.reg .st)
    pc := if transfer then e.reg .pc else s.pc
    sp := e.reg .sp
    rc := if s.selbf then s.rc else e.reg .bfRc
    tr := e.reg .tr
    pm := e.reg .pm
    ptr := applyPtrs c e.ptr p
    freeCount := s.freeCount + 1 }

/-- An effect of the instruction inside the frame: its accesses, the step of its pointer or of SP, then its change. `base` is the state the
instruction began at, whose registers and pointers form the effective addresses and are stepped. -/
def applyEffect (c : Config) (i : Instr) (e : Effect) (base s : State) : Res State :=
  andThen (runAccesses c (e.made i base) s) fun t =>
    andThen (stepFile c (e.stepOf c i) base.ptr t.ptr) fun p =>
      mapRes (fun v => settle c (namesSt i) (isTransfer i) (e.toChange.withSp v) p t) (stepSp (e.spStepOf i) base.sp (e.reg .sp))

/-! ## Running an instruction -/

/-- `Cond(k)` of the chip (R92): the truth value, and the state after evaluation. It makes no memory access (log 11). -/
def evalCond (c : Config) (k : Cond) (s : State) : Bool × State :=
  ((Config.freeCond k s.hidden).1, settle c false false (Config.freeCond k s.hidden).2 s.ptr s)

/-- The condition of the instruction, if it has one, is evaluated first (R92; log 11). -/
def evalOperand (c : Config) (i : Instr) (s : State) : Option Bool × State :=
  match condOperand i with
  | none => (none, s)
  | some k => (some (evalCond c k s).1, (evalCond c k s).2)

/-- What the semantic function answers for the instruction at `s`, once its condition is evaluated. -/
def semEffect (c : Config) (i : Instr) (s : State) : Effect :=
  Config.freeEffect i (evalOperand c i s).1 (evalOperand c i s).2.hidden

/-- `SEM.F` of the chip, inside the frame: what it answers, applied to the state its condition left. Its effective addresses and its step
start from the values held when the instruction began (log 33). -/
def runEffect (c : Config) (i : Instr) (s : State) : Res State :=
  applyEffect c i (semEffect c i s) s (evalOperand c i s).2

/-- One instruction at the pc of `s`, as R72 runs it: the operand refusals, the condition, the semantic function, the next pc. -/
def run (c : Config) (i : Instr) (s : State) : Res State :=
  match checkOperand i s with
  | some r => .refused r
  | none => andThen (runEffect c i s) fun t => advance i s.pc t

/-! ## What accesses leave in memory -/

/-- One word stored. -/
structure Store where
  space : Space
  addr : Word
  value : Word
  deriving DecidableEq, Repr, Inhabited

/-- The words the accesses store, in order; a double word is two, where `DW_ORDER` puts them (R47). -/
def storesOf (c : Config) : List Access → List Store
  | [] => []
  | .read _ _ :: rest => storesOf c rest
  | .store sp a v :: rest => ⟨sp, a, v⟩ :: storesOf c rest
  | .readDouble _ _ :: rest => storesOf c rest
  | .storeDouble sp a v :: rest =>
    ⟨(place c.dwOrder sp a).1.1, (place c.dwOrder sp a).1.2, v.hi⟩
      :: ⟨(place c.dwOrder sp a).2.1, (place c.dwOrder sp a).2.2, v.lo⟩ :: storesOf c rest
  | .pastEnd :: rest => storesOf c rest

/-- The value the last store of the list to (space, address) stores, if there is one. -/
def lastStore : List Store → Space → Word → Option Word
  | [], _, _ => none
  | m :: rest, sp, a => (lastStore rest sp a).or (if m.space = sp ∧ m.addr = a then some m.value else none)

end Sys2Proof.Machine
end

