-- ==== Sys2Proof/Machine/Alu.lean ====
section
/-! DEFINITION. The ALU forms (spec/40_alu.md R80 to R88): ADSI, Aop, AopI, AopSI.
No arithmetic law is in the sources (R87): results and flags are free values.
A form with a memory operand is stopped where an access of its effect is (R35, R45, R52), the others make none; ADSI and the form through
a pointer are refused where the pointer would step past the last address (R52). -/

namespace Sys2Proof.Machine

/-- "ADSI Rij,#sSImm" (R80): the effect is `SEM.ADSI`'s, the next pc is a + 1. -/
def execAdsi (r : Rij) (imm : ShortImm) (s : State) : Res State := run Config.chip (.adsi r imm) s

/-- "Aop A,RAM,w" (R81): the effect is `SEM.AOP_A_RAM`'s, the next pc is a + 1. -/
def execAopARam (op : AluOp) (ram : DirectAddr) (w : Bool) (s : State) : Res State := run Config.chip (.aopARam op ram w) s

/-- "Aop Ad,As,(Rij),w" (R82): the effect is `SEM.AOP_IND`'s, the next pc is a + 1. -/
def execAopInd (op : AluOp) (ad src : Acc) (r : Rij) (w : Bool) (s : State) : Res State := run Config.chip (.aopInd op ad src r w) s

/-- "Aop Ad,As,Rij" (R83): the effect is `SEM.AOP_PTR`'s, the next pc is a + 1. -/
def execAopPtr (op : AluOp) (ad src : Acc) (r : Rij) (s : State) : Res State := run Config.chip (.aopPtr op ad src r) s

/-- "Aop Ad,As,S,w" (R84): refused on S = 11, and on S = 13 unless SELBF is 0; else the effect is `SEM.AOP_REG`'s and the next pc a + 1. -/
def execAopReg (op : AluOp) (ad src : Acc) (sr : RegAddr) (w : Bool) (s : State) : Res State := run Config.chip (.aopReg op ad src sr w) s

/-- "AopI Ad,As,#Imm" (R85): the effect is `SEM.AOPI`'s, given the second word whole; the next pc is a + 2. -/
def execAopi (op : AluOp) (ad src : Acc) (w1 : Word) (s : State) : Res State := run Config.chip (.aopi op ad src w1) s

/-- "AopSI As,#Simm" (R86): the effect is `SEM.AOPSI`'s, the next pc is a + 1. -/
def execAopsi (op : AluOp) (src : Acc) (imm : ShortImm) (s : State) : Res State := run Config.chip (.aopsi op src imm) s

end Sys2Proof.Machine
end

