-- ==== Sys2Proof/Machine/Control.lean ====
section
/-! DEFINITION. The control transfer forms (spec/41_control.md R90 to R93): BRA, CALL.
The next pc is the semantic function's (R93); there is no delay slot (spec/70_reset_and_hazards.md R143). What CALL saves and where is open (R91).
CALL is stopped where a memory access of its effect is (R35, R52), a store to `PROG` (R56) or a move of SP past the end of a memory (D12)
among them; BRA makes none. -/

namespace Sys2Proof.Machine

/-- "BRA cond" (R90): the condition is evaluated, then the effect and the next pc are `SEM.BRA`'s, given the second word whole. -/
def execBra (k : Cond) (w1 : Word) (s : State) : Res State := run Config.chip (.bra k w1) s

/-- "CALL cond" (R91): the condition is evaluated, then the effect, what is saved and the next pc are `SEM.CALL`'s. -/
def execCall (k : Cond) (w1 : Word) (s : State) : Res State := run Config.chip (.call k w1) s

end Sys2Proof.Machine
end

