-- ==== Sys2Proof/Machine/IncDec.lean ====
section
/-! DEFINITION. The increment and decrement forms (spec/42_incdec.md R95 to R99): INC, DEC.
A condition, where the instruction has one, is evaluated first; INC's is optional (R99).
INC (Rij) and DEC (Rij) are stopped where a memory access of their effect is (R35, R52); INC S and DEC S make none (R97, R98). -/

namespace Sys2Proof.Machine

/-- "INC (Rij)[,cond]" (R95): the effect is `SEM.INC_IND`'s, the next pc is a + 1. -/
def execIncInd (r : Rij) (k : Option Cond) (s : State) : Res State := run Config.chip (.incInd r k) s

/-- "DEC (Rij),cond" (R96): the effect is `SEM.DEC_IND`'s, the next pc is a + 1. -/
def execDecInd (r : Rij) (k : Cond) (s : State) : Res State := run Config.chip (.decInd r k) s

/-- "INC S[,cond]" (R97): refused on S = 11, and on S = 13 unless SELBF is 0; else the effect is `SEM.INC_REG`'s and the next pc a + 1. -/
def execIncReg (sr : RegAddr) (k : Option Cond) (s : State) : Res State := run Config.chip (.incReg sr k) s

/-- "DEC S,cond" (R98): refused on S = 11, and on S = 13 unless SELBF is 0; else the effect is `SEM.DEC_REG`'s and the next pc a + 1. -/
def execDecReg (sr : RegAddr) (k : Cond) (s : State) : Res State := run Config.chip (.decReg sr k) s

end Sys2Proof.Machine
end

