-- ==== Sys2Proof/Machine/Load.lean ====
section
/-! DEFINITION. The load and store forms (spec/43_load.md R100 to R106): LD.
No effective-address computation survives (R106), so which memory word is read or written is part of the free effect.
Every form is stopped where an access of its effect is (R35, R45, R52) or where an effective address passes the end of a memory (D12). -/

namespace Sys2Proof.Machine

/-- "LD A,RAM,w" (R100): the effect is `SEM.LD_A_RAM`'s, the next pc is a + 1. -/
def execLdARam (ram : DirectAddr) (w : Bool) (s : State) : Res State := run Config.chip (.ldARam ram w) s

/-- "LD RAM,A,w" (R101): the effect is `SEM.LD_RAM_A`'s, the next pc is a + 1. -/
def execLdRamA (ram : DirectAddr) (w : Bool) (s : State) : Res State := run Config.chip (.ldRamA ram w) s

/-- "LD D,(Rij),w" (R102): refused on D = 11, and on D = 13 unless SELBF is 0; else the effect is `SEM.LD_D_IND`'s and the next pc a + 1. -/
def execLdDInd (d : RegAddr) (r : Rij) (w : Bool) (s : State) : Res State := run Config.chip (.ldDInd d r w) s

/-- "LD (Rij),S,w" (R103): refused on S = 11, and on S = 13 unless SELBF is 0; else the effect is `SEM.LD_IND_S`'s and the next pc a + 1. -/
def execLdIndS (r : Rij) (sr : RegAddr) (w : Bool) (s : State) : Res State := run Config.chip (.ldIndS r sr w) s

/-- "LD D,(Rij)p" (R104): refused on D = 11, and on D = 13 unless SELBF is 0; else the effect is `SEM.LD_D_INDP`'s and the next pc a + 1. -/
def execLdDIndp (d : RegAddr) (r : Rij) (s : State) : Res State := run Config.chip (.ldDIndp d r) s

/-- "LD (Rij)p,S" (R105): refused on S = 11, and on S = 13 unless SELBF is 0; else the effect is `SEM.LD_INDP_S`'s and the next pc a + 1. Where its effect stores to `PROG`, it is refused `programWrite` (R56, R105). -/
def execLdIndpS (r : Rij) (sr : RegAddr) (s : State) : Res State := run Config.chip (.ldIndpS r sr) s

end Sys2Proof.Machine
end

