-- ==== Sys2Proof/Machine/Dispatch.lean ====
section
/-! DEFINITION. One arm per instruction form (spec/30_encoding.md R70). -/

namespace Sys2Proof.Machine

def exec (i : Instr) (s : State) : Host.Outcome State Fault Refusal :=
  match i with
  | .adsi r imm => Sys2Proof.Machine.execAdsi r imm s
  | .aopARam op ram w => Sys2Proof.Machine.execAopARam op ram w s
  | .aopInd op ad src r w => Sys2Proof.Machine.execAopInd op ad src r w s
  | .aopPtr op ad src r => Sys2Proof.Machine.execAopPtr op ad src r s
  | .aopReg op ad src sr w => Sys2Proof.Machine.execAopReg op ad src sr w s
  | .aopi op ad src w1 => Sys2Proof.Machine.execAopi op ad src w1 s
  | .aopsi op src imm => Sys2Proof.Machine.execAopsi op src imm s
  | .bra k w1 => Sys2Proof.Machine.execBra k w1 s
  | .call k w1 => Sys2Proof.Machine.execCall k w1 s
  | .incInd r k => Sys2Proof.Machine.execIncInd r k s
  | .decInd r k => Sys2Proof.Machine.execDecInd r k s
  | .incReg sr k => Sys2Proof.Machine.execIncReg sr k s
  | .decReg sr k => Sys2Proof.Machine.execDecReg sr k s
  | .ldARam ram w => Sys2Proof.Machine.execLdARam ram w s
  | .ldRamA ram w => Sys2Proof.Machine.execLdRamA ram w s
  | .ldDInd d r w => Sys2Proof.Machine.execLdDInd d r w s
  | .ldIndS r sr w => Sys2Proof.Machine.execLdIndS r sr w s
  | .ldDIndp d r => Sys2Proof.Machine.execLdDIndp d r s
  | .ldIndpS r sr => Sys2Proof.Machine.execLdIndpS r sr s

end Sys2Proof.Machine
end

