-- ==== Sys2Proof/Machine/Fetch.lean ====
section
/-! DEFINITION. Fetching and decoding the instruction at the pc (spec/30_encoding.md R62, R66, R67, R72; spec/20_memory.md R41, R46, R52). -/

namespace Sys2Proof.Machine

/-- Run the instruction the words decode to; each way a word selects none is refused under its own name (R66, R67, R110). -/
def runDecoded (exec : Instr → State → Res State) (d : Decoded) (s : State) : Res State :=
  match d with
  | .instr i => exec i s
  | .undecoded => .refused .undecoded
  | .custom => .refused .customInstruction
  | .unlisted => .refused .unlistedInstruction

/-- One step at the pc: read the first word of `PROG`, the second only where the form has one, decode, run (R72).
A two-word instruction at 0xFFFF has no address for its second word and is refused. -/
def fetchRun (c : Config) (exec : Instr → State → Res State) (s : State) : Res State :=
  andThen (memRead s .prog s.pc) fun w0 =>
    if needsSecond c w0 then
      if s.pc = 0xFFFF then .refused .pcWrap
      else andThen (memRead s .prog (s.pc + 1)) fun w1 => runDecoded exec (decode c w0 w1) s
    else runDecoded exec (decode c w0 0) s

/-- Two words stored where the next fetch reads them.
DESIGN CHOICE, safe (log 22): where such an address lies in an absent range (R52), it alone is made present; the rest of the range stays
absent. At pc 0xFFFF there is no place for the second word, and only the first is stored. -/
def loadAtPc (s : State) (w0 w1 : Word) : State :=
  let p := s.prog.write s.pc.toNat w0
  let h := makePresent s.holes .prog s.pc.toNat
  { s with
    prog := if s.pc = 0xFFFF then p else p.write (s.pc.toNat + 1) w1
    holes := if s.pc = 0xFFFF then h else makePresent h .prog (s.pc.toNat + 1) }

end Sys2Proof.Machine
end

