-- ==== Sys2Proof/Machine/Step.lean ====
section
/-! DEFINITION. One step of the core (spec/30_encoding.md R72), and an instruction loaded where the next step fetches it. -/

namespace Sys2Proof.Machine

/-- One step: fetch, decode, run. -/
def step : State → Host.Outcome State Fault Refusal := fetchRun Config.chip exec

/-- The instruction whose bits are `w` (first word in bits 15:0, second in 31:16, bits from `nbits` on zero) stored at the pc.
It stands for the launch's load of `PROG` (spec/70_reset_and_hazards.md R148 (2); log 22). -/
def State.withFetchWord (s : State) (nbits w : Nat) : State :=
  loadAtPc s (BitVec.ofNat 16 (w % 2 ^ nbits)) (BitVec.ofNat 16 (w % 2 ^ nbits / 2 ^ 16))

end Sys2Proof.Machine
end

