-- ==== Sys2Proof/Machine/Frame.lean ====
section
/-! DEFINITION. The frame of spec/30_encoding.md R72 over ANY value of the OPEN parameters (spec/00_scope.md R9): a configuration, the
conditions and the semantic functions are arguments, a semantic function may be missing, may stop, and may break the frame.
A claim about `runForm` holds for every chip; `exec` is its instance at the opaque constants of the chip (`chipSem`). -/

namespace Sys2Proof.Machine

/-- A value of `COND` (D8): the truth value of a condition and the state after its evaluation, or a stop. -/
abbrev CondFn := Cond → State → Res (Bool × State)

/-- A value of the parameters `COND` and `SEM` (D7, D8). `SEM` has one optional function per form, which is given the conditions, the
instruction with its operands and second word, and the state. -/
structure Sem where
  cond : CondFn
  sem : Form → Option (CondFn → Instr → State → Res State)

/-- Conditions (1) to (4) of R72 on the state `t` a semantic function made of `s`, and that the launch's SELBF, `MEM_PRESENT` and `spaces` stay. -/
def frameKept (c : Config) (i : Instr) (s t : State) : Bool :=
  decide (t.prog = s.prog)
    && (isTransfer i || decide (t.pc = s.pc))
    && (decide (t.bf = s.bf) && (!s.selbf || decide (t.rc = s.rc)))
    && (namesSt i || decide (t.st &&& protectedMask c.stLayout = s.st &&& protectedMask c.stLayout))
    && (decide (t.selbf = s.selbf) && decide (t.holes = s.holes) && decide (t.spaces = s.spaces))

/-- R72 for one decoded instruction. The semantic function sees the state without the host buffer, so that no access to register
address 13 while SELBF is 1 can have an effect (condition (3)).
DESIGN CHOICE, safe (log 35): where the form has no `SEM` and its S or D operand is one R37 refuses, the reason is `noSemantics`. R72 tests
for `SEM` right after `DECODE`; the pseudocode of R84, R97, R98 and R102 to R105 puts the operand refusals above its `SEM` line, and R136
orders no two reasons. -/
def runForm (c : Config) (m : Sem) (i : Instr) (s : State) : Res State :=
  match m.sem i.form with
  | none => .refused (.noSemantics i.form)
  | some f =>
    match checkOperand i s with
    | some r => .refused r
    | none =>
      andThen (f m.cond i s.hidden) fun t =>
        if frameKept c i s.hidden t then advance i s.pc (t.restored s) else .refused (.frame i.form)

/-- One step of the frame: fetch, decode, run (R72). -/
def frameStep (c : Config) (m : Sem) : State → Res State := fetchRun c (runForm c m)

/-- A semantic function of the chip: the condition first, where the instruction has one, then the free effect. -/
def chipFn (c : Config) (cond : CondFn) (i : Instr) (s : State) : Res State :=
  andThen
    (match condOperand i with
      | none => .next (none, s)
      | some k => mapRes (fun p => (some p.1, p.2)) (cond k s))
    fun p => applyEffect c i (Config.freeEffect i p.1 p.2.hidden) s p.2

/-- The chip's conditions and semantic functions, under a configuration, as a value of the parameters. -/
def chipSem (c : Config) : Sem where
  cond := fun k s => .next (evalCond c k s)
  sem := fun _ => some (chipFn c)

end Sys2Proof.Machine
end

