-- ==== Sys2Proof/Machine/Launch.lean ====
section
/-! DEFINITION. The launch state (spec/70_reset_and_hazards.md R148): reset fixes nothing, so a run starts from named premises. -/

namespace Sys2Proof.Machine

/-- The premises of R148 that are state: (1) the pc, (2) `PROG`, (3) `MEM_PRESENT`, (4) SELBF, (6) the values supplied; and the model's own
`spaces` (log 36). -/
structure Launch where
  resetPc : Word
  prog : List (Word × Word)
  holes : List Hole
  selbf : Bool
  spaces : OpenSpaces
  regs : List (RegAddr × Word)
  ptrs : List (Rij × Nat)
  data0 : List (Word × Word)
  data1 : List (Word × Word)
  deriving DecidableEq, Repr

/-- Words supplied, as a memory in its canonical form. -/
def supplied (words : List (Word × Word)) : Memory := words.foldl (fun m e => m.write e.1.toNat e.2) []

/-- The state a launch starts from: what it supplies, and everything else as after reset. -/
def Launch.state (l : Launch) : State :=
  let s : State :=
    { State.reset with
      selbf := l.selbf
      holes := l.holes
      spaces := l.spaces
      prog := supplied l.prog
      data0 := supplied l.data0
      data1 := supplied l.data1 }
  (l.ptrs.foldl (fun t e => t.setPtr e.1 e.2) (l.regs.foldl (fun t e => t.setReg e.1 e.2) s)).setPc l.resetPc

end Sys2Proof.Machine
end

