-- ==== Sys2Proof/Safety.lean ====
section
/-! DEFINITION. What counts as a run and a safe run (spec/70_reset_and_hazards.md R142, spec/60_exceptions.md R126, R136), and the invariant
of the state. -/

namespace Sys2Proof.Machine

/-- A run is over (R142): the pc is `END_PC`. The instruction there is not fetched. A convention of the model, not of the chip. -/
def State.over (endPc : Word) (s : State) : Bool := decide (s.pc = endPc)

/-- At most `n` steps, stopping where the run is over; a fault or a refusal ends it and is never final (R136). -/
def runUntil (endPc : Word) : Nat → State → Res State
  | 0, s => .next s
  | n + 1, s => if s.over endPc then .next s else
    match step s with
    | .next t => runUntil endPc n t
    | .fault e => .fault e
    | .refused e => .refused e

/-- The run ends at `END_PC` within `n` steps, with nothing faulted and nothing refused (R142). -/
def EndsAt (endPc : Word) (n : Nat) (s t : State) : Prop := runUntil endPc n s = .next t ∧ t.over endPc = true

/-- R126's variant: an interrupt request at an instruction boundary is refused. `step` itself is the step under the premise
`no_interrupt_asserted`. -/
def stepUnderRequest (requested : Bool) (s : State) : Res State :=
  if requested then .refused .interrupt else step s

/-- Every listed word of a data memory stands at a present address (R52). -/
def dataPresent (s : State) (sp : Space) : Bool :=
  (s.mem sp).all fun e => !s.holes.any fun h => h.covers sp e.1

/-- The invariant: the memories and the pointer file are in canonical form, every pointer register is one of `PTR_FILE`, and every
written data word stands at a present address. -/
def State.Inv (s : State) : Prop :=
  s.prog.wf = true ∧ s.data0.wf = true ∧ s.data1.wf = true ∧ s.ptr.wf Config.chip = true
    ∧ dataPresent s .data0 = true ∧ dataPresent s .data1 = true

/-- Every word of every memory is present and holds a value: the condition, on the state alone, under which no one-word access can stop
an instruction, whichever words it reads and stores. -/
def State.readable (s : State) : Prop := ∀ (sp : Space) (a : Word), ∃ v, memRead s sp a = .next v

/-- The address in the pointer is so far from both ends of a memory that no step of 15 bits, the most a one-word instruction could hold
beside its opcode (R68), leaves it: the condition, on the state alone, under which stepping the pointer cannot stop an instruction (R52). -/
def PointerInside (r : Rij) (s : State) : Prop :=
  0x4000 ≤ s.readPtr r % 65536 ∧ s.readPtr r % 65536 ≤ 0xC000

/-- SP is as far from both ends of a memory: neither CALL's move of it nor an address at a displacement from it leaves them. -/
def StackInside (s : State) : Prop := 0x4000 ≤ s.sp.toNat ∧ s.sp.toNat ≤ 0xC000

/-- The direct operand reaches no address past 0xFFFF from any base register: the condition, on the state and the operand alone, under which
forming its effective address cannot stop an instruction (D12). -/
def DirectInside (ram : DirectAddr) (s : State) : Prop := ∀ b, baseValue s.hidden b + ram.toNat < 65536

/-- Nothing the instruction can do to memory, to its pointer or to SP stops it at `s`. A double-word access is not looked at. -/
structure MemoryReady (i : Instr) (s : State) : Prop where
  readable : memOperand i ≠ .none → s.readable
  direct : ∀ ram, memOperand i = .direct ram → DirectInside ram s
  pointer : ∀ r, ptrOperand i = some r → PointerInside r s
  stack : memOperand i = .stack → StackInside s
  data : .prog ∉ memorySpaces i s

/-- What the frame of R72 promises of a next state `t` after the instruction `i` from `s`, the pc apart: `PROG`, the host buffer, SELBF,
`MEM_PRESENT` and the model's `spaces` are as before, RC too while SELBF is 1, the six ST fields that are no ALU flags too unless an operand names ST, and no
pointer register outside `PTR_FILE` appears. R72 promises nothing else of registers, pointer registers, data words or ALU flags. -/
def FrameHeld (i : Instr) (s t : State) : Prop :=
  (∀ a, t.word? .prog a = s.word? .prog a) ∧ t.bf = s.bf ∧ t.selbf = s.selbf ∧ t.holes = s.holes ∧ t.spaces = s.spaces
    ∧ (s.selbf = true → t.rc = s.rc)
    ∧ (namesSt i = false → ∀ f, isAluFlag f = false →
        readField Config.chip.stLayout f t.st = readField Config.chip.stLayout f s.st)
    ∧ ∀ r, r.wf Config.chip = false → t.readPtr r = s.readPtr r

/-- An "S" or "D" operand a form may name: any register but the PC, and address 13 only while SELBF is 0 (R37). -/
def OperandAllowed (a : RegAddr) (s : State) : Prop := a ≠ .pc ∧ (a = .bfRc → s.selbf = false)

/-- `s` has room for an instruction of `n` words: the pc after it is at most 0xFFFF (R24). -/
def RoomFor (n : Nat) (s : State) : Prop := s.pc.toNat + n < 65536

end Sys2Proof.Machine
end

