-- ==== Sys2Proof/Certificates/Slice0/Obligations.lean ====
section
/-! DEFINITION. The statements about the model, each from the rules of spec/ it names.
The chip's semantic functions, conditions, decoder, ST layout, double-word order and sizes are opaque: a statement about `exec` or
`step` holds whatever they are. A statement over `c : Config` or `m : Sem` holds for every value of the OPEN parameters (R9). -/

open Sys2Proof Sys2Proof.Machine

/-! ## State and reset -/

/-- The state after reset meets the invariant. Its values are the model's choice (log 4 to 8). -/
def Obligations.ResetMeetsInvariant : Prop := State.reset.Inv

/-- R148 (1) to (4), (6): a launch state has the pc, SELBF and `MEM_PRESENT` of the launch (and the model's `spaces`, log 36), canonical memories, in each memory word the
last value the launch supplies there and otherwise none, and in each register and pointer register the last value supplied and
otherwise 0 (the model's choice, log 4). -/
def Obligations.LaunchHoldsItsPremises : Prop :=
  ∀ l : Launch,
    l.state.pc = l.resetPc ∧ l.state.selbf = l.selbf ∧ l.state.holes = l.holes ∧ l.state.spaces = l.spaces
      ∧ l.state.prog.wf = true ∧ l.state.data0.wf = true ∧ l.state.data1.wf = true
      ∧ (∀ a, l.state.word? .prog a = l.prog.reverse.lookup a)
      ∧ (∀ a, l.state.word? .data0 a = l.data0.reverse.lookup a)
      ∧ (∀ a, l.state.word? .data1 a = l.data1.reverse.lookup a)
      ∧ (∀ a, a ≠ .pc → l.state.reg a = (l.regs.reverse.lookup a).getD 0)
      ∧ ∀ r, l.state.readPtr r = (l.ptrs.reverse.lookup r).getD 0

/-- R36 and R10: there are sixteen register addresses, 0 to 15, and every one stores 16 bits: what is written is what is read, whatever
the value, and nothing else changes: no other address, not the one of BF and RC that SELBF does not select, no pointer register, no
memory, not SELBF, not `MEM_PRESENT`, and nothing of the model's own. -/
def Obligations.RegisterStoresSixteenBits : Prop :=
  (∀ n < 16, ∃ a, regNumber a = n)
    ∧ ∀ (s : State) (a b : RegAddr) (v : Word),
      (s.setReg a v).reg a = v ∧ (b ≠ a → (s.setReg a v).reg b = s.reg b)
        ∧ (a ≠ .bfRc → (s.setReg a v).bf = s.bf ∧ (s.setReg a v).rc = s.rc)
        ∧ (s.selbf = true → (s.setReg a v).rc = s.rc) ∧ (s.selbf = false → (s.setReg a v).bf = s.bf)
        ∧ (s.setReg a v).ptr = s.ptr ∧ (∀ sp, (s.setReg a v).mem sp = s.mem sp)
        ∧ (s.setReg a v).selbf = s.selbf ∧ (s.setReg a v).holes = s.holes ∧ (s.setReg a v).spaces = s.spaces
        ∧ (s.setReg a v).freeCount = s.freeCount
        ∧ regOfNumber (regNumber a) = some a ∧ regNumber a < 16

/-- R32: the table of names; a name reaches its address and nothing else, and two names of one address are the same storage. -/
def Obligations.NamesOfOneAddressAreOneRegister : Prop :=
  (regNames.map fun n => regNumber (nameAddr n)) = [0, 0, 1, 1, 1, 2, 2, 3, 3, 4, 5, 6, 6, 7, 7, 8, 9, 10, 11, 12, 13, 13, 14, 15]
    ∧ (∀ n : RegName, n ∈ regNames) ∧ regNames.Nodup
    ∧ ∀ (s : State) (m n : RegName) (v : Word), m ≠ .BF → n ≠ .BF → (s.selbf = true → m ≠ .RC ∧ n ≠ .RC) →
        ∃ t, writeName s m v = .next t
          ∧ (nameAddr n = nameAddr m → readName t n = .next v)
          ∧ (nameAddr n ≠ nameAddr m → readName t n = readName s n)

/-- R26 and R28: address 13 is BF while SELBF is 1, and every access is refused; while it is 0 it is RC; the two are two registers; and no
instruction changes SELBF (D4). That the name BF is refused whatever SELBF is, at 0 too, is the model's deduction (log 19, DEDUCED),
which rests on R131, D19 and U11: every access to BF is refused. -/
def Obligations.AddressThirteenIsSelectedBySelbf : Prop :=
  ∀ (s : State) (v : Word),
    (s.selbf = true → s.reg .bfRc = s.bf ∧ (s.setReg .bfRc v).bf = v ∧ (s.setReg .bfRc v).rc = s.rc
        ∧ readReg s .bfRc = .refused .bfAccess ∧ writeReg s .bfRc v = .refused .bfAccess)
      ∧ (s.selbf = false → readReg s .bfRc = .next s.rc
          ∧ ∃ t, writeReg s .bfRc v = .next t ∧ t.rc = v ∧ t.bf = s.bf)
      ∧ readName s .BF = .refused .bfAccess ∧ writeName s .BF v = .refused .bfAccess
      ∧ ∀ (i : Instr) (t : State), exec i s = .next t → t.selbf = s.selbf

/-- R31: `ACC[n] = x[2n+1] : x[2n]`, four of them; writing one reads back and leaves the other accumulators alone. -/
def Obligations.AccumulatorIsHighOverLow : Prop :=
  ([Acc.acc0, .acc1, .acc2, .acc3].map fun n => (regNumber (accLow n), regNumber (accHigh n))) = [(0, 1), (2, 3), (4, 5), (6, 7)]
    ∧ ∀ (s : State) (n m : Acc) (v : DWord),
        (s.acc n).hi = s.reg (accHigh n) ∧ (s.acc n).lo = s.reg (accLow n)
          ∧ (s.setAcc n v).acc n = v ∧ (m ≠ n → (s.setAcc n v).acc m = s.acc m)

/-- The sub-fields of RC, TR and PM (R27, R29, R30): which bits of the register each one is. -/
def Obligations.SubfieldsAreTheNamedBits : Prop :=
  ∀ v : Word,
    (∀ k < 8, (rcN v).getLsbD k = v.getLsbD (k + 8)) ∧ (∀ k < 8, (rcM v).getLsbD k = v.getLsbD k)
      ∧ (∀ k < 6, (trCount v).getLsbD k = v.getLsbD k)
      ∧ (∀ k < 9, (pmModifier v).getLsbD k = v.getLsbD k) ∧ ∀ k < 7, (pmGuard v).getLsbD k = v.getLsbD (k + 9)

/-- R21: ST is at address 10 and has eleven fields; under every legal layout (R22) each bit of a field stands to the left of each bit
of a field named after it. -/
def Obligations.StatusFieldsStandInOrder : Prop :=
  regNumber .st = 10
    ∧ StField.all = [.n, .ov, .z, .cy, .rz, .op, .iex, .ie2, .ie1, .ie0, .prl] ∧ StField.all.map StField.rank = List.range 11
    ∧ ∀ (l : StLayout) (f g : StField), l.legal = true → f.rank < g.rank →
    ∀ k m, (rangeMask (l f)).getLsbD k = true → (rangeMask (l g)).getLsbD m = true → m < k

/-- R22: the chip's layout is legal, and no legal layout is excluded by the way it is made. -/
def Obligations.ChipLayoutIsLegal : Prop :=
  Config.chip.stLayout.legal = true ∧ ∀ l : StLayout, l.legal = true → l.legalised = l

/-- A field written under a legal layout reads back (as far as it is wide) and no other field changes. -/
def Obligations.StatusFieldWriteIsLocal : Prop :=
  ∀ (l : StLayout) (f g : StField) (st v : Word), l.legal = true →
    (∀ k, (readField l f (writeField l f st v)).getLsbD k = (decide (k ≤ (l f).hi - (l f).lo) && v.getLsbD k))
      ∧ (g ≠ f → readField l g (writeField l f st v) = readField l g st)

/-- A pointer register written in a canonical file reads back, every other one is unchanged (R33). -/
def Obligations.PointerWriteIsLocal : Prop :=
  ∀ (s : State) (r q : Rij) (v : Nat), s.ptr.canonical = true →
    (s.setPtr r v).readPtr q = if q = r then v else s.readPtr q

/-- R52, D12: a pointer of 16 bits or more whose address would step past 0xFFFF is refused address_wrap; else it steps to the sum. That a
step below 0 is refused too, and that the bits above the address stay, are the model's choice (log 13, 33). -/
def Obligations.PointerStepPastTheEndIsRefused : Prop :=
  ∀ (c : Config) (v : Nat) (d : Int), 16 ≤ c.ptrWidth →
    (65535 < (v % 65536 : Nat) + d → stepPtr c v d = .refused .addressWrap)
      ∧ ((v % 65536 : Nat) + d < 0 → stepPtr c v d = .refused .addressWrap)
      ∧ (0 ≤ (v % 65536 : Nat) + d → (v % 65536 : Nat) + d ≤ 65535 →
          ∃ w : Nat, stepPtr c v d = .next w ∧ (w : Int) = v + d ∧ w / 65536 = v / 65536)

/-- D12, R52: an effective address that would pass 0xFFFF is refused address_wrap. What is added to form one is the model's choice (log 33):
a base register to the direct operand of "RAM", a displacement to the pointer of "(Rij)" and "(Rij)p" and to the SP of CALL; and so is that
one below 0 is refused too. Then the access that asks for it stops the effect; where it is not refused, it is made at the sum. -/
def Obligations.EffectiveAddressPastTheEndIsRefused : Prop :=
  (∀ (i : Instr) (b : RegAddr) (d : ShortImm) (s : State),
    (∀ ram, memOperand i = .direct ram →
      (65535 < baseValue s b + ram.toNat → effAddr i b d s = .refused .addressWrap)
        ∧ (baseValue s b + ram.toNat ≤ 65535 → ∃ a : Word, effAddr i b d s = .next a ∧ a.toNat = baseValue s b + ram.toNat))
      ∧ ∀ base : Nat, (∃ r, (memOperand i = .pointer r ∨ memOperand i = .pointerP r) ∧ base = s.readPtr r % 65536)
            ∨ (memOperand i = .stack ∧ base = s.sp.toNat) →
          (65535 < base + d.toInt ∨ base + d.toInt < 0 → effAddr i b d s = .refused .addressWrap)
            ∧ (0 ≤ base + d.toInt → base + d.toInt ≤ 65535 →
                ∃ a : Word, effAddr i b d s = .next a ∧ (a.toNat : Int) = base + d.toInt))
    ∧ ∀ (c : Config) (i : Instr) (e : Effect) (base s : State) (x : Access) (b : RegAddr) (d : ShortImm) (rest : List Request),
        reaches i base x = true → e.accesses = ⟨x, some (b, d)⟩ :: rest →
        (effAddr i b d base.hidden = .refused .addressWrap → applyEffect c i e base s = .refused .addressWrap)
          ∧ ∀ a, effAddr i b d base.hidden = .next a → ∃ l, e.made i base = x.at a :: l

/-! ## Memory -/

/-- R59 (1) to (3): a word written is the word read; a write reaches one word of one space, a double-word write under a consecutive
order no other space; and a double word written and read back is the same for every `DW_ORDER`. -/
def Obligations.MemoryContract : Prop :=
  (∀ (s t : State) (sp : Space) (a v : Word), memWrite s sp a v = .next t →
      memRead t sp a = .next v ∧ ∀ q b, ¬(q = sp ∧ b = a) → t.word? q b = s.word? q b)
    ∧ ∀ (c : Config) (s t : State) (sp : Space) (a : Word) (v : DWord), memWriteDouble c s sp a v = .next t →
      memReadDouble c t sp a = .next v ∧ (c.dwOrder.consecutive = true → ∀ q b, q ≠ sp → t.word? q b = s.word? q b)

/-- R47: where the two words of a double word stand under each of the four orders: a double-word write seen by one-word reads, with no
other word changed, and one-word contents seen by a double-word read. -/
def Obligations.DoubleWordStandsWhereTheOrderPutsIt : Prop :=
  (∀ (c : Config) (s t : State) (sp : Space) (a : Word) (v : DWord), memWriteDouble c s sp a v = .next t →
    (c.dwOrder = .highFirst → memRead t sp a = .next v.hi ∧ memRead t sp (a + 1) = .next v.lo
        ∧ ∀ q b, ¬(q = sp ∧ (b = a ∨ b = a + 1)) → t.word? q b = s.word? q b)
      ∧ (c.dwOrder = .lowFirst → memRead t sp a = .next v.lo ∧ memRead t sp (a + 1) = .next v.hi
        ∧ ∀ q b, ¬(q = sp ∧ (b = a ∨ b = a + 1)) → t.word? q b = s.word? q b)
      ∧ (c.dwOrder = .splitD0High → memRead t .data0 a = .next v.hi ∧ memRead t .data1 a = .next v.lo
        ∧ ∀ q b, ¬(q ≠ .prog ∧ b = a) → t.word? q b = s.word? q b)
      ∧ (c.dwOrder = .splitD1High → memRead t .data1 a = .next v.hi ∧ memRead t .data0 a = .next v.lo
        ∧ ∀ q b, ¬(q ≠ .prog ∧ b = a) → t.word? q b = s.word? q b))
    ∧ ∀ (c : Config) (s : State) (sp : Space) (a : Word) (v : DWord), memReadDouble c s sp a = .next v →
      (c.dwOrder = .highFirst → memRead s sp a = .next v.hi ∧ memRead s sp (a + 1) = .next v.lo)
        ∧ (c.dwOrder = .lowFirst → memRead s sp a = .next v.lo ∧ memRead s sp (a + 1) = .next v.hi)
        ∧ (c.dwOrder = .splitD0High → memRead s .data0 a = .next v.hi ∧ memRead s .data1 a = .next v.lo)
        ∧ (c.dwOrder = .splitD1High → memRead s .data1 a = .next v.hi ∧ memRead s .data0 a = .next v.lo)

/-- R45 (a) to (d) and their order: program_write, dw_misaligned, address_wrap, stuck; otherwise the write happens. That a double-word
write with space `PROG` is refused program_write under the split orders too, where R47 says the space argument is unused, is the model's
reading (log 16, DEDUCED). -/
def Obligations.SideConditionsInOrder : Prop :=
  ∀ (c : Config) (s : State) (sp : Space) (a w : Word) (v : DWord),
    memWrite s .prog a w = .refused .programWrite ∧ memWriteDouble c s .prog a v = .refused .programWrite
      ∧ (sp ≠ .prog → s.present sp a = false → memWrite s sp a w = .fault .stuck)
      ∧ (sp ≠ .prog → s.present sp a = true → memWrite s sp a w = .next (s.setWord sp a w))
      ∧ (s.present sp a = false → memRead s sp a = .fault .stuck)
      ∧ (sp ≠ .prog → c.dwOrder.consecutive = true → c.dwAlign = .evenOnly → a.toNat % 2 = 1 →
          memWriteDouble c s sp a v = .refused .dwMisaligned)
      ∧ (sp ≠ .prog → c.dwOrder.consecutive = true → c.dwAlign = .any → a = 0xFFFF →
          memWriteDouble c s sp a v = .refused .addressWrap)
      ∧ (c.dwOrder.consecutive = true → c.dwAlign = .evenOnly → a.toNat % 2 = 1 →
          memReadDouble c s sp a = .refused .dwMisaligned)
      ∧ (c.dwOrder.consecutive = true → c.dwAlign = .any → a = 0xFFFF → memReadDouble c s sp a = .refused .addressWrap)

/-- R52, R45 (a), R35: a double-word access that alignment and wrap allow (an even address, or under `any` an odd one below 0xFFFF; every
address under a split order) is stuck with either half outside `MEM_PRESENT`. With both present a write happens, a read of halves one of
which holds no value faults, and a read of two values returns them. -/
def Obligations.DoubleWordNeedsBothHalvesPresent : Prop :=
  ∀ (c : Config) (s : State) (sp : Space) (a : Word) (v : DWord),
    (c.dwOrder.consecutive = true → a.toNat % 2 = 0 ∨ (c.dwAlign = .any ∧ a ≠ 0xFFFF)) →
    ((s.present (place c.dwOrder sp a).1.1 (place c.dwOrder sp a).1.2 = false
        ∨ s.present (place c.dwOrder sp a).2.1 (place c.dwOrder sp a).2.2 = false) →
      memReadDouble c s sp a = .fault .stuck ∧ (sp ≠ .prog → memWriteDouble c s sp a v = .fault .stuck))
    ∧ (s.present (place c.dwOrder sp a).1.1 (place c.dwOrder sp a).1.2 = true →
        s.present (place c.dwOrder sp a).2.1 (place c.dwOrder sp a).2.2 = true →
        (sp ≠ .prog → ∃ t, memWriteDouble c s sp a v = .next t)
          ∧ ((s.word? (place c.dwOrder sp a).1.1 (place c.dwOrder sp a).1.2 = none
                ∨ s.word? (place c.dwOrder sp a).2.1 (place c.dwOrder sp a).2.2 = none) →
              memReadDouble c s sp a = .fault .readOfUnwritten)
          ∧ ∀ hi lo, s.word? (place c.dwOrder sp a).1.1 (place c.dwOrder sp a).1.2 = some hi →
              s.word? (place c.dwOrder sp a).2.1 (place c.dwOrder sp a).2.2 = some lo →
              memReadDouble c s sp a = .next (DWord.make hi lo))

/-- R46: a one-word access is never refused for alignment, at any address; under a split order a double-word access is not either. -/
def Obligations.OneWordIsAlwaysAligned : Prop :=
  (∀ (s : State) (sp : Space) (a : Word) (r : Refusal), memRead s sp a ≠ .refused r)
    ∧ (∀ (s : State) (sp : Space) (a v : Word) (r : Refusal), memWrite s sp a v = .refused r → r = .programWrite)
    ∧ ∀ (c : Config) (s : State) (sp : Space) (a : Word) (r : Refusal), c.dwOrder.consecutive = false →
        memReadDouble c s sp a ≠ .refused r

/-! ## Instructions: where they complete, and their frame -/

/-- The ALU forms complete, without ",w", wherever the pc does not wrap and the operand is allowed; the two with a memory operand want every
memory word readable and their effective address inside the memory (D12), and ADSI wants its pointer so (log 33). The next pc is a + W, and
the frame holds. The forms with ",w" are in `DoubleWordFormsCompleteOrAreRefused`, and every other operand in
`EveryFormCompletesOrIsRefused`. -/
def Obligations.AluFormsComplete : Prop :=
  ∀ (s : State) (op : AluOp) (ad src : Acc) (r : Rij) (sr : RegAddr) (ram : DirectAddr) (imm : ShortImm) (w1 : Word) (w : Bool),
    RoomFor 1 s →
    (PointerInside r s → ∃ t, exec (.adsi r imm) s = .next t ∧ t.pc = s.pc + 1 ∧ FrameHeld (.adsi r imm) s t)
      ∧ (s.readable → DirectInside ram s →
          ∃ t, exec (.aopARam op ram false) s = .next t ∧ t.pc = s.pc + 1 ∧ FrameHeld (.aopARam op ram false) s t)
      ∧ (s.readable → PointerInside r s →
          ∃ t, exec (.aopInd op ad src r false) s = .next t ∧ t.pc = s.pc + 1 ∧ FrameHeld (.aopInd op ad src r false) s t)
      ∧ (∃ t, exec (.aopPtr op ad src r) s = .next t ∧ t.pc = s.pc + 1 ∧ FrameHeld (.aopPtr op ad src r) s t)
      ∧ (OperandAllowed sr s →
          ∃ t, exec (.aopReg op ad src sr w) s = .next t ∧ t.pc = s.pc + 1 ∧ FrameHeld (.aopReg op ad src sr w) s t)
      ∧ (RoomFor 2 s →
          ∃ t, exec (.aopi op ad src w1) s = .next t ∧ t.pc = s.pc + 2 ∧ FrameHeld (.aopi op ad src w1) s t)
      ∧ ∃ t, exec (.aopsi op src imm) s = .next t ∧ t.pc = s.pc + 1 ∧ FrameHeld (.aopsi op src imm) s t

/-- BRA completes at every state, CALL wherever every memory word is readable, SP stands inside (log 33) and the stack is in a data memory
(U21, log 36), both at every pc; the frame holds, and the next pc is the one their semantic function answers. CALL elsewhere is in
`EveryFormCompletesOrIsRefused`. -/
def Obligations.TransferFormsComplete : Prop :=
  ∀ (s : State) (k : Cond) (w1 : Word),
    (∃ t, exec (.bra k w1) s = .next t ∧ t.pc = (semEffect Config.chip (.bra k w1) s).reg .pc ∧ FrameHeld (.bra k w1) s t)
      ∧ (s.readable → StackInside s → s.spaces.stack = false →
          ∃ t, exec (.call k w1) s = .next t ∧ t.pc = (semEffect Config.chip (.call k w1) s).reg .pc ∧ FrameHeld (.call k w1) s t)

/-- The INC and DEC forms complete wherever the pc does not wrap and the operand is allowed, whatever the condition is and with or without
one; the two with a memory operand want every memory word readable and the pointer inside (log 33). -/
def Obligations.IncDecFormsComplete : Prop :=
  ∀ (s : State) (r : Rij) (sr : RegAddr) (k : Cond) (ko : Option Cond), RoomFor 1 s →
    (s.readable → PointerInside r s →
        (∃ t, exec (.incInd r ko) s = .next t ∧ t.pc = s.pc + 1 ∧ FrameHeld (.incInd r ko) s t)
          ∧ ∃ t, exec (.decInd r k) s = .next t ∧ t.pc = s.pc + 1 ∧ FrameHeld (.decInd r k) s t)
      ∧ (OperandAllowed sr s →
          (∃ t, exec (.incReg sr ko) s = .next t ∧ t.pc = s.pc + 1 ∧ FrameHeld (.incReg sr ko) s t)
            ∧ ∃ t, exec (.decReg sr k) s = .next t ∧ t.pc = s.pc + 1 ∧ FrameHeld (.decReg sr k) s t)

/-- The LD forms complete, without ",w", wherever the operand is allowed, every memory word is readable, the pc does not wrap and the
effective address stays inside the memory (D12; log 33); the two with "(Rij)p" where that is in a data memory (R104, R105, log 36). The forms
with ",w" are in `DoubleWordFormsCompleteOrAreRefused`, and every other operand in `EveryFormCompletesOrIsRefused`. -/
def Obligations.LoadStoreFormsComplete : Prop :=
  ∀ (s : State) (r : Rij) (a : RegAddr) (ram : DirectAddr), s.readable → RoomFor 1 s →
    (DirectInside ram s →
        (∃ t, exec (.ldARam ram false) s = .next t ∧ t.pc = s.pc + 1 ∧ FrameHeld (.ldARam ram false) s t)
          ∧ ∃ t, exec (.ldRamA ram false) s = .next t ∧ t.pc = s.pc + 1 ∧ FrameHeld (.ldRamA ram false) s t)
      ∧ (OperandAllowed a s → PointerInside r s →
          (∃ t, exec (.ldDInd a r false) s = .next t ∧ t.pc = s.pc + 1 ∧ FrameHeld (.ldDInd a r false) s t)
            ∧ (∃ t, exec (.ldIndS r a false) s = .next t ∧ t.pc = s.pc + 1 ∧ FrameHeld (.ldIndS r a false) s t)
            ∧ (s.spaces.indp = false →
              (∃ t, exec (.ldDIndp a r) s = .next t ∧ t.pc = s.pc + 1 ∧ FrameHeld (.ldDIndp a r) s t)
                ∧ ∃ t, exec (.ldIndpS r a) s = .next t ∧ t.pc = s.pc + 1 ∧ FrameHeld (.ldIndpS r a) s t))

/-- Every form on every operand, where the operand is allowed, the pc does not wrap and every memory word is readable: it completes, or it is
refused because a pointer, SP or an effective address passes the end of a memory (D12; log 33), because it stores to `PROG` (R56, R105) through
an operand that may lie there (log 36), or for the alignment of a double word under ",w" (R46; log 29). -/
def Obligations.EveryFormCompletesOrIsRefused : Prop :=
  ∀ (i : Instr) (s : State), checkOperand i s = none → isTransfer i = true ∨ RoomFor i.words s → s.readable →
    (∃ t, exec i s = .next t ∧ FrameHeld i s t
        ∧ t.pc = if isTransfer i then (semEffect Config.chip i s).reg .pc else s.pc + BitVec.ofNat 16 i.words)
      ∨ (exec i s = .refused .addressWrap ∧ (memOperand i ≠ .none ∨ i.form = .ADSI))
      ∨ (exec i s = .refused .programWrite ∧ .prog ∈ memorySpaces i s)
      ∨ (exec i s = .refused .dwMisaligned ∧ takesDouble i = true)

/-- R56, R105, D18: a store that the semantic function of "LD (Rij)p,S", "LD D,(Rij)p" or CALL makes to `PROG`, where that operand may lie there
(log 36), refuses the instruction program_write, unless its effective address is refused first (log 33). Where the operand lies in a data
memory, no access of it is in `PROG`. -/
def Obligations.StoreToProgramMemoryIsRefused : Prop :=
  ∀ (c : Config) (i : Instr) (e : Effect) (base s : State) (a v : Word) (x : Option (RegAddr × ShortImm)) (rest : List Request),
    i.form ∈ [Form.LD_D_INDP, .LD_INDP_S, .CALL] →
    ((if i.form = .CALL then base.spaces.stack else base.spaces.indp) = true → e.accesses = ⟨.store .prog a v, x⟩ :: rest →
        applyEffect c i e base s = .refused .programWrite
          ∨ (applyEffect c i e base s = .refused .addressWrap
              ∧ ∃ b d, x = some (b, d) ∧ effAddr i b d base.hidden = .refused .addressWrap))
      ∧ ((if i.form = .CALL then base.spaces.stack else base.spaces.indp) = false →
          Access.store .prog a v ∉ e.made i base ∧ Access.read .prog a ∉ e.made i base)

/-- The six memory forms with ",w": where nothing but a double word can stop them, they complete as without it or are refused for
alignment (R46; the chip's `DW_ALIGN` is even_only, log 15). Under a split order, where alignment does not apply, they complete; under any
other they complete or are refused dw_misaligned or address_wrap. That only these forms access double words is log 29, and what keeps their
effective address inside the memory log 33. -/
def Obligations.DoubleWordFormsCompleteOrAreRefused : Prop :=
  ∀ (i : Instr) (s : State), takesDouble i = true → checkOperand i s = none → MemoryReady i s → RoomFor 1 s →
    ((∃ t, exec i s = .next t ∧ t.pc = s.pc + 1 ∧ FrameHeld i s t) ∨ exec i s = .refused .dwMisaligned)
      ∧ ∀ c : Config, 16 ≤ c.ptrWidth →
        (c.dwOrder.consecutive = false → ∃ t, run c i s = .next t ∧ t.pc = s.pc + 1)
          ∧ ((∃ t, run c i s = .next t ∧ t.pc = s.pc + 1) ∨ run c i s = .refused .dwMisaligned
              ∨ (c.dwAlign = .any ∧ run c i s = .refused .addressWrap))

/-- The words of the three memories after an instruction: a word that the accesses its semantic function makes store to holds the last
value stored there, a double word standing where `DW_ORDER` puts it, and every other word of every space is as before. That a condition
stores nothing is log 11, and what accesses a form makes is log 29. -/
def Obligations.OnlyStoredWordsChange : Prop :=
  ∀ (i : Instr) (s t : State) (sp : Space) (a : Word), exec i s = .next t →
    t.word? sp a = (lastStore (storesOf Config.chip ((semEffect Config.chip i s).made i s)) sp a).or (s.word? sp a)

/-- R51: an access that an instruction makes is one of a form with a memory operand or of CALL, and it is in a data memory, but for the forms
whose space the sources do not identify. That CALL is among the forms that access memory, that a double word is accessed only under ",w"
(which R48 gives as a name reading and R95 leaves open), is the model's choice (log 29), and so is when those forms reach `PROG` (log 36). -/
def Obligations.AccessesStayInTheirFormsSpaces : Prop :=
  ∀ (e : Effect) (i : Instr) (s : State) (sp : Space) (a v : Word) (d : DWord),
    (e.made i s ≠ [] →
        i.form ∈ [Form.AOP_A_RAM, .AOP_IND, .INC_IND, .DEC_IND, .LD_A_RAM, .LD_RAM_A, .LD_D_IND, .LD_IND_S, .LD_D_INDP, .LD_INDP_S, .CALL])
      ∧ (Access.read sp a ∈ e.made i s ∨ Access.store sp a v ∈ e.made i s → sp = .prog →
          (i.form ∈ [Form.LD_D_INDP, .LD_INDP_S] ∧ s.spaces.indp = true) ∨ (i.form = .CALL ∧ s.spaces.stack = true))
      ∧ (Access.readDouble sp a ∈ e.made i s ∨ Access.storeDouble sp a d ∈ e.made i s → sp ≠ .prog ∧ takesDouble i = true)
      ∧ (takesDouble i = true → i.form ∈ [Form.AOP_A_RAM, .AOP_IND, .LD_A_RAM, .LD_RAM_A, .LD_D_IND, .LD_IND_S])

/-- The eight forms whose outcome lists (R80, R83 to R86, R90, R97, R98) have no memory case, CALL (R91, U21) left out: they never fault, are
refused only for their operand, their next pc or (ADSI) the step of its pointer, and leave all three memories as they are. All of it is the
model's choice: those lists name fault(read_of_unwritten) and R72 promises nothing of memory words, but no register read faults here (log 9),
these forms make no access (log 29), nor does a condition (log 11), and which pointer steps is log 33. -/
def Obligations.FormsWithoutAMemoryOperandTouchNone : Prop :=
  ∀ (i : Instr) (s t : State),
    i.form ∈ [Form.ADSI, .AOP_PTR, .AOP_REG, .AOPI, .AOPSI, .BRA, .INC_REG, .DEC_REG] →
    (∀ f, exec i s ≠ .fault f) ∧ (∀ e, exec i s = .refused e → e ∈ [Refusal.pcWrap, .pcOperand, .bfAccess] ∨ (e = .addressWrap ∧ i.form = .ADSI))
      ∧ (exec i s = .next t → ∀ sp, t.mem sp = s.mem sp)

/-- R80 to R86: an ALU form is its semantic function, applied inside the frame to the state it sees, then the pc at a + W. That it is stopped
where one of its memory accesses or the step of its pointer is, and which of them it makes, is the model's choice (log 10, 29, 33). -/
def Obligations.AluFormsAreTheirSemanticFunction : Prop :=
  ∀ (s : State) (op : AluOp) (ad src : Acc) (r : Rij) (sr : RegAddr) (ram : DirectAddr) (imm : ShortImm) (w1 : Word) (w : Bool),
    RoomFor 1 s →
    exec (.adsi r imm) s
        = mapRes (fun t => t.setPc (s.pc + 1))
            (applyEffect Config.chip (.adsi r imm) (Config.freeEffect (.adsi r imm) none s.hidden) s s)
      ∧ exec (.aopARam op ram w) s
        = mapRes (fun t => t.setPc (s.pc + 1))
            (applyEffect Config.chip (.aopARam op ram w) (Config.freeEffect (.aopARam op ram w) none s.hidden) s s)
      ∧ exec (.aopInd op ad src r w) s
        = mapRes (fun t => t.setPc (s.pc + 1))
            (applyEffect Config.chip (.aopInd op ad src r w) (Config.freeEffect (.aopInd op ad src r w) none s.hidden) s s)
      ∧ exec (.aopPtr op ad src r) s
        = mapRes (fun t => t.setPc (s.pc + 1))
            (applyEffect Config.chip (.aopPtr op ad src r) (Config.freeEffect (.aopPtr op ad src r) none s.hidden) s s)
      ∧ (OperandAllowed sr s → exec (.aopReg op ad src sr w) s
        = mapRes (fun t => t.setPc (s.pc + 1))
            (applyEffect Config.chip (.aopReg op ad src sr w) (Config.freeEffect (.aopReg op ad src sr w) none s.hidden) s s))
      ∧ (RoomFor 2 s → exec (.aopi op ad src w1) s
        = mapRes (fun t => t.setPc (s.pc + 2))
            (applyEffect Config.chip (.aopi op ad src w1) (Config.freeEffect (.aopi op ad src w1) none s.hidden) s s))
      ∧ exec (.aopsi op src imm) s
        = mapRes (fun t => t.setPc (s.pc + 1))
            (applyEffect Config.chip (.aopsi op src imm) (Config.freeEffect (.aopsi op src imm) none s.hidden) s s)

/-- Every form with a condition: the condition is evaluated once, its truth value and the state it leaves (R92) go to the semantic function,
and without one the semantic function sees the state itself. That the evaluation comes first, and that it makes no memory access, is the
model's choice (log 11). -/
def Obligations.ConditionIsEvaluatedOnce : Prop :=
  ∀ (s u : State) (r : Rij) (sr : RegAddr) (k : Cond) (w1 : Word) (b : Bool), b = (Config.freeCond k s.hidden).1 →
    u = settle Config.chip false false (Config.freeCond k s.hidden).2 s.ptr s →
    exec (.bra k w1) s = applyEffect Config.chip (.bra k w1) (Config.freeEffect (.bra k w1) (some b) u.hidden) s u
      ∧ exec (.call k w1) s = applyEffect Config.chip (.call k w1) (Config.freeEffect (.call k w1) (some b) u.hidden) s u
      ∧ (RoomFor 1 s →
        exec (.incInd r (some k)) s
            = mapRes (fun t => t.setPc (s.pc + 1))
                (applyEffect Config.chip (.incInd r (some k)) (Config.freeEffect (.incInd r (some k)) (some b) u.hidden) s u)
          ∧ exec (.decInd r k) s
            = mapRes (fun t => t.setPc (s.pc + 1))
                (applyEffect Config.chip (.decInd r k) (Config.freeEffect (.decInd r k) (some b) u.hidden) s u)
          ∧ exec (.incInd r none) s
            = mapRes (fun t => t.setPc (s.pc + 1))
                (applyEffect Config.chip (.incInd r none) (Config.freeEffect (.incInd r none) none s.hidden) s s)
          ∧ (OperandAllowed sr s →
            exec (.incReg sr (some k)) s
            = mapRes (fun t => t.setPc (s.pc + 1))
                (applyEffect Config.chip (.incReg sr (some k)) (Config.freeEffect (.incReg sr (some k)) (some b) u.hidden) s u)
              ∧ exec (.decReg sr k) s
            = mapRes (fun t => t.setPc (s.pc + 1))
                (applyEffect Config.chip (.decReg sr k) (Config.freeEffect (.decReg sr k) (some b) u.hidden) s u)
              ∧ exec (.incReg sr none) s
            = mapRes (fun t => t.setPc (s.pc + 1))
                (applyEffect Config.chip (.incReg sr none) (Config.freeEffect (.incReg sr none) none s.hidden) s s)))

/-- R35, R45, R52, R53: the accesses of an effect are made in order, each on the memory the ones before it left: a read or a store outside
`MEM_PRESENT` is stuck, a read of a word that holds no value faults, a store to `PROG` is refused, and so is a double word at an odd
address under even_only, or at 0xFFFF under `any`, where its order is consecutive. -/
def Obligations.AccessesStopInOrder : Prop :=
  ∀ (c : Config) (before after : List Access) (s t : State) (sp : Space) (a v : Word) (d : DWord), runAccesses c before s = .next t →
    (s.present sp a = false → runAccesses c (before ++ .read sp a :: after) s = .fault .stuck)
      ∧ (s.present sp a = true → lastStore (storesOf c before) sp a = none → s.word? sp a = none →
          runAccesses c (before ++ .read sp a :: after) s = .fault .readOfUnwritten)
      ∧ (sp ≠ .prog → s.present sp a = false → runAccesses c (before ++ .store sp a v :: after) s = .fault .stuck)
      ∧ runAccesses c (before ++ .store .prog a v :: after) s = .refused .programWrite
      ∧ (c.dwOrder.consecutive = true → c.dwAlign = .evenOnly → a.toNat % 2 = 1 →
          runAccesses c (before ++ .readDouble sp a :: after) s = .refused .dwMisaligned
            ∧ (sp ≠ .prog → runAccesses c (before ++ .storeDouble sp a d :: after) s = .refused .dwMisaligned))
      ∧ (c.dwOrder.consecutive = true → c.dwAlign = .any → a = 0xFFFF →
          runAccesses c (before ++ .readDouble sp a :: after) s = .refused .addressWrap
            ∧ (sp ≠ .prog → runAccesses c (before ++ .storeDouble sp a d :: after) s = .refused .addressWrap))

/-- An instruction whose operand is allowed and whose next pc does not wrap stops exactly where the accesses its semantic function makes
stop, for the same reason, or, these done, where the step of its pointer or of SP would pass the end of a memory. What accesses and step a form
makes is the model's choice (log 10, 29, 33), and so is that its condition makes none (log 11). -/
def Obligations.InstructionFaultsExactlyAtAnAccess : Prop :=
  ∀ (i : Instr) (s : State) (e : Effect) (l : List Access), checkOperand i s = none → isTransfer i = true ∨ RoomFor i.words s →
    e = semEffect Config.chip i s → l = e.made i s →
    (∀ f, exec i s = .fault f ↔ runAccesses Config.chip l (evalOperand Config.chip i s).2 = .fault f)
      ∧ ∀ r, exec i s = .refused r ↔
          (runAccesses Config.chip l (evalOperand Config.chip i s).2 = .refused r
            ∨ (r = .addressWrap ∧ (∃ u, runAccesses Config.chip l (evalOperand Config.chip i s).2 = .next u)
                ∧ ((∃ x d, e.stepOf Config.chip i = some (x, d) ∧ stepPtr Config.chip (s.readPtr x) d.toInt = .refused .addressWrap)
                  ∨ ∃ d, e.spStepOf i = some d ∧ addressSum (s.sp.toNat + d.toInt) = .refused .addressWrap)))

/-- After any instruction every register holds what its semantic function answers for it, inside the frame of R72: BF, and RC while SELBF is
1, stay; the pc is a + W but for BRA and CALL; of ST, the five ALU flags are the semantic function's and the six other fields only where
an operand names ST; the pointer registers are those written, in order, on top of the step; and SP is stepped where CALL's effect steps it.
That the semantic function sees the state the condition left, and that pointer and SP step from the values they held before, is the model's
choice (log 11, 33). -/
def Obligations.RegistersHoldWhatTheSemanticFunctionAnswers : Prop :=
  ∀ (i : Instr) (s t : State) (e : Effect), e = semEffect Config.chip i s → exec i s = .next t →
    (∀ a, a ≠ .st → a ≠ .pc → a ≠ .bfRc → (a = .sp → e.spStepOf i = none) → t.reg a = e.reg a)
      ∧ (∀ d, e.spStepOf i = some d → (t.sp.toNat : Int) = s.sp.toNat + d.toInt)
      ∧ (s.selbf = false → t.rc = e.reg .bfRc) ∧ (s.selbf = true → t.rc = s.rc) ∧ t.bf = s.bf
      ∧ t.pc = (if isTransfer i then e.reg .pc else s.pc + BitVec.ofNat 16 i.words)
      ∧ (regOperand i = some .st → t.st = e.reg .st)
      ∧ (∀ f ∈ [StField.n, .ov, .z, .cy, .rz],
          readField Config.chip.stLayout f t.st = readField Config.chip.stLayout f (e.reg .st))
      ∧ (regOperand i ≠ some .st → ∀ f ∈ [StField.op, .iex, .ie2, .ie1, .ie0, .prl],
          readField Config.chip.stLayout f t.st = readField Config.chip.stLayout f s.st)
      ∧ ∃ q, stepFile Config.chip (e.stepOf Config.chip i) s.ptr (evalOperand Config.chip i s).2.ptr = .next q
          ∧ t.ptr = applyPtrs Config.chip e.ptr q

/-! ## Instructions: operand refusals, the pc, what stays as it is -/

/-- R37: an "S" or "D" operand that names the PC is refused, and one that names address 13 while SELBF is 1. -/
def Obligations.ForbiddenOperandsAreRefused : Prop :=
  ∀ (s : State) (op : AluOp) (ad src : Acc) (r : Rij) (k : Cond) (ko : Option Cond) (w : Bool) (a : RegAddr) (e : Refusal),
    (a = .pc ∧ e = .pcOperand) ∨ (a = .bfRc ∧ s.selbf = true ∧ e = .bfAccess) →
    exec (.aopReg op ad src a w) s = .refused e ∧ exec (.incReg a ko) s = .refused e ∧ exec (.decReg a k) s = .refused e
      ∧ exec (.ldDInd a r w) s = .refused e ∧ exec (.ldIndS r a w) s = .refused e
      ∧ exec (.ldDIndp a r) s = .refused e ∧ exec (.ldIndpS r a) s = .refused e

/-- R93: seventeen forms set the pc to a + W, W being 2 for AopI and 1 for the rest; BRA and CALL set it to what their semantic function
answers; an operand that names the PC is refused. -/
def Obligations.PcMovesAsTheFormSays : Prop :=
  ∀ (i : Instr) (s t : State), exec i s = .next t →
    (isTransfer i = false → t.pc.toNat = s.pc.toNat + i.words ∧ i.words = if i.form = .AOPI then 2 else 1)
      ∧ (isTransfer i = true → (i.form = .BRA ∨ i.form = .CALL)
          ∧ t.pc = (semEffect Config.chip i s).reg .pc)
      ∧ regOperand i ≠ some .pc

/-- R24: where a + W passes 0xFFFF, a form that does not transfer control is refused, not wrapped. Where nothing it can do in memory stops
it, the refusal is pc_wrap, or under ",w" the one for alignment. The second clause is the model's choice in part: that only a form with
",w" accesses a double word is log 29 (R95 leaves "INC (Rij)" open); its alignment rule, which refuses every odd address, is log 15; what
`MemoryReady` asks of steps, sums and the spaces of "(Rij)p" and of the stack is log 33 and log 36; and that the effect comes first and
the carry is seen after it is R72's order (log 17). -/
def Obligations.CarryOutOfThePcIsRefused : Prop :=
  ∀ (i : Instr) (s : State), isTransfer i = false → 65536 ≤ s.pc.toNat + i.words →
    (∀ t, exec i s ≠ .next t)
      ∧ (checkOperand i s = none → MemoryReady i s →
          (takesDouble i = false → exec i s = .refused .pcWrap)
            ∧ (exec i s = .refused .pcWrap ∨ exec i s = .refused .dwMisaligned))

/-- R23, R72 (4): unless an operand names ST, no instruction changes OP, IEx, IE2, IE1, IE0 or PRL. -/
def Obligations.OnlyAluFlagsChange : Prop :=
  ∀ (i : Instr) (s t : State), exec i s = .next t → regOperand i ≠ some .st → ∀ f ∈ [StField.op, .iex, .ie2, .ie1, .ie0, .prl],
    readField Config.chip.stLayout f t.st = readField Config.chip.stLayout f s.st

/-- R56: `PROG` is constant for a whole run, and a write to it is refused. (A double-word write with space `PROG` under a split order is in
`SideConditionsInOrder`.) -/
def Obligations.ProgramMemoryIsConstant : Prop :=
  (∀ (n : Nat) (endPc : Word) (s t : State), runUntil endPc n s = .next t → t.prog = s.prog)
    ∧ (∀ (i : Instr) (s t : State), exec i s = .next t → t.prog = s.prog)
    ∧ (∀ (s : State) (a v : Word), memWrite s .prog a v = .refused .programWrite)
    ∧ ∀ (c : Config) (s : State) (a : Word) (v : DWord), c.dwOrder.consecutive = true →
        memWriteDouble c s .prog a v = .refused .programWrite

/-- D4, D12, D19: over a whole run SELBF, `MEM_PRESENT` and BF stay as the launch left them, and RC too while SELBF is 1; and the
model's `spaces` (log 36). -/
def Obligations.LaunchPremisesStay : Prop :=
  ∀ (n : Nat) (endPc : Word) (s t : State), runUntil endPc n s = .next t →
    t.selbf = s.selbf ∧ t.holes = s.holes ∧ t.spaces = s.spaces ∧ t.bf = s.bf ∧ (s.selbf = true → t.rc = s.rc)

/-- The host buffer is never learned: a step from a state with another BF ends the same way, with that BF (R26, R131). -/
def Obligations.HostBufferIsNeverLearned : Prop :=
  ∀ (s : State) (v : Word), step (s.withBf v) = mapRes (fun t => t.withBf v) (step s)

/-- From every state that meets the invariant a step that answers a next state gives one that meets it, with the chip's decoder and
with any other. -/
def Obligations.StepKeepsInvariant : Prop :=
  (∀ s t : State, s.Inv → step s = .next t → t.Inv)
    ∧ ∀ (c : Config) (s t : State), s.Inv → fetchRun c exec s = .next t → t.Inv

/-- The whole list of reasons an instruction or a step of the chip stops for: no other fault or refusal arises, and each form has its own
reasons. It is shorter than R136's: no_semantics and frame never arise because the chip's semantic functions are all supplied and keep the
frame (log 2, 3). Which form has which reason is the model's choice: a form that accesses no memory never faults, because no register or
pointer read does (log 9, against R136 and V6.1) and neither it nor its condition makes an access (log 29, 11); dw_misaligned arises only
under ",w" (log 29), program_write only where a store of the form can reach `PROG` (log 36), address_wrap only where a form has a memory
operand or steps a pointer (log 33). -/
def Obligations.StopsAreTheClosedList : Prop :=
  (∀ (i : Instr) (s : State) (e : Fault), exec i s = .fault e → (e = .stuck ∨ e = .readOfUnwritten) ∧ memOperand i ≠ .none)
    ∧ (∀ (i : Instr) (s : State) (e : Refusal), exec i s = .refused e →
        (e = .pcWrap ∧ isTransfer i = false) ∨ (e ∈ [Refusal.pcOperand, .bfAccess] ∧ regOperand i ≠ none)
          ∨ (e = .dwMisaligned ∧ takesDouble i = true) ∨ (e = .programWrite ∧ .prog ∈ memorySpaces i s)
          ∨ (e = .addressWrap ∧ (memOperand i ≠ .none ∨ i.form = .ADSI)))
    ∧ (∀ (s : State) (e : Fault), step s = .fault e → e = .stuck ∨ e = .readOfUnwritten)
    ∧ ∀ (s : State) (e : Refusal), step s = .refused e →
        e ∈ [Refusal.undecoded, .customInstruction, .unlistedInstruction, .pcWrap, .pcOperand, .bfAccess, .dwMisaligned, .programWrite,
          .addressWrap]

/-! ## The frame for every value of the parameters -/

/-- The chip's instructions and steps are the frame of R72 at the chip's own parameters, and so are they under every configuration: its
semantic functions never break it (log 3). -/
def Obligations.ExecIsTheFrameAtTheChip : Prop :=
  (∀ (i : Instr) (s : State), exec i s = runForm Config.chip (chipSem Config.chip) i s)
    ∧ (∀ s : State, step s = frameStep Config.chip (chipSem Config.chip) s)
    ∧ ∀ (c : Config) (i : Instr) (s : State), run c i s = runForm c (chipSem c) i s

/-- R72 (1) to (4) for every configuration, every conditions and every semantic functions: what a next state keeps. -/
def Obligations.FrameHoldsForEveryInstantiation : Prop :=
  ∀ (c : Config) (m : Sem) (i : Instr) (s t : State), runForm c m i s = .next t →
    t.prog = s.prog ∧ (isTransfer i = false → t.pc.toNat = s.pc.toNat + i.words)
      ∧ t.bf = s.bf ∧ t.selbf = s.selbf ∧ t.holes = s.holes ∧ t.spaces = s.spaces ∧ (s.selbf = true → t.rc = s.rc)
      ∧ (regOperand i ≠ some .st → ∀ f, isAluFlag f = false → readField c.stLayout f t.st = readField c.stLayout f s.st)

/-- No semantic function of any chip learns BF: the frame's outcome for a state with another BF is the same, with that BF. -/
def Obligations.FrameHidesHostBuffer : Prop :=
  ∀ (c : Config) (m : Sem) (i : Instr) (s : State) (v : Word),
    runForm c m i (s.withBf v) = mapRes (fun t => t.withBf v) (runForm c m i s)

/-- R72: a form whose semantic function is not supplied is refused, whatever its operands (before R37's check, log 35); and one whose semantic
function breaks a condition: (1) it changes `PROG`, (2) the pc of a form other than BRA and CALL, (3) BF, or RC while SELBF is 1, (4) a
protected field of ST where no operand names ST. A change of SELBF or `MEM_PRESENT`, which a launch fixes, is refused as well (D4, R148), and one
of the model's `spaces` (log 36). -/
def Obligations.FrameRefusals : Prop :=
  ∀ (c : Config) (m : Sem) (i : Instr) (s : State),
    (m.sem i.form = none → runForm c m i s = .refused (.noSemantics i.form))
      ∧ ∀ (f : CondFn → Instr → State → Res State), m.sem i.form = some f →
        (∀ r, checkOperand i s = some r → runForm c m i s = .refused r)
          ∧ ∀ t : State, checkOperand i s = none → f m.cond i s.hidden = .next t →
            (t.prog ≠ s.prog ∨ (isTransfer i = false ∧ t.pc ≠ s.pc)
              ∨ t.bf ≠ s.hidden.bf ∨ (s.selbf = true ∧ t.rc ≠ s.hidden.rc)
              ∨ (namesSt i = false ∧ t.st &&& protectedMask c.stLayout ≠ s.st &&& protectedMask c.stLayout)
              ∨ t.selbf ≠ s.selbf ∨ t.holes ≠ s.holes ∨ t.spaces ≠ s.spaces) →
            runForm c m i s = .refused (.frame i.form)

/-! ## Decoding, encoding, the step -/

/-- R62: the table of lengths and cycle counts, form by form in the order of R70; the last two cycle counts are lost. -/
def Obligations.FormTable : Prop :=
  ([Form.ADSI, .AOP_A_RAM, .AOP_IND, .AOP_PTR, .AOP_REG, .AOPI, .AOPSI, .BRA, .CALL, .INC_IND, .DEC_IND, .INC_REG, .DEC_REG,
      .LD_A_RAM, .LD_RAM_A, .LD_D_IND, .LD_IND_S, .LD_D_INDP, .LD_INDP_S].map fun f => (f.words, f.cycles))
    = [(1, some 1), (1, some 1), (1, some 1), (1, some 1), (1, some 1), (2, some 2), (1, some 1), (2, some 2), (2, some 2),
       (1, some 2), (1, some 2), (1, some 2), (1, some 2), (1, some 1), (1, some 1), (1, some 1), (1, some 1), (1, none), (1, none)]

/-- R61: for every chip, (a) a decoded instruction has the length its first word calls for, which is W of its form, (b) a one-word
result does not depend on the second word, (c) a first word in the custom space selects no instruction. Two clauses are not R61's:
that the operands are in the chip's sets is V7.1, read as log 1 reads it (an operand outside is undecoded, DESIGN CHOICE); that the second
word of a two-word instruction is the word itself is R63. -/
def Obligations.DecoderConditions : Prop :=
  ∀ (c : Config) (w0 w1 w1' : Word) (i : Instr),
    (decode c w0 w1 = .instr i → i.words = (if needsSecond c w0 then 2 else 1) ∧ i.wf c = true
        ∧ (needsSecond c w0 = true → i.secondWord = some w1))
      ∧ (needsSecond c w0 = false → decode c w0 w1 = decode c w0 w1')
      ∧ (c.firstWord w0 = .custom → (decode c w0 w1).instr? = none)

/-- R66, R67, R110: a word in the custom space, a word that selects no instruction and a lost instruction are each refused by name,
whatever would run the instructions that do decode. -/
def Obligations.WordsThatSelectNothingAreRefused : Prop :=
  ∀ (c : Config) (f : Instr → State → Res State) (s : State) (w0 : Word), memRead s .prog s.pc = .next w0 →
    (c.firstWord w0 = .custom → fetchRun c f s = .refused .customInstruction)
      ∧ (c.firstWord w0 = .unlisted → fetchRun c f s = .refused .unlistedInstruction)
      ∧ (needsSecond c w0 = false → decode c w0 0 = .undecoded → fetchRun c f s = .refused .undecoded)
      ∧ ∀ w1, needsSecond c w0 = true → s.pc ≠ 0xFFFF → memRead s .prog (s.pc + 1) = .next w1 → decode c w0 w1 = .undecoded →
          fetchRun c f s = .refused .undecoded

/-- A step runs the decoded instruction: with the words at the pc readable, it is `exec` of what they decode to, at that same state;
and with any decoder, an instruction at the pc runs as itself: one of one word needs no second word there, one of two words needs both. -/
def Obligations.StepRunsTheDecodedInstruction : Prop :=
  (∀ (s : State) (w0 w1 : Word), s.pc ≠ 0xFFFF → memRead s .prog s.pc = .next w0 → memRead s .prog (s.pc + 1) = .next w1 →
      step s = match decode Config.chip w0 w1 with
        | .instr i => exec i s
        | .undecoded => .refused .undecoded
        | .custom => .refused .customInstruction
        | .unlisted => .refused .unlistedInstruction)
    ∧ ∀ (c : Config) (s : State) (w0 w1 : Word) (i : Instr), decode c w0 w1 = .instr i → memRead s .prog s.pc = .next w0 →
        (i.words = 2 → s.pc ≠ 0xFFFF ∧ memRead s .prog (s.pc + 1) = .next w1) → fetchRun c exec s = exec i s

/-- R35, R52, R72: the fetch of an unwritten word faults, of an absent one is stuck, and a two-word instruction at 0xFFFF is refused
for every form, BRA and CALL too. -/
def Obligations.FetchStops : Prop :=
  ∀ (c : Config) (f : Instr → State → Res State) (s : State) (w0 : Word),
    (s.present .prog s.pc = false → fetchRun c f s = .fault .stuck)
      ∧ (s.present .prog s.pc = true → s.word? .prog s.pc = none → fetchRun c f s = .fault .readOfUnwritten)
      ∧ (memRead s .prog s.pc = .next w0 → needsSecond c w0 = true →
          (s.pc = 0xFFFF → fetchRun c f s = .refused .pcWrap)
            ∧ (s.pc ≠ 0xFFFF → s.present .prog (s.pc + 1) = false → fetchRun c f s = .fault .stuck)
            ∧ (s.pc ≠ 0xFFFF → s.present .prog (s.pc + 1) = true → s.word? .prog (s.pc + 1) = none →
                fetchRun c f s = .fault .readOfUnwritten))

/-- Decode and encode agree, for every chip and every instruction it has words for: the encoder finds words, they are W of them, and
decoding them, whatever follows, gives the instruction back with every operand. -/
def Obligations.EncodeThenDecodeIsTheInstruction : Prop :=
  ∀ (c : Config) (w0 w1 : Word) (i : Instr) (rest : List Word), decode c w0 w1 = .instr i →
    ∃ ws, encode c i = some ws ∧ ws.length = i.words ∧ decodeWords c (ws ++ rest) = some (i, rest)

/-- Two instructions never have the same words, and words never decode to an instruction the chip does not have. -/
def Obligations.EncodingIsInjective : Prop :=
  ∀ (c : Config) (i j : Instr) (ws : List Word), encode c i = some ws → encode c j = some ws → i = j ∧ i.wf c = true

/-- An instruction loaded where the next step fetches it is what the step runs. At the pc and the address after it the words of `PROG` are the
instruction's and are present; every other word of every space, its presence and every other field of the state is as before. At pc 0xFFFF
there is no second word: only the first is loaded (log 22). -/
def Obligations.LoadedWordsAreFetched : Prop :=
  ∀ (s : State) (nbits w : Nat) (w0 w1 : Word), w0 = BitVec.ofNat 16 (w % 2 ^ nbits) → w1 = BitVec.ofNat 16 (w % 2 ^ nbits / 2 ^ 16) →
    memRead (s.withFetchWord nbits w) .prog s.pc = .next w0
      ∧ (∃ m h, s.withFetchWord nbits w = { s with prog := m, holes := h })
      ∧ (∀ sp a, (sp = .prog → a ≠ s.pc ∧ (s.pc ≠ 0xFFFF → a ≠ s.pc + 1)) →
          (s.withFetchWord nbits w).word? sp a = s.word? sp a ∧ (s.withFetchWord nbits w).present sp a = s.present sp a)
      ∧ (s.pc ≠ 0xFFFF → memRead (s.withFetchWord nbits w) .prog (s.pc + 1) = .next w1
          ∧ step (s.withFetchWord nbits w) = runDecoded exec (decode Config.chip w0 w1) (s.withFetchWord nbits w))
      ∧ (s.pc = 0xFFFF → step (s.withFetchWord nbits w)
          = if needsSecond Config.chip w0 then .refused .pcWrap
            else runDecoded exec (decode Config.chip w0 0) (s.withFetchWord nbits w))

/-! ## Runs -/

/-- R142: at `END_PC` a run is over and fetches nothing; a run that has ended stays ended with the same state, however many more steps
are allowed. -/
def Obligations.RunEndsAtEndPc : Prop :=
  (∀ (endPc : Word) (n : Nat) (s : State), s.pc = endPc → EndsAt endPc n s s)
    ∧ ∀ (endPc : Word) (n k : Nat) (s t : State), EndsAt endPc n s t → EndsAt endPc (n + k) s t

/-- R136: a run that meets a fault or a refusal ends with it and reaches no final state with any number of steps. -/
def Obligations.StoppedRunIsNeverFinal : Prop :=
  ∀ (endPc : Word) (n : Nat) (s : State), (∀ t, runUntil endPc n s ≠ .next t) → ∀ m t, ¬EndsAt endPc m s t

/-- R126's variant: a request is refused at every instruction boundary; without one the step is the step. -/
def Obligations.RequestedInterruptIsRefused : Prop :=
  ∀ s : State, stepUnderRequest true s = .refused .interrupt ∧ stepUnderRequest false s = step s
end

