-- ==== Sys2Proof/Laws/State.lean ====
section
/-! SUPPORT. One lemma per field per state update, so that no later proof unfolds a record update. -/

namespace Sys2Proof.Machine

variable (s t : State) (sp : Space) (m : Memory) (a v : Word) (r : Rij) (n : Nat)

/-! ## setPc -/

@[simp] theorem setPc_al0 : (s.setPc v).al0 = s.al0 := rfl
@[simp] theorem setPc_ah0 : (s.setPc v).ah0 = s.ah0 := rfl
@[simp] theorem setPc_al1 : (s.setPc v).al1 = s.al1 := rfl
@[simp] theorem setPc_ah1 : (s.setPc v).ah1 = s.ah1 := rfl
@[simp] theorem setPc_al2 : (s.setPc v).al2 = s.al2 := rfl
@[simp] theorem setPc_ah2 : (s.setPc v).ah2 = s.ah2 := rfl
@[simp] theorem setPc_pl : (s.setPc v).pl = s.pl := rfl
@[simp] theorem setPc_ph : (s.setPc v).ph = s.ph := rfl
@[simp] theorem setPc_x : (s.setPc v).x = s.x := rfl
@[simp] theorem setPc_y : (s.setPc v).y = s.y := rfl
@[simp] theorem setPc_st : (s.setPc v).st = s.st := rfl
@[simp] theorem setPc_pc : (s.setPc v).pc = v := rfl
@[simp] theorem setPc_sp : (s.setPc v).sp = s.sp := rfl
@[simp] theorem setPc_bf : (s.setPc v).bf = s.bf := rfl
@[simp] theorem setPc_rc : (s.setPc v).rc = s.rc := rfl
@[simp] theorem setPc_tr : (s.setPc v).tr = s.tr := rfl
@[simp] theorem setPc_pm : (s.setPc v).pm = s.pm := rfl
@[simp] theorem setPc_selbf : (s.setPc v).selbf = s.selbf := rfl
@[simp] theorem setPc_ptr : (s.setPc v).ptr = s.ptr := rfl
@[simp] theorem setPc_prog : (s.setPc v).prog = s.prog := rfl
@[simp] theorem setPc_data0 : (s.setPc v).data0 = s.data0 := rfl
@[simp] theorem setPc_data1 : (s.setPc v).data1 = s.data1 := rfl
@[simp] theorem setPc_holes : (s.setPc v).holes = s.holes := rfl
@[simp] theorem setPc_spaces : (s.setPc v).spaces = s.spaces := rfl
@[simp] theorem setPc_freeCount : (s.setPc v).freeCount = s.freeCount := rfl

/-! ## setMem and setWord -/

@[simp] theorem setMem_al0 : (s.setMem sp m).al0 = s.al0 := by cases sp <;> rfl
@[simp] theorem setWord_al0 : (s.setWord sp a v).al0 = s.al0 := setMem_al0 ..
@[simp] theorem setMem_ah0 : (s.setMem sp m).ah0 = s.ah0 := by cases sp <;> rfl
@[simp] theorem setWord_ah0 : (s.setWord sp a v).ah0 = s.ah0 := setMem_ah0 ..
@[simp] theorem setMem_al1 : (s.setMem sp m).al1 = s.al1 := by cases sp <;> rfl
@[simp] theorem setWord_al1 : (s.setWord sp a v).al1 = s.al1 := setMem_al1 ..
@[simp] theorem setMem_ah1 : (s.setMem sp m).ah1 = s.ah1 := by cases sp <;> rfl
@[simp] theorem setWord_ah1 : (s.setWord sp a v).ah1 = s.ah1 := setMem_ah1 ..
@[simp] theorem setMem_al2 : (s.setMem sp m).al2 = s.al2 := by cases sp <;> rfl
@[simp] theorem setWord_al2 : (s.setWord sp a v).al2 = s.al2 := setMem_al2 ..
@[simp] theorem setMem_ah2 : (s.setMem sp m).ah2 = s.ah2 := by cases sp <;> rfl
@[simp] theorem setWord_ah2 : (s.setWord sp a v).ah2 = s.ah2 := setMem_ah2 ..
@[simp] theorem setMem_pl : (s.setMem sp m).pl = s.pl := by cases sp <;> rfl
@[simp] theorem setWord_pl : (s.setWord sp a v).pl = s.pl := setMem_pl ..
@[simp] theorem setMem_ph : (s.setMem sp m).ph = s.ph := by cases sp <;> rfl
@[simp] theorem setWord_ph : (s.setWord sp a v).ph = s.ph := setMem_ph ..
@[simp] theorem setMem_x : (s.setMem sp m).x = s.x := by cases sp <;> rfl
@[simp] theorem setWord_x : (s.setWord sp a v).x = s.x := setMem_x ..
@[simp] theorem setMem_y : (s.setMem sp m).y = s.y := by cases sp <;> rfl
@[simp] theorem setWord_y : (s.setWord sp a v).y = s.y := setMem_y ..
@[simp] theorem setMem_st : (s.setMem sp m).st = s.st := by cases sp <;> rfl
@[simp] theorem setWord_st : (s.setWord sp a v).st = s.st := setMem_st ..
@[simp] theorem setMem_pc : (s.setMem sp m).pc = s.pc := by cases sp <;> rfl
@[simp] theorem setWord_pc : (s.setWord sp a v).pc = s.pc := setMem_pc ..
@[simp] theorem setMem_sp : (s.setMem sp m).sp = s.sp := by cases sp <;> rfl
@[simp] theorem setWord_sp : (s.setWord sp a v).sp = s.sp := setMem_sp ..
@[simp] theorem setMem_bf : (s.setMem sp m).bf = s.bf := by cases sp <;> rfl
@[simp] theorem setWord_bf : (s.setWord sp a v).bf = s.bf := setMem_bf ..
@[simp] theorem setMem_rc : (s.setMem sp m).rc = s.rc := by cases sp <;> rfl
@[simp] theorem setWord_rc : (s.setWord sp a v).rc = s.rc := setMem_rc ..
@[simp] theorem setMem_tr : (s.setMem sp m).tr = s.tr := by cases sp <;> rfl
@[simp] theorem setWord_tr : (s.setWord sp a v).tr = s.tr := setMem_tr ..
@[simp] theorem setMem_pm : (s.setMem sp m).pm = s.pm := by cases sp <;> rfl
@[simp] theorem setWord_pm : (s.setWord sp a v).pm = s.pm := setMem_pm ..
@[simp] theorem setMem_selbf : (s.setMem sp m).selbf = s.selbf := by cases sp <;> rfl
@[simp] theorem setWord_selbf : (s.setWord sp a v).selbf = s.selbf := setMem_selbf ..
@[simp] theorem setMem_ptr : (s.setMem sp m).ptr = s.ptr := by cases sp <;> rfl
@[simp] theorem setWord_ptr : (s.setWord sp a v).ptr = s.ptr := setMem_ptr ..
@[simp] theorem setMem_holes : (s.setMem sp m).holes = s.holes := by cases sp <;> rfl
@[simp] theorem setMem_spaces : (s.setMem sp m).spaces = s.spaces := by cases sp <;> rfl
@[simp] theorem setWord_holes : (s.setWord sp a v).holes = s.holes := setMem_holes ..
@[simp] theorem setWord_spaces : (s.setWord sp a v).spaces = s.spaces := setMem_spaces ..
@[simp] theorem setMem_freeCount : (s.setMem sp m).freeCount = s.freeCount := by cases sp <;> rfl
@[simp] theorem setWord_freeCount : (s.setWord sp a v).freeCount = s.freeCount := setMem_freeCount ..

@[simp] theorem mem_prog : s.mem .prog = s.prog := rfl
@[simp] theorem mem_data0 : s.mem .data0 = s.data0 := rfl
@[simp] theorem mem_data1 : s.mem .data1 = s.data1 := rfl
@[simp] theorem setMem_mem_same : (s.setMem sp m).mem sp = m := by cases sp <;> rfl

theorem setMem_mem_other (q : Space) (h : q ≠ sp) : (s.setMem sp m).mem q = s.mem q := by
  cases sp <;> cases q <;> first | rfl | exact absurd rfl h

@[simp] theorem setWord_mem_same : (s.setWord sp a v).mem sp = (s.mem sp).write a.toNat v := setMem_mem_same ..

theorem setWord_mem_other (q : Space) (h : q ≠ sp) : (s.setWord sp a v).mem q = s.mem q := setMem_mem_other _ _ _ _ h

/-! ## setPtr -/

@[simp] theorem setPtr_al0 : (s.setPtr r n).al0 = s.al0 := rfl
@[simp] theorem setPtr_ah0 : (s.setPtr r n).ah0 = s.ah0 := rfl
@[simp] theorem setPtr_al1 : (s.setPtr r n).al1 = s.al1 := rfl
@[simp] theorem setPtr_ah1 : (s.setPtr r n).ah1 = s.ah1 := rfl
@[simp] theorem setPtr_al2 : (s.setPtr r n).al2 = s.al2 := rfl
@[simp] theorem setPtr_ah2 : (s.setPtr r n).ah2 = s.ah2 := rfl
@[simp] theorem setPtr_pl : (s.setPtr r n).pl = s.pl := rfl
@[simp] theorem setPtr_ph : (s.setPtr r n).ph = s.ph := rfl
@[simp] theorem setPtr_x : (s.setPtr r n).x = s.x := rfl
@[simp] theorem setPtr_y : (s.setPtr r n).y = s.y := rfl
@[simp] theorem setPtr_st : (s.setPtr r n).st = s.st := rfl
@[simp] theorem setPtr_pc : (s.setPtr r n).pc = s.pc := rfl
@[simp] theorem setPtr_sp : (s.setPtr r n).sp = s.sp := rfl
@[simp] theorem setPtr_bf : (s.setPtr r n).bf = s.bf := rfl
@[simp] theorem setPtr_rc : (s.setPtr r n).rc = s.rc := rfl
@[simp] theorem setPtr_tr : (s.setPtr r n).tr = s.tr := rfl
@[simp] theorem setPtr_pm : (s.setPtr r n).pm = s.pm := rfl
@[simp] theorem setPtr_selbf : (s.setPtr r n).selbf = s.selbf := rfl
@[simp] theorem setPtr_ptr : (s.setPtr r n).ptr = s.ptr.write r n := rfl
@[simp] theorem setPtr_prog : (s.setPtr r n).prog = s.prog := rfl
@[simp] theorem setPtr_data0 : (s.setPtr r n).data0 = s.data0 := rfl
@[simp] theorem setPtr_data1 : (s.setPtr r n).data1 = s.data1 := rfl
@[simp] theorem setPtr_holes : (s.setPtr r n).holes = s.holes := rfl
@[simp] theorem setPtr_spaces : (s.setPtr r n).spaces = s.spaces := rfl
@[simp] theorem setPtr_freeCount : (s.setPtr r n).freeCount = s.freeCount := rfl

/-! ## hidden, restored, withBf -/

@[simp] theorem hidden_al0 : s.hidden.al0 = s.al0 := rfl
@[simp] theorem restored_al0 : (t.restored s).al0 = t.al0 := rfl
@[simp] theorem withBf_al0 : (s.withBf v).al0 = s.al0 := rfl
@[simp] theorem hidden_ah0 : s.hidden.ah0 = s.ah0 := rfl
@[simp] theorem restored_ah0 : (t.restored s).ah0 = t.ah0 := rfl
@[simp] theorem withBf_ah0 : (s.withBf v).ah0 = s.ah0 := rfl
@[simp] theorem hidden_al1 : s.hidden.al1 = s.al1 := rfl
@[simp] theorem restored_al1 : (t.restored s).al1 = t.al1 := rfl
@[simp] theorem withBf_al1 : (s.withBf v).al1 = s.al1 := rfl
@[simp] theorem hidden_ah1 : s.hidden.ah1 = s.ah1 := rfl
@[simp] theorem restored_ah1 : (t.restored s).ah1 = t.ah1 := rfl
@[simp] theorem withBf_ah1 : (s.withBf v).ah1 = s.ah1 := rfl
@[simp] theorem hidden_al2 : s.hidden.al2 = s.al2 := rfl
@[simp] theorem restored_al2 : (t.restored s).al2 = t.al2 := rfl
@[simp] theorem withBf_al2 : (s.withBf v).al2 = s.al2 := rfl
@[simp] theorem hidden_ah2 : s.hidden.ah2 = s.ah2 := rfl
@[simp] theorem restored_ah2 : (t.restored s).ah2 = t.ah2 := rfl
@[simp] theorem withBf_ah2 : (s.withBf v).ah2 = s.ah2 := rfl
@[simp] theorem hidden_pl : s.hidden.pl = s.pl := rfl
@[simp] theorem restored_pl : (t.restored s).pl = t.pl := rfl
@[simp] theorem withBf_pl : (s.withBf v).pl = s.pl := rfl
@[simp] theorem hidden_ph : s.hidden.ph = s.ph := rfl
@[simp] theorem restored_ph : (t.restored s).ph = t.ph := rfl
@[simp] theorem withBf_ph : (s.withBf v).ph = s.ph := rfl
@[simp] theorem hidden_x : s.hidden.x = s.x := rfl
@[simp] theorem restored_x : (t.restored s).x = t.x := rfl
@[simp] theorem withBf_x : (s.withBf v).x = s.x := rfl
@[simp] theorem hidden_y : s.hidden.y = s.y := rfl
@[simp] theorem restored_y : (t.restored s).y = t.y := rfl
@[simp] theorem withBf_y : (s.withBf v).y = s.y := rfl
@[simp] theorem hidden_st : s.hidden.st = s.st := rfl
@[simp] theorem restored_st : (t.restored s).st = t.st := rfl
@[simp] theorem withBf_st : (s.withBf v).st = s.st := rfl
@[simp] theorem hidden_pc : s.hidden.pc = s.pc := rfl
@[simp] theorem restored_pc : (t.restored s).pc = t.pc := rfl
@[simp] theorem withBf_pc : (s.withBf v).pc = s.pc := rfl
@[simp] theorem hidden_sp : s.hidden.sp = s.sp := rfl
@[simp] theorem restored_sp : (t.restored s).sp = t.sp := rfl
@[simp] theorem withBf_sp : (s.withBf v).sp = s.sp := rfl
@[simp] theorem hidden_bf : s.hidden.bf = 0 := rfl
@[simp] theorem restored_bf : (t.restored s).bf = s.bf := rfl
@[simp] theorem withBf_bf : (s.withBf v).bf = v := rfl
@[simp] theorem hidden_rc : s.hidden.rc = if s.selbf then 0 else s.rc := rfl
@[simp] theorem restored_rc : (t.restored s).rc = if s.selbf then s.rc else t.rc := rfl
@[simp] theorem withBf_rc : (s.withBf v).rc = s.rc := rfl
@[simp] theorem hidden_tr : s.hidden.tr = s.tr := rfl
@[simp] theorem restored_tr : (t.restored s).tr = t.tr := rfl
@[simp] theorem withBf_tr : (s.withBf v).tr = s.tr := rfl
@[simp] theorem hidden_pm : s.hidden.pm = s.pm := rfl
@[simp] theorem restored_pm : (t.restored s).pm = t.pm := rfl
@[simp] theorem withBf_pm : (s.withBf v).pm = s.pm := rfl
@[simp] theorem hidden_selbf : s.hidden.selbf = s.selbf := rfl
@[simp] theorem restored_selbf : (t.restored s).selbf = t.selbf := rfl
@[simp] theorem withBf_selbf : (s.withBf v).selbf = s.selbf := rfl
@[simp] theorem hidden_ptr : s.hidden.ptr = s.ptr := rfl
@[simp] theorem restored_ptr : (t.restored s).ptr = t.ptr := rfl
@[simp] theorem withBf_ptr : (s.withBf v).ptr = s.ptr := rfl
@[simp] theorem hidden_prog : s.hidden.prog = s.prog := rfl
@[simp] theorem restored_prog : (t.restored s).prog = t.prog := rfl
@[simp] theorem withBf_prog : (s.withBf v).prog = s.prog := rfl
@[simp] theorem hidden_data0 : s.hidden.data0 = s.data0 := rfl
@[simp] theorem restored_data0 : (t.restored s).data0 = t.data0 := rfl
@[simp] theorem withBf_data0 : (s.withBf v).data0 = s.data0 := rfl
@[simp] theorem hidden_data1 : s.hidden.data1 = s.data1 := rfl
@[simp] theorem restored_data1 : (t.restored s).data1 = t.data1 := rfl
@[simp] theorem withBf_data1 : (s.withBf v).data1 = s.data1 := rfl
@[simp] theorem hidden_holes : s.hidden.holes = s.holes := rfl
@[simp] theorem hidden_spaces : s.hidden.spaces = s.spaces := rfl
@[simp] theorem restored_holes : (t.restored s).holes = t.holes := rfl
@[simp] theorem restored_spaces : (t.restored s).spaces = t.spaces := rfl
@[simp] theorem withBf_holes : (s.withBf v).holes = s.holes := rfl
@[simp] theorem withBf_spaces : (s.withBf v).spaces = s.spaces := rfl
@[simp] theorem hidden_freeCount : s.hidden.freeCount = s.freeCount := rfl
@[simp] theorem restored_freeCount : (t.restored s).freeCount = t.freeCount := rfl
@[simp] theorem withBf_freeCount : (s.withBf v).freeCount = s.freeCount := rfl

/-! ## setReg -/

@[simp] theorem setReg_selbf (b : RegAddr) : (s.setReg b v).selbf = s.selbf := by
  cases b <;> rfl
@[simp] theorem setReg_ptr (b : RegAddr) : (s.setReg b v).ptr = s.ptr := by
  cases b <;> rfl
@[simp] theorem setReg_prog (b : RegAddr) : (s.setReg b v).prog = s.prog := by
  cases b <;> rfl
@[simp] theorem setReg_data0 (b : RegAddr) : (s.setReg b v).data0 = s.data0 := by
  cases b <;> rfl
@[simp] theorem setReg_data1 (b : RegAddr) : (s.setReg b v).data1 = s.data1 := by
  cases b <;> rfl
@[simp] theorem setReg_holes (b : RegAddr) : (s.setReg b v).holes = s.holes := by
  cases b <;> rfl
@[simp] theorem setReg_spaces (b : RegAddr) : (s.setReg b v).spaces = s.spaces := by
  cases b <;> rfl
@[simp] theorem setReg_freeCount (b : RegAddr) : (s.setReg b v).freeCount = s.freeCount := by
  cases b <;> rfl

/-! ## settle -/

variable (c : Config) (names transfer : Bool) (e : Change) (p : PtrFile)

@[simp] theorem settle_al0 : (settle c names transfer e p s).al0 = e.reg .al0 := rfl
@[simp] theorem settle_ah0 : (settle c names transfer e p s).ah0 = e.reg .ah0 := rfl
@[simp] theorem settle_al1 : (settle c names transfer e p s).al1 = e.reg .al1 := rfl
@[simp] theorem settle_ah1 : (settle c names transfer e p s).ah1 = e.reg .ah1 := rfl
@[simp] theorem settle_al2 : (settle c names transfer e p s).al2 = e.reg .al2 := rfl
@[simp] theorem settle_ah2 : (settle c names transfer e p s).ah2 = e.reg .ah2 := rfl
@[simp] theorem settle_pl : (settle c names transfer e p s).pl = e.reg .pl := rfl
@[simp] theorem settle_ph : (settle c names transfer e p s).ph = e.reg .ph := rfl
@[simp] theorem settle_x : (settle c names transfer e p s).x = e.reg .x := rfl
@[simp] theorem settle_y : (settle c names transfer e p s).y = e.reg .y := rfl
@[simp] theorem settle_st : (settle c names transfer e p s).st = keepProtected c.stLayout names s.st (e.reg .st) := rfl
@[simp] theorem settle_pc : (settle c names transfer e p s).pc = if transfer then e.reg .pc else s.pc := rfl
@[simp] theorem settle_sp : (settle c names transfer e p s).sp = e.reg .sp := rfl
@[simp] theorem settle_bf : (settle c names transfer e p s).bf = s.bf := rfl
@[simp] theorem settle_rc : (settle c names transfer e p s).rc = if s.selbf then s.rc else e.reg .bfRc := rfl
@[simp] theorem settle_tr : (settle c names transfer e p s).tr = e.reg .tr := rfl
@[simp] theorem settle_pm : (settle c names transfer e p s).pm = e.reg .pm := rfl
@[simp] theorem settle_selbf : (settle c names transfer e p s).selbf = s.selbf := rfl
@[simp] theorem settle_ptr : (settle c names transfer e p s).ptr = applyPtrs c e.ptr p := rfl
@[simp] theorem settle_prog : (settle c names transfer e p s).prog = s.prog := rfl
@[simp] theorem settle_data0 : (settle c names transfer e p s).data0 = s.data0 := rfl
@[simp] theorem settle_data1 : (settle c names transfer e p s).data1 = s.data1 := rfl
@[simp] theorem settle_holes : (settle c names transfer e p s).holes = s.holes := rfl
@[simp] theorem settle_spaces : (settle c names transfer e p s).spaces = s.spaces := rfl
@[simp] theorem settle_freeCount : (settle c names transfer e p s).freeCount = s.freeCount + 1 := rfl
@[simp] theorem settle_mem : (settle c names transfer e p s).mem sp = s.mem sp := by cases sp <;> rfl
@[simp] theorem settle_word? : (settle c names transfer e p s).word? sp a = s.word? sp a := by cases sp <;> rfl
@[simp] theorem settle_present : (settle c names transfer e p s).present sp a = s.present sp a := rfl

@[simp] theorem withSp_ptr : (e.withSp v).ptr = e.ptr := rfl
@[simp] theorem withSp_sp : (e.withSp v).reg .sp = v := rfl
theorem withSp_reg {b : RegAddr} (h : b ≠ .sp) : (e.withSp v).reg b = e.reg b := if_neg h
@[simp] theorem withSp_st : (e.withSp v).reg .st = e.reg .st := rfl
@[simp] theorem withSp_pc : (e.withSp v).reg .pc = e.reg .pc := rfl
@[simp] theorem withSp_bfRc : (e.withSp v).reg .bfRc = e.reg .bfRc := rfl

/-! ## The host buffer's hiding commutes with what an effect does -/

@[simp] theorem hidden_hidden : s.hidden.hidden = s.hidden := by
  simp only [State.hidden]
  by_cases h : s.selbf = true <;> simp [h]

@[simp] theorem hidden_withBf : (s.withBf v).hidden = s.hidden := rfl

theorem settle_withBf : settle c names transfer e p (s.withBf v) = (settle c names transfer e p s).withBf v := rfl

theorem settle_hidden : settle c names transfer e p s.hidden = (settle c names transfer e p s).hidden := by
  simp only [settle, State.hidden]
  by_cases h : s.selbf = true <;> simp [h]

end Sys2Proof.Machine
end

