-- ==== Sys2Proof/Laws/Flags.lean ====
section
/-! SUPPORT. Bits of ST under a layout (spec/10_state.md R21 to R23): which bits a mask holds, and what the frame keeps of ST. -/

namespace Sys2Proof.Machine

theorem rangeMask_bit (r : StRange) (h : r.hi ≤ 15) (k : Nat) :
    (rangeMask r).getLsbD k = (decide (r.lo ≤ k) && decide (k ≤ r.hi)) := by
  simp only [rangeMask, BitVec.getLsbD_and, BitVec.getLsbD_shiftLeft, BitVec.getLsbD_ushiftRight, BitVec.getLsbD_allOnes]
  rw [Bool.eq_iff_iff]
  simp only [Bool.and_eq_true, decide_eq_true_eq, Bool.not_eq_true', decide_eq_false_iff_not]
  omega

theorem keepProtected_masked (l : StLayout) (names : Bool) (old new : Word) (h : names = false) :
    keepProtected l names old new &&& protectedMask l = old &&& protectedMask l := by
  subst h
  ext k hk
  simp only [keepProtected, Bool.false_eq_true, if_false, BitVec.getElem_and, BitVec.getElem_or, BitVec.getElem_not]
  cases old[k] <;> cases (protectedMask l)[k] <;> cases new[k] <;> rfl

theorem readField_of_masked (l : StLayout) (f : StField) (hf : isAluFlag f = false) (st st' : Word)
    (h : st &&& protectedMask l = st' &&& protectedMask l) : readField l f st = readField l f st' := by
  have key : st &&& rangeMask (l f) = st' &&& rangeMask (l f) := by
    ext k hk
    have hb := congrArg (fun v : Word => v[k]) h
    simp only [protectedMask, BitVec.getElem_and, BitVec.getElem_or] at hb ⊢
    cases f <;> first | exact absurd hf (by decide) | skip
    all_goals
      revert hb
      cases st[k] <;> cases st'[k] <;> simp <;> tauto
  simp only [readField, key]

end Sys2Proof.Machine
end

