-- ==== Sys2Proof/Laws/Memory.lean ====
section
/-! SUPPORT. The memories and the pointer file: read after write, canonical form, and what each access primitive can do
(spec/20_memory.md R45). -/

namespace Sys2Proof.Machine

/-! ## One memory -/

@[simp] theorem Memory.read_write (m : Memory) (a b : Nat) (w : Word) :
    (m.write a w).read b = if b = a then some w else m.read b := by
  induction m with
  | nil => simp [Memory.write, Memory.read]
  | cons e rest ih =>
    obtain ⟨k, v⟩ := e
    simp only [Memory.write]
    split
    · rfl
    · split
      · next h => subst h; simp only [Memory.read]; split <;> rfl
      · next h =>
        simp only [Memory.read, ih]
        by_cases hb : b = k <;> by_cases ha : b = a <;> simp_all

theorem Memory.wfFrom_write (m : Memory) (lo a : Nat) (w : Word) (h : m.wfFrom lo = true) (hlo : lo ≤ a) (ha : a < 65536) :
    (m.write a w).wfFrom lo = true := by
  induction m generalizing lo with
  | nil => simp [Memory.write, Memory.wfFrom, hlo, ha]
  | cons e rest ih =>
    obtain ⟨k, v⟩ := e
    simp only [Memory.wfFrom, Bool.and_eq_true, decide_eq_true_eq] at h
    obtain ⟨⟨hk, hk'⟩, hrest⟩ := h
    simp only [Memory.write]
    split
    · simp [Memory.wfFrom, hlo, ha, hk', hrest]; omega
    · split
      · next h => subst h; simp [Memory.wfFrom, hlo, ha, hrest]
      · simp [Memory.wfFrom, hk, hk', ih (k + 1) hrest (by omega)]

theorem Memory.wf_write (m : Memory) (a w : Word) (h : m.wf = true) : (m.write a.toNat w).wf = true :=
  m.wfFrom_write 0 _ w h (Nat.zero_le _) a.isLt

theorem Memory.all_write (p : Nat × Word → Bool) (m : Memory) (a : Nat) (w : Word) (h : m.all p = true) (hp : p (a, w) = true) :
    (m.write a w).all p = true := by
  induction m with
  | nil => simp [Memory.write, hp]
  | cons e rest ih =>
    obtain ⟨k, v⟩ := e
    simp only [List.all_cons, Bool.and_eq_true] at h
    simp only [Memory.write]
    split
    · simp only [List.all_cons, hp, h.1, h.2, Bool.and_true]
    · split
      · simp only [List.all_cons, hp, h.2, Bool.and_true]
      · simp only [List.all_cons, h.1, ih h.2, Bool.and_true]

/-! ## The three memories -/

theorem setWord_word? (s : State) (sp q : Space) (a b v : Word) :
    (s.setWord sp a v).word? q b = if q = sp ∧ b = a then some v else s.word? q b := by
  unfold State.word?
  by_cases hq : q = sp
  · subst hq
    simp [BitVec.toNat_inj]
  · rw [setWord_mem_other _ _ _ _ _ hq]
    simp [hq]

@[simp] theorem setWord_present (s : State) (sp q : Space) (a b v : Word) : (s.setWord sp a v).present q b = s.present q b := by
  simp [State.present]

/-- Putting memory behind an address changes which addresses are absent at that address only. -/
@[simp] theorem makePresent_covers (holes : List Hole) (sp q : Space) (a b : Nat) :
    ((makePresent holes sp a).any fun h => h.covers q b) = ((holes.any fun h => h.covers q b) && !(decide (q = sp) && decide (b = a))) := by
  have one : ∀ h : Hole, ((h.without sp a).any fun h => h.covers q b) = (h.covers q b && !(decide (q = sp) && decide (b = a))) := by
    intro h
    have hif : ∀ (P : Prop) [Decidable P] (k : Hole),
        (((if P then [k] else []).any fun h => h.covers q b) = true ↔ P ∧ k.covers q b = true) := by
      intro P _ k
      split <;> simp [*]
    rw [Bool.eq_iff_iff]
    unfold Hole.without
    by_cases hc : h.covers sp a = true
    · rw [if_pos hc, List.any_append, Bool.or_eq_true, hif, hif]
      simp only [Hole.covers, Bool.and_eq_true, decide_eq_true_eq, Bool.not_eq_true', Bool.and_eq_false_iff,
        decide_eq_false_iff_not] at hc ⊢
      obtain ⟨⟨rfl, h1⟩, h2⟩ := hc
      by_cases hq : h.space = q
      · subst hq
        simp only [true_and, not_true_eq_false, false_or]
        omega
      · simp [hq]
    · rw [if_neg hc, List.any_cons, List.any_nil, Bool.or_false, Bool.and_eq_true]
      refine ⟨fun h' => ⟨h', ?_⟩, And.left⟩
      rw [Bool.not_eq_true', ← Bool.not_eq_true, Bool.and_eq_true, decide_eq_true_eq, decide_eq_true_eq]
      rintro ⟨rfl, rfl⟩
      exact hc h'
  unfold makePresent
  induction holes with
  | nil => rfl
  | cons h rest ih =>
    rw [List.flatMap_cons, List.any_append, one, ih, List.any_cons, Bool.and_or_distrib_right]

/-- Every memory of the state is in canonical form. -/
def State.memWf (s : State) : Prop := ∀ sp, (s.mem sp).wf = true

theorem memWf_setWord (s : State) (sp : Space) (a v : Word) (h : s.memWf) : (s.setWord sp a v).memWf := fun q => by
  by_cases hq : q = sp
  · subst hq
    rw [setWord_mem_same]
    exact Memory.wf_write _ _ _ (h q)
  · rw [setWord_mem_other _ _ _ _ _ hq]
    exact h q

/-! ## What the primitives can do -/

theorem memRead_cases (s : State) (sp : Space) (a : Word) :
    (∃ v, s.present sp a = true ∧ s.word? sp a = some v ∧ memRead s sp a = .next v)
      ∨ (s.present sp a = true ∧ s.word? sp a = none ∧ memRead s sp a = .fault .readOfUnwritten)
      ∨ (s.present sp a = false ∧ memRead s sp a = .fault .stuck) := by
  unfold memRead
  cases hp : s.present sp a with
  | false => exact .inr (.inr ⟨rfl, rfl⟩)
  | true =>
    cases hw : s.word? sp a with
    | none => exact .inr (.inl ⟨rfl, rfl, rfl⟩)
    | some v => exact .inl ⟨v, rfl, rfl, rfl⟩

/-- A double-word read stops as its side conditions do, and otherwise only where one of the halves holds no value. -/
theorem memReadDouble_cases (c : Config) (s : State) (sp : Space) (a : Word) :
    (∃ u, checkDouble c s sp a = .next u
        ∧ ((∃ v, memReadDouble c s sp a = .next v) ∨ memReadDouble c s sp a = .fault .readOfUnwritten))
      ∨ (∃ f, checkDouble c s sp a = .fault f ∧ memReadDouble c s sp a = .fault f)
      ∨ ∃ e, checkDouble c s sp a = .refused e ∧ memReadDouble c s sp a = .refused e := by
  unfold memReadDouble
  cases checkDouble c s sp a with
  | next u =>
    refine .inl ⟨u, rfl, ?_⟩
    simp only [andThen]
    split
    · exact .inl ⟨_, rfl⟩
    · exact .inr rfl
  | fault f => exact .inr (.inl ⟨f, rfl, rfl⟩)
  | refused e => exact .inr (.inr ⟨e, rfl, rfl⟩)

theorem memWrite_next (s t : State) (sp : Space) (a v : Word) (h : memWrite s sp a v = .next t) :
    sp ≠ .prog ∧ s.present sp a = true ∧ t = s.setWord sp a v := by
  unfold memWrite at h
  split at h
  · cases h
  · next hs =>
    split at h
    · next hp => cases h; exact ⟨hs, hp, rfl⟩
    · cases h

theorem memWriteDouble_next (c : Config) (s t : State) (sp : Space) (a : Word) (v : DWord)
    (h : memWriteDouble c s sp a v = .next t) :
    sp ≠ .prog ∧ checkDouble c s sp a = .next ()
      ∧ t = (s.setWord (place c.dwOrder sp a).1.1 (place c.dwOrder sp a).1.2 v.hi).setWord
          (place c.dwOrder sp a).2.1 (place c.dwOrder sp a).2.2 v.lo := by
  unfold memWriteDouble at h
  split at h
  · cases h
  · next hs =>
    cases hc : checkDouble c s sp a with
    | next u => rw [hc] at h; cases h; exact ⟨hs, rfl, rfl⟩
    | fault e => rw [hc] at h; cases h
    | refused e => rw [hc] at h; cases h

theorem memWrite_memWf (s t : State) (sp : Space) (a v : Word) (hs : s.memWf) (h : memWrite s sp a v = .next t) : t.memWf := by
  obtain ⟨-, -, rfl⟩ := memWrite_next s t sp a v h
  exact memWf_setWord _ _ _ _ hs

theorem memWriteDouble_memWf (c : Config) (s t : State) (sp : Space) (a : Word) (v : DWord) (hs : s.memWf)
    (h : memWriteDouble c s sp a v = .next t) : t.memWf := by
  obtain ⟨-, -, rfl⟩ := memWriteDouble_next c s t sp a v h
  exact memWf_setWord _ _ _ _ (memWf_setWord _ _ _ _ hs)

/-! ## The pointer file -/

theorem ptrBefore_irrefl (r : Rij) : ptrBefore r r = false := by simp [ptrBefore]

theorem ptrBefore_trans {r q p : Rij} (h : ptrBefore r q = true) (h' : ptrBefore q p = true) : ptrBefore r p = true := by
  simp only [ptrBefore, Bool.or_eq_true, Bool.and_eq_true, decide_eq_true_eq] at *
  omega

theorem ptrBefore_total {r q : Rij} (h : ptrBefore r q = false) (hne : r ≠ q) : ptrBefore q r = true := by
  obtain ⟨i, j⟩ := r
  obtain ⟨i', j'⟩ := q
  simp only [ptrBefore, Bool.or_eq_false_iff, Bool.and_eq_false_iff, decide_eq_false_iff_not, Bool.or_eq_true,
    Bool.and_eq_true, decide_eq_true_eq, ne_eq, Rij.mk.injEq] at *
  omega

theorem PtrFile.above_trans {p : PtrFile} {r q : Rij} (h : p.above q = true) (hr : ptrBefore r q = true) :
    p.above r = true := by
  simp only [PtrFile.above, List.all_eq_true] at *
  exact fun e he => ptrBefore_trans hr (h e he)

theorem PtrFile.all_insert (f : Rij × Nat → Bool) (p : PtrFile) (r : Rij) (w : Nat) (h : p.all f = true)
    (hf : f (r, w) = true) : (p.insert r w).all f = true := by
  induction p with
  | nil => simp [PtrFile.insert, hf]
  | cons e rest ih =>
    obtain ⟨k, v⟩ := e
    simp only [List.all_cons, Bool.and_eq_true] at h
    simp only [PtrFile.insert]
    split
    · simp only [List.all_cons, hf, h.1, h.2, Bool.and_true]
    · split
      · simp only [List.all_cons, hf, h.2, Bool.and_true]
      · simp only [List.all_cons, h.1, ih h.2, Bool.and_true]

theorem PtrFile.all_erase (f : Rij × Nat → Bool) (p : PtrFile) (r : Rij) (h : p.all f = true) :
    (p.erase r).all f = true := by
  induction p with
  | nil => rfl
  | cons e rest ih =>
    obtain ⟨k, v⟩ := e
    simp only [List.all_cons, Bool.and_eq_true] at h
    simp only [PtrFile.erase]
    split
    · exact h.2
    · simp only [List.all_cons, h.1, ih h.2, Bool.and_true]

theorem PtrFile.canonical_insert (p : PtrFile) (r : Rij) (w : Nat) (hw : w ≠ 0) (h : p.canonical = true) :
    (p.insert r w).canonical = true := by
  induction p with
  | nil => simpa [PtrFile.insert, PtrFile.canonical, PtrFile.above] using hw
  | cons e rest ih =>
    obtain ⟨k, v⟩ := e
    simp only [PtrFile.canonical, Bool.and_eq_true] at h
    obtain ⟨⟨hv, hab⟩, hc⟩ := h
    simp only [PtrFile.insert]
    cases hb : ptrBefore r k with
    | true =>
      have h1 : PtrFile.above ((k, v) :: rest) r = true := by
        simp only [PtrFile.above, List.all_cons, hb, Bool.true_and]
        exact PtrFile.above_trans hab hb
      simp only [if_true, PtrFile.canonical, h1, hv, hab, hc, Bool.and_true, decide_eq_true_eq]
      exact hw
    | false =>
      simp only [Bool.false_eq_true, if_false]
      split
      · next hk =>
        subst hk
        simp only [PtrFile.canonical, hab, hc, Bool.and_true, decide_eq_true_eq]
        exact hw
      · next hk =>
        have h2 : PtrFile.above (PtrFile.insert rest r w) k = true :=
          PtrFile.all_insert _ _ _ _ hab (ptrBefore_total hb hk)
        simp only [PtrFile.canonical, hv, h2, ih hc, Bool.and_true]

theorem PtrFile.canonical_erase (p : PtrFile) (r : Rij) (h : p.canonical = true) : (p.erase r).canonical = true := by
  induction p with
  | nil => rfl
  | cons e rest ih =>
    obtain ⟨k, v⟩ := e
    simp only [PtrFile.canonical, Bool.and_eq_true] at h
    obtain ⟨⟨hv, hab⟩, hc⟩ := h
    simp only [PtrFile.erase]
    split
    · exact hc
    · have h2 : PtrFile.above (PtrFile.erase rest r) k = true := PtrFile.all_erase _ _ _ hab
      simp only [PtrFile.canonical, hv, h2, ih hc, Bool.and_true]

theorem PtrFile.wf_write (c : Config) (p : PtrFile) (r : Rij) (w : Nat) (hr : r.wf c = true) (hw : w < 2 ^ c.ptrWidth)
    (h : p.wf c = true) : (p.write r w).wf c = true := by
  simp only [PtrFile.wf, Bool.and_eq_true] at h
  unfold PtrFile.write
  split
  · simp only [PtrFile.wf, p.canonical_erase r h.1, PtrFile.all_erase _ _ _ h.2, Bool.and_true]
  · next h0 =>
    have he : (r.wf c && decide (w < 2 ^ c.ptrWidth)) = true := by simp only [hr, hw, decide_true, Bool.and_true]
    simp only [PtrFile.wf, p.canonical_insert r w h0 h.1, PtrFile.all_insert _ _ _ _ h.2 he, Bool.and_true]

theorem PtrFile.read_lt (c : Config) (p : PtrFile) (r : Rij) (h : p.wf c = true) : p.read r < 2 ^ c.ptrWidth := by
  simp only [PtrFile.wf, Bool.and_eq_true] at h
  replace h := h.2
  induction p with
  | nil => exact Nat.two_pow_pos _
  | cons e rest ih =>
    simp only [List.all_cons, Bool.and_eq_true, decide_eq_true_eq] at h
    simp only [PtrFile.read]
    split
    · exact h.1.2
    · exact ih h.2

theorem PtrFile.read_write_other (p : PtrFile) (r q : Rij) (w : Nat) (h : q ≠ r) : (p.write r w).read q = p.read q := by
  unfold PtrFile.write
  split
  · induction p with
    | nil => rfl
    | cons e rest ih =>
      obtain ⟨k, v⟩ := e
      simp only [PtrFile.erase]
      split
      · next hk => subst hk; simp [PtrFile.read, h]
      · simp only [PtrFile.read, ih]
  · induction p with
    | nil => simp [PtrFile.insert, PtrFile.read, h]
    | cons e rest ih =>
      obtain ⟨k, v⟩ := e
      simp only [PtrFile.insert]
      split
      · simp [PtrFile.read, h]
      · split
        · next hk => subst hk; simp [PtrFile.read, h]
        · simp only [PtrFile.read, ih]

theorem applyPtrs_wf (c : Config) (writes : List (Rij × Nat)) (p : PtrFile) (h : p.wf c = true) :
    (applyPtrs c writes p).wf c = true := by
  unfold applyPtrs
  induction writes generalizing p with
  | nil => exact h
  | cons w rest ih =>
    refine ih _ ?_
    dsimp only
    split
    · next hr => exact PtrFile.wf_write c p _ _ hr (Nat.mod_lt _ (Nat.two_pow_pos _)) h
    · exact h

theorem applyPtrs_other (c : Config) (writes : List (Rij × Nat)) (p : PtrFile) (q : Rij) (h : q.wf c = false) :
    (applyPtrs c writes p).read q = p.read q := by
  unfold applyPtrs
  induction writes generalizing p with
  | nil => rfl
  | cons w rest ih =>
    rw [List.foldl_cons, ih]
    split
    · next hw => exact PtrFile.read_write_other _ _ _ _ (by rintro rfl; rw [h] at hw; cases hw)
    · rfl

/-! ## Stepping a pointer -/

theorem ptrSpan_le (c : Config) : ptrSpan c ≤ 2 ^ c.ptrWidth := Nat.pow_le_pow_right (by decide) (Nat.min_le_right ..)

theorem ptrSpan_pos (c : Config) : 0 < ptrSpan c := Nat.two_pow_pos _

theorem ptrSpan_wide {c : Config} (h : 16 ≤ c.ptrWidth) : ptrSpan c = 65536 := by
  unfold ptrSpan
  rw [Nat.min_eq_left h]
  rfl

/-- A step goes on with the sum, whose bits above the address are the pointer's, or is refused. -/
theorem stepPtr_cases (c : Config) (v : Nat) (d : Int) :
    (∃ w : Nat, (w : Int) = v + d ∧ w / ptrSpan c = v / ptrSpan c ∧ stepPtr c v d = .next w)
      ∨ (¬(0 ≤ (v % ptrSpan c : Nat) + d ∧ (v % ptrSpan c : Nat) + d < (ptrSpan c : Nat)) ∧ stepPtr c v d = .refused .addressWrap) := by
  unfold stepPtr
  split
  · next h =>
    have hs := ptrSpan_pos c
    have hm := Nat.div_add_mod v (ptrSpan c)
    refine .inl ⟨((v : Int) + d).toNat, by omega, ?_, rfl⟩
    have hw : ((v : Int) + d).toNat = ptrSpan c * (v / ptrSpan c) + ((v % ptrSpan c : Nat) + d).toNat := by omega
    have h0 : ((v % ptrSpan c : Nat) + d).toNat / ptrSpan c = 0 := Nat.div_eq_of_lt (by omega)
    rw [hw, Nat.mul_add_div hs, h0, Nat.add_zero]
  · next h => exact .inr ⟨h, rfl⟩

theorem stepPtr_lt {c : Config} {v w : Nat} {d : Int} (hv : v < 2 ^ c.ptrWidth) (h : stepPtr c v d = .next w) : w < 2 ^ c.ptrWidth := by
  obtain ⟨w', -, hq, hn⟩ | ⟨-, hn⟩ := stepPtr_cases c v d <;> rw [hn] at h <;> cases h
  have hd : ptrSpan c ∣ 2 ^ c.ptrWidth := Nat.pow_dvd_pow 2 (Nat.min_le_right ..)
  obtain ⟨k, hk⟩ := hd
  rw [hk] at hv ⊢
  rw [Nat.mul_comm, ← Nat.div_lt_iff_lt_mul (ptrSpan_pos c)] at hv ⊢
  rwa [hq]

theorem stepFile_cases (c : Config) (step : Option (Rij × ShortImm)) (base p : PtrFile) :
    (∃ q, stepFile c step base p = .next q) ∨ (step ≠ none ∧ stepFile c step base p = .refused .addressWrap) := by
  cases step with
  | none => exact .inl ⟨p, rfl⟩
  | some x =>
    obtain ⟨w, -, -, h⟩ | ⟨-, h⟩ := stepPtr_cases c (base.read x.1) x.2.toInt
    · exact .inl ⟨p.write x.1 w, by simp only [stepFile, h]; rfl⟩
    · exact .inr ⟨by simp, by simp only [stepFile, h]; rfl⟩

/-- The register an instruction steps is its pointer operand, and belongs to `PTR_FILE`. -/
theorem stepOf_some {e : Effect} {c : Config} {i : Instr} {r : Rij} {d : ShortImm} (h : e.stepOf c i = some (r, d)) :
    ptrOperand i = some r ∧ e.step = some d ∧ r.wf c = true := by
  unfold Effect.stepOf at h
  split at h
  · next h1 h2 =>
    split at h
    · next hw => cases h; exact ⟨h1, h2, hw⟩
    · cases h
  · cases h
  · cases h

theorem stepFile_next {c : Config} {e : Effect} {i : Instr} {base p q : PtrFile} (h : stepFile c (e.stepOf c i) base p = .next q) :
    (base.wf c = true → p.wf c = true → q.wf c = true) ∧ ∀ r, r.wf c = false → q.read r = p.read r := by
  cases hs : e.stepOf c i with
  | none => rw [hs] at h; cases h; exact ⟨fun _ h => h, fun _ _ => rfl⟩
  | some x =>
    obtain ⟨r, d⟩ := x
    rw [hs] at h
    obtain ⟨-, -, hw⟩ := stepOf_some hs
    unfold stepFile at h
    cases hst : stepPtr c (base.read r) d.toInt with
    | next v =>
      simp only [hst, mapRes, andThen] at h
      cases h
      refine ⟨fun hb hp => PtrFile.wf_write c p r v hw (stepPtr_lt (PtrFile.read_lt c base r hb) hst) hp, fun q hq => ?_⟩
      exact PtrFile.read_write_other _ _ _ _ (by rintro rfl; rw [hq] at hw; cases hw)
    | fault f => simp only [hst, mapRes, andThen] at h; cases h
    | refused f => simp only [hst, mapRes, andThen] at h; cases h

end Sys2Proof.Machine
end

