-- ==== Sys2Proof/Laws/Words.lean ====
section
/-! SUPPORT. A double word and its halves (spec/00_scope.md R7). -/

namespace Sys2Proof

@[simp] theorem DWord.hi_make (hi lo : Word) : DWord.hi (DWord.make hi lo) = hi := by
  apply BitVec.eq_of_getLsbD_eq
  intro k hk
  have : 16 + k < 32 := by omega
  simp [hk, this, DWord.make, DWord.hi]

@[simp] theorem DWord.lo_make (hi lo : Word) : DWord.lo (DWord.make hi lo) = lo := by
  apply BitVec.eq_of_getLsbD_eq
  intro k hk
  simp [hk, DWord.make, DWord.lo]

@[simp] theorem DWord.make_halves (v : DWord) : DWord.make v.hi v.lo = v := by
  apply BitVec.eq_of_getLsbD_eq
  intro k hk
  by_cases h : k < 16
  · simp [hk, h, DWord.make, DWord.hi, DWord.lo]
  · have h1 : k - 16 < 16 := by omega
    have h2 : 16 + (k - 16) = k := by omega
    simp [hk, h, h1, h2, DWord.make, DWord.hi, DWord.lo]

end Sys2Proof
end

