-- ==== Sys2Proof/Laws/PerInstr.lean ====
section
/-! SUPPORT. One lemma per instruction about its syntax (spec/30_encoding.md R62, R63). -/

/-- The instruction occupies one or two words, and has a second word of its own exactly when it occupies two. -/
def Sys2Proof.Laws.Lengths.Statement (i : Sys2Proof.Instr) : Prop :=
  (i.words = 1 ∧ i.secondWord = none) ∨ (i.words = 2 ∧ ∃ w1, i.secondWord = some w1)

theorem Sys2Proof.Laws.Lengths.adsi (r : Sys2Proof.Rij) (imm : Sys2Proof.ShortImm) :
    Sys2Proof.Laws.Lengths.Statement (.adsi r imm) := .inl ⟨rfl, rfl⟩

theorem Sys2Proof.Laws.Lengths.aopARam (op : Sys2Proof.AluOp) (ram : Sys2Proof.DirectAddr) (w : Bool) :
    Sys2Proof.Laws.Lengths.Statement (.aopARam op ram w) := .inl ⟨rfl, rfl⟩

theorem Sys2Proof.Laws.Lengths.aopInd (op : Sys2Proof.AluOp) (ad : Sys2Proof.Acc) (src : Sys2Proof.Acc) (r : Sys2Proof.Rij) (w : Bool) :
    Sys2Proof.Laws.Lengths.Statement (.aopInd op ad src r w) := .inl ⟨rfl, rfl⟩

theorem Sys2Proof.Laws.Lengths.aopPtr (op : Sys2Proof.AluOp) (ad : Sys2Proof.Acc) (src : Sys2Proof.Acc) (r : Sys2Proof.Rij) :
    Sys2Proof.Laws.Lengths.Statement (.aopPtr op ad src r) := .inl ⟨rfl, rfl⟩

theorem Sys2Proof.Laws.Lengths.aopReg (op : Sys2Proof.AluOp) (ad : Sys2Proof.Acc) (src : Sys2Proof.Acc) (sr : Sys2Proof.RegAddr) (w : Bool) :
    Sys2Proof.Laws.Lengths.Statement (.aopReg op ad src sr w) := .inl ⟨rfl, rfl⟩

theorem Sys2Proof.Laws.Lengths.aopi (op : Sys2Proof.AluOp) (ad : Sys2Proof.Acc) (src : Sys2Proof.Acc) (w1 : Sys2Proof.Word) :
    Sys2Proof.Laws.Lengths.Statement (.aopi op ad src w1) := .inr ⟨rfl, w1, rfl⟩

theorem Sys2Proof.Laws.Lengths.aopsi (op : Sys2Proof.AluOp) (src : Sys2Proof.Acc) (imm : Sys2Proof.ShortImm) :
    Sys2Proof.Laws.Lengths.Statement (.aopsi op src imm) := .inl ⟨rfl, rfl⟩

theorem Sys2Proof.Laws.Lengths.bra (k : Sys2Proof.Cond) (w1 : Sys2Proof.Word) :
    Sys2Proof.Laws.Lengths.Statement (.bra k w1) := .inr ⟨rfl, w1, rfl⟩

theorem Sys2Proof.Laws.Lengths.call (k : Sys2Proof.Cond) (w1 : Sys2Proof.Word) :
    Sys2Proof.Laws.Lengths.Statement (.call k w1) := .inr ⟨rfl, w1, rfl⟩

theorem Sys2Proof.Laws.Lengths.incInd (r : Sys2Proof.Rij) (k : Option Sys2Proof.Cond) :
    Sys2Proof.Laws.Lengths.Statement (.incInd r k) := .inl ⟨rfl, rfl⟩

theorem Sys2Proof.Laws.Lengths.decInd (r : Sys2Proof.Rij) (k : Sys2Proof.Cond) :
    Sys2Proof.Laws.Lengths.Statement (.decInd r k) := .inl ⟨rfl, rfl⟩

theorem Sys2Proof.Laws.Lengths.incReg (sr : Sys2Proof.RegAddr) (k : Option Sys2Proof.Cond) :
    Sys2Proof.Laws.Lengths.Statement (.incReg sr k) := .inl ⟨rfl, rfl⟩

theorem Sys2Proof.Laws.Lengths.decReg (sr : Sys2Proof.RegAddr) (k : Sys2Proof.Cond) :
    Sys2Proof.Laws.Lengths.Statement (.decReg sr k) := .inl ⟨rfl, rfl⟩

theorem Sys2Proof.Laws.Lengths.ldARam (ram : Sys2Proof.DirectAddr) (w : Bool) :
    Sys2Proof.Laws.Lengths.Statement (.ldARam ram w) := .inl ⟨rfl, rfl⟩

theorem Sys2Proof.Laws.Lengths.ldRamA (ram : Sys2Proof.DirectAddr) (w : Bool) :
    Sys2Proof.Laws.Lengths.Statement (.ldRamA ram w) := .inl ⟨rfl, rfl⟩

theorem Sys2Proof.Laws.Lengths.ldDInd (d : Sys2Proof.RegAddr) (r : Sys2Proof.Rij) (w : Bool) :
    Sys2Proof.Laws.Lengths.Statement (.ldDInd d r w) := .inl ⟨rfl, rfl⟩

theorem Sys2Proof.Laws.Lengths.ldIndS (r : Sys2Proof.Rij) (sr : Sys2Proof.RegAddr) (w : Bool) :
    Sys2Proof.Laws.Lengths.Statement (.ldIndS r sr w) := .inl ⟨rfl, rfl⟩

theorem Sys2Proof.Laws.Lengths.ldDIndp (d : Sys2Proof.RegAddr) (r : Sys2Proof.Rij) :
    Sys2Proof.Laws.Lengths.Statement (.ldDIndp d r) := .inl ⟨rfl, rfl⟩

theorem Sys2Proof.Laws.Lengths.ldIndpS (r : Sys2Proof.Rij) (sr : Sys2Proof.RegAddr) :
    Sys2Proof.Laws.Lengths.Statement (.ldIndpS r sr) := .inl ⟨rfl, rfl⟩
end

