-- ==== Sys2Proof/Laws/Run.lean ====
section
/-! SUPPORT. One lemma per shared operation that says once everything it can do: `andThen`, `advance`, `access`, `runAccesses`, the
condition, `applyEffect`, `run`, `exec`, `runDecoded`, `fetchRun` (spec/30_encoding.md R72). -/

namespace Sys2Proof.Machine

theorem andThen_next {α β : Type} {r : Res α} {f : α → Res β} {b : β} (h : andThen r f = .next b) :
    ∃ a, r = .next a ∧ f a = .next b := by
  cases r with
  | next a => exact ⟨a, rfl, h⟩
  | fault e => cases h
  | refused e => cases h

theorem mapRes_next {α β : Type} {r : Res α} {f : α → β} {b : β} (h : mapRes f r = .next b) :
    ∃ a, r = .next a ∧ f a = b := by
  obtain ⟨a, ha, hb⟩ := andThen_next h
  cases hb
  exact ⟨a, ha, rfl⟩

/-- What the frame of R72 says of a state `t` reached from `s` by the instruction `i`, the pc apart. -/
structure Kept (i : Instr) (s t : State) : Prop where
  prog : t.prog = s.prog
  bf : t.bf = s.bf
  selbf : t.selbf = s.selbf
  holes : t.holes = s.holes
  spaces : t.spaces = s.spaces
  rc : s.selbf = true → t.rc = s.rc
  st : namesSt i = false → t.st &&& protectedMask Config.chip.stLayout = s.st &&& protectedMask Config.chip.stLayout

theorem Kept.refl (i : Instr) (s : State) : Kept i s s := ⟨rfl, rfl, rfl, rfl, rfl, fun _ => rfl, fun _ => rfl⟩

theorem Kept.trans {i : Instr} {s t u : State} (h : Kept i s t) (h' : Kept i t u) : Kept i s u where
  prog := h'.prog.trans h.prog
  bf := h'.bf.trans h.bf
  selbf := h'.selbf.trans h.selbf
  holes := h'.holes.trans h.holes
  spaces := h'.spaces.trans h.spaces
  rc hs := (h'.rc (h.selbf.trans hs)).trans (h.rc hs)
  st hn := (h'.st hn).trans (h.st hn)

theorem advance_next {i : Instr} {a : Word} {t u : State} (h : advance i a t = .next u) :
    (isTransfer i = true ∧ u = t)
      ∨ (isTransfer i = false ∧ a.toNat + i.words < 65536 ∧ u = t.setPc (a + BitVec.ofNat 16 i.words)) := by
  unfold advance at h
  split at h
  · next hi => cases h; exact .inl ⟨hi, rfl⟩
  · next hi =>
    split at h
    · next ha => cases h; exact .inr ⟨by simpa using hi, ha, rfl⟩
    · cases h

theorem advance_kept {i : Instr} {a : Word} {t u : State} (h : advance i a t = .next u) : Kept i t u := by
  obtain ⟨-, rfl⟩ | ⟨-, -, rfl⟩ := advance_next h
  · exact Kept.refl i u
  · exact ⟨rfl, rfl, rfl, rfl, rfl, fun _ => rfl, fun _ => rfl⟩

/-! ## Memory that holds a value everywhere -/

theorem readable_iff (s : State) : s.readable ↔ ∀ sp a, s.present sp a = true ∧ (s.word? sp a).isSome = true := by
  refine forall_congr' fun sp => forall_congr' fun a => ?_
  obtain ⟨v, hp, hv, hm⟩ | ⟨hp, hv, hm⟩ | ⟨hp, hm⟩ := memRead_cases s sp a <;> simp [*]

theorem readable_setWord {s : State} (h : s.readable) (sp : Space) (a v : Word) : (s.setWord sp a v).readable := by
  rw [readable_iff] at h ⊢
  intro q b
  refine ⟨by simpa using (h q b).1, ?_⟩
  rw [setWord_word?]
  split
  · rfl
  · exact (h q b).2

/-! ## Accesses -/

theorem checkDouble_next {c : Config} {s : State} {sp : Space} {a : Word} {u : Unit} (h : checkDouble c s sp a = .next u) :
    s.present (place c.dwOrder sp a).1.1 (place c.dwOrder sp a).1.2 = true
      ∧ s.present (place c.dwOrder sp a).2.1 (place c.dwOrder sp a).2.2 = true := by
  unfold checkDouble at h
  split at h
  · cases h
  · split at h
    · cases h
    · split at h
      · next hp => simpa using hp
      · cases h

theorem place_data {o : DwOrder} {sp : Space} (h : sp ≠ .prog) (a : Word) :
    (place o sp a).1.1 ≠ .prog ∧ (place o sp a).2.1 ≠ .prog := by
  cases o <;> simp [place, h]

/-- Everything an access can leave behind: the state as it was, or one or two words written at present addresses of a data memory. -/
theorem access_next {c : Config} {s t : State} {x : Access} (h : access c s x = .next t) (P : State → Prop) (hs : P s)
    (hw : ∀ u sp a v, sp ≠ Space.prog → u.holes = s.holes → s.present sp a = true → P u → P (u.setWord sp a v)) : P t := by
  cases x with
  | read sp a => obtain ⟨-, -, rfl⟩ := mapRes_next h; exact hs
  | readDouble sp a => obtain ⟨-, -, rfl⟩ := mapRes_next h; exact hs
  | store sp a v =>
    obtain ⟨h1, h2, rfl⟩ := memWrite_next _ _ _ _ _ h
    exact hw _ _ _ _ h1 rfl h2 hs
  | storeDouble sp a v =>
    obtain ⟨h1, h2, rfl⟩ := memWriteDouble_next _ _ _ _ _ _ h
    have hp := checkDouble_next h2
    have hd := place_data (o := c.dwOrder) h1 a
    exact hw _ _ _ _ hd.2 (setWord_holes ..) hp.2 (hw _ _ _ _ hd.1 rfl hp.1 hs)
  | pastEnd => cases h

/-- A property that every word written at a present address of a data memory keeps, accesses keep. -/
theorem runAccesses_induction {c : Config} {l : List Access} {s t : State} (h : runAccesses c l s = .next t) (P : State → Prop) (hs : P s)
    (hw : ∀ u sp a v, sp ≠ Space.prog → u.holes = s.holes → s.present sp a = true → P u → P (u.setWord sp a v)) : P t := by
  suffices h' : P t ∧ t.holes = s.holes from h'.1
  have key : ∀ (l : List Access) (u : State), runAccesses c l u = .next t → P u → u.holes = s.holes → P t ∧ t.holes = s.holes := by
    intro l
    induction l with
    | nil => intro u h hu hh; cases h; exact ⟨hu, hh⟩
    | cons x rest ih =>
      intro u h hu hh
      obtain ⟨w, hx, h⟩ := andThen_next h
      have := access_next hx (fun w => P w ∧ w.holes = s.holes) ⟨hu, hh⟩ fun w sp a v h1 h2 h3 h4 =>
        ⟨hw w sp a v h1 h4.2 (by simpa only [State.present, hh] using h3) h4.1, (setWord_holes ..).trans h4.2⟩
      exact ih w h this.1 this.2
  exact key l s h hs rfl

/-- Accesses change the two data memories and nothing else. -/
theorem runAccesses_next {c : Config} {l : List Access} {s t : State} (h : runAccesses c l s = .next t) :
    ∃ d0 d1, t = { s with data0 := d0, data1 := d1 } := by
  refine runAccesses_induction h (fun t => ∃ d0 d1, t = { s with data0 := d0, data1 := d1 }) ⟨_, _, rfl⟩ ?_
  rintro u sp a v hsp - - ⟨d0, d1, rfl⟩
  cases sp with
  | prog => exact absurd rfl hsp
  | data0 => exact ⟨_, _, rfl⟩
  | data1 => exact ⟨_, _, rfl⟩

theorem runAccesses_append (c : Config) (l r : List Access) (s : State) :
    runAccesses c (l ++ r) s = andThen (runAccesses c l s) (runAccesses c r) := by
  induction l generalizing s with
  | nil => rfl
  | cons x rest ih =>
    simp only [List.cons_append, runAccesses]
    cases access c s x with
    | next t => exact ih t
    | fault f => rfl
    | refused f => rfl

/-- The word at an address after accesses: the last value stored there, or the word before. -/
theorem runAccesses_word {c : Config} {l : List Access} {s t : State} (h : runAccesses c l s = .next t) (sp : Space) (a : Word) :
    t.word? sp a = (lastStore (storesOf c l) sp a).or (s.word? sp a) := by
  induction l generalizing s with
  | nil => cases h; rfl
  | cons x rest ih =>
    obtain ⟨u, hx, h⟩ := andThen_next h
    rw [ih h]
    have one : ∀ (w : State) (q : Space) (b v : Word), (w.setWord q b v).word? sp a
        = (if q = sp ∧ b = a then some v else none).or (w.word? sp a) := by
      intro w q b v
      rw [setWord_word?]
      by_cases hq : sp = q ∧ a = b
      · rw [if_pos hq, if_pos ⟨hq.1.symm, hq.2.symm⟩]; rfl
      · rw [if_neg hq, if_neg fun h => hq ⟨h.1.symm, h.2.symm⟩]; rfl
    cases x with
    | read q b => obtain ⟨-, -, rfl⟩ := mapRes_next hx; rfl
    | readDouble q b => obtain ⟨-, -, rfl⟩ := mapRes_next hx; rfl
    | store q b v =>
      obtain ⟨-, -, rfl⟩ := memWrite_next _ _ _ _ _ hx
      simp only [storesOf, lastStore, one, Option.or_assoc]
    | storeDouble q b v =>
      obtain ⟨-, -, rfl⟩ := memWriteDouble_next _ _ _ _ _ _ hx
      simp only [storesOf, lastStore, one, Option.or_assoc]
    | pastEnd => cases hx

theorem mapRes_mapRes {α β γ : Type} (f : α → β) (g : β → γ) (r : Res α) : mapRes g (mapRes f r) = mapRes (fun a => g (f a)) r := by
  cases r <;> rfl

/-- An update that leaves memories and holes alone and commutes with a word written commutes with accesses. -/
theorem runAccesses_map {f : State → State} (hh : ∀ s, (f s).holes = s.holes) (hm : ∀ s sp, (f s).mem sp = s.mem sp)
    (hw : ∀ s sp a v, (f s).setWord sp a v = f (s.setWord sp a v)) (c : Config) (l : List Access) (s : State) :
    runAccesses c l (f s) = mapRes f (runAccesses c l s) := by
  have hp : ∀ s sp a, (f s).present sp a = s.present sp a := fun s sp a => by simp only [State.present, hh]
  have hv : ∀ s sp a, (f s).word? sp a = s.word? sp a := fun s sp a => by simp only [State.word?, hm]
  have hc : ∀ s sp a, checkDouble c (f s) sp a = checkDouble c s sp a := fun s sp a => by simp only [checkDouble, hp]
  have hx : ∀ s x, access c (f s) x = mapRes f (access c s x) := by
    intro s x
    cases x with
    | read sp a =>
      have : memRead (f s) sp a = memRead s sp a := by simp only [memRead, hp, hv]
      simp only [access, this, mapRes_mapRes]
    | readDouble sp a =>
      have : memReadDouble c (f s) sp a = memReadDouble c s sp a := by simp only [memReadDouble, hc, hv]
      simp only [access, this, mapRes_mapRes]
    | store sp a v =>
      simp only [access, memWrite, hp, hw]
      split
      · rfl
      · split <;> rfl
    | storeDouble sp a v =>
      simp only [access, memWriteDouble, hc, hw]
      split
      · rfl
      · cases checkDouble c s sp a <;> rfl
    | pastEnd => rfl
  induction l generalizing s with
  | nil => rfl
  | cons x rest ih =>
    simp only [runAccesses, hx]
    cases access c s x with
    | next t => exact ih t
    | fault e => rfl
    | refused e => rfl

/-- The reasons an access is refused for: it has no address, it stores to `PROG`, or it is a double word that its alignment or the end of
memory forbids, which only a consecutive order has. -/
def AccessRefusal (c : Config) (x : Access) (e : Refusal) : Prop :=
  match x with
  | .pastEnd => e = .addressWrap
  | .read _ _ => False
  | .store sp _ _ => sp = .prog ∧ e = .programWrite
  | .readDouble _ _ => c.dwOrder.consecutive = true ∧ (e = .dwMisaligned ∨ (e = .addressWrap ∧ c.dwAlign = .any))
  | .storeDouble sp _ _ => (sp = .prog ∧ e = .programWrite)
      ∨ (c.dwOrder.consecutive = true ∧ (e = .dwMisaligned ∨ (e = .addressWrap ∧ c.dwAlign = .any)))

/-- A double word is refused only under a consecutive order, and for wrapping only under `any`. -/
theorem checkDouble_cases (c : Config) (s : State) (sp : Space) (a : Word) :
    (∃ u, checkDouble c s sp a = .next u) ∨ checkDouble c s sp a = .fault .stuck
      ∨ ∃ e, checkDouble c s sp a = .refused e
          ∧ c.dwOrder.consecutive = true ∧ (e = .dwMisaligned ∨ (e = .addressWrap ∧ c.dwAlign = .any)) := by
  unfold checkDouble
  split
  · next h => exact .inr (.inr ⟨_, rfl, h.1, .inl rfl⟩)
  · next hn =>
    split
    · next h =>
      obtain ⟨h1, rfl⟩ := h
      refine .inr (.inr ⟨_, rfl, h1, .inr ⟨rfl, ?_⟩⟩)
      cases ha : c.dwAlign with
      | any => rfl
      | evenOnly => exact absurd ⟨h1, ha, by decide⟩ hn
    · split
      · exact .inl ⟨_, rfl⟩
      · exact .inr (.inl rfl)

/-- The ways an access can end. -/
theorem access_cases (c : Config) (s : State) (x : Access) :
    (∃ t, access c s x = .next t) ∨ (∃ f, access c s x = .fault f ∧ (f = .stuck ∨ f = .readOfUnwritten))
      ∨ ∃ e, access c s x = .refused e ∧ AccessRefusal c x e := by
  cases x with
  | read sp a =>
    obtain ⟨v, -, -, h⟩ | ⟨-, -, h⟩ | ⟨-, h⟩ := memRead_cases s sp a <;> simp only [access, h]
    · exact .inl ⟨_, rfl⟩
    · exact .inr (.inl ⟨_, rfl, .inr rfl⟩)
    · exact .inr (.inl ⟨_, rfl, .inl rfl⟩)
  | store sp a v =>
    simp only [access, memWrite]
    split
    · next h => exact .inr (.inr ⟨_, rfl, h, rfl⟩)
    · split
      · exact .inl ⟨_, rfl⟩
      · exact .inr (.inl ⟨_, rfl, .inl rfl⟩)
  | readDouble sp a =>
    obtain ⟨u, -, ⟨v, h⟩ | h⟩ | ⟨f, hf, h⟩ | ⟨e, he, h⟩ := memReadDouble_cases c s sp a <;> simp only [access, h]
    · exact .inl ⟨_, rfl⟩
    · exact .inr (.inl ⟨_, rfl, .inr rfl⟩)
    · obtain ⟨u, hd⟩ | hd | ⟨e, hd, -⟩ := checkDouble_cases c s sp a <;> rw [hd] at hf <;> cases hf
      exact .inr (.inl ⟨_, rfl, .inl rfl⟩)
    · obtain ⟨u, hd⟩ | hd | ⟨e', hd, hee⟩ := checkDouble_cases c s sp a <;> rw [hd] at he <;> cases he
      exact .inr (.inr ⟨_, rfl, hee⟩)
  | storeDouble sp a v =>
    simp only [access, memWriteDouble]
    split
    · next h => exact .inr (.inr ⟨_, rfl, .inl ⟨h, rfl⟩⟩)
    · obtain ⟨u, h⟩ | h | ⟨e, h, he⟩ := checkDouble_cases c s sp a <;> simp only [h, andThen]
      · exact .inl ⟨_, rfl⟩
      · exact .inr (.inl ⟨_, rfl, .inl rfl⟩)
      · exact .inr (.inr ⟨e, rfl, .inr he⟩)
  | pastEnd => exact .inr (.inr ⟨_, rfl, rfl⟩)

/-- The ways accesses can end: one that is refused stands in the list. -/
theorem runAccesses_cases (c : Config) (l : List Access) (s : State) :
    (∃ t, runAccesses c l s = .next t) ∨ (∃ f, runAccesses c l s = .fault f ∧ (f = .stuck ∨ f = .readOfUnwritten))
      ∨ ∃ e, runAccesses c l s = .refused e ∧ ∃ x ∈ l, AccessRefusal c x e := by
  induction l generalizing s with
  | nil => exact .inl ⟨s, rfl⟩
  | cons x rest ih =>
    obtain ⟨t, h⟩ | ⟨f, h, hf⟩ | ⟨e, h, he⟩ := access_cases c s x <;> simp only [runAccesses, h, andThen]
    · obtain h | h | ⟨e, h, y, hy, he⟩ := ih t
      · exact .inl h
      · exact .inr (.inl h)
      · exact .inr (.inr ⟨e, h, y, List.mem_cons_of_mem _ hy, he⟩)
    · exact .inr (.inl ⟨f, rfl, hf⟩)
    · exact .inr (.inr ⟨e, rfl, x, List.mem_cons_self .., he⟩)

/-! ## The accesses an instruction makes -/

theorem addressSum_cases (n : Int) :
    (0 ≤ n ∧ n < 65536 ∧ addressSum n = .next (BitVec.ofInt 16 n)) ∨ (¬(0 ≤ n ∧ n < 65536) ∧ addressSum n = .refused .addressWrap) := by
  unfold addressSum
  split
  · next h => exact .inl ⟨h.1, h.2, rfl⟩
  · next h => exact .inr ⟨h, rfl⟩

theorem reaches_at {i : Instr} {s : State} {x : Access} (h : reaches i s x = true) (a : Word) : reaches i s (x.at a) = true := by
  cases x <;> exact h

/-- An access an instruction makes is one it reaches, or has an effective address past the end of a memory. -/
theorem made_cases {e : Effect} {i : Instr} {s : State} {x : Access} (h : x ∈ e.made i s) :
    reaches i s x = true ∨ (x = .pastEnd ∧ memOperand i ≠ .none ∧ ∃ b d, effAddr i b d s.hidden = .refused .addressWrap) := by
  obtain ⟨q, hq, rfl⟩ := List.mem_map.1 h
  have hr : reaches i s q.access = true := (List.mem_filter.1 hq).2
  unfold Request.formed
  split
  · exact .inl hr
  · next b d _ =>
    split
    · exact .inl (reaches_at hr _)
    · next hv =>
      have key : ∀ n, value? (addressSum n) = none → addressSum n = .refused .addressWrap := fun n hn => by
        obtain ⟨-, -, h⟩ | ⟨-, h⟩ := addressSum_cases n
        · rw [h] at hn; cases hn
        · exact h
      have hn : memOperand i ≠ .none := fun hm => by simp only [effAddr, hm] at hv; cases hv
      refine .inr ⟨rfl, hn, b, d, ?_⟩
      unfold effAddr at hv ⊢
      split at hv
      · next hm => exact absurd hm hn
      all_goals exact key _ hv

theorem made_of_none {e : Effect} {i : Instr} {s : State} (h : memOperand i = .none) : e.made i s = [] := by
  have : e.accesses.filter (fun q => reaches i s q.access) = [] := by
    refine List.filter_eq_nil_iff.2 fun q _ hx => ?_
    cases ha : q.access <;> simp [reaches, memorySpaces, h, ha] at hx
  unfold Effect.made
  rw [this]
  rfl

theorem made_hidden (e : Effect) (i : Instr) (s : State) : e.made i s.hidden = e.made i s := by
  have hf : ∀ q : Request, q.formed i s.hidden = q.formed i s := fun q => by simp only [Request.formed, hidden_hidden]
  have hr : ∀ x, reaches i s.hidden x = reaches i s x := fun x => by cases x <;> rfl
  simp only [Effect.made, hf, hr]

/-- Where nothing stops the forming of an effective address, every access made has an address. -/
theorem MemoryReady.no_pastEnd {i : Instr} {s : State} (hm : MemoryReady i s) (b : RegAddr) (d : ShortImm) :
    effAddr i b d s.hidden ≠ .refused .addressWrap := by
  have hd1 : -(2 ^ 14 : Int) ≤ d.toInt := BitVec.le_toInt d
  have hd2 : d.toInt < (2 ^ 14 : Int) := BitVec.toInt_lt
  have key : ∀ n : Int, 0 ≤ n → n < 65536 → addressSum n ≠ .refused .addressWrap := fun n h1 h2 h => by
    obtain ⟨-, -, h'⟩ | ⟨h', -⟩ := addressSum_cases n
    · rw [h'] at h; cases h
    · exact h' ⟨h1, h2⟩
  have hptr : ∀ r, ptrOperand i = some r → addressSum ((s.hidden.ptrAddr r).toNat + d.toInt) ≠ .refused .addressWrap := fun r hr => by
    obtain ⟨h1, h2⟩ := hm.pointer r hr
    have : (s.hidden.ptrAddr r).toNat = s.readPtr r % 65536 := BitVec.toNat_ofNat ..
    exact key _ (by omega) (by omega)
  unfold effAddr
  cases hi : memOperand i with
  | none => exact fun h => by cases h
  | direct ram => exact key _ (by omega) (by have := hm.direct ram hi b; omega)
  | pointer r => exact hptr r (by cases i <;> cases hi <;> rfl)
  | pointerP r => exact hptr r (by cases i <;> cases hi <;> rfl)
  | stack =>
    have hs : 0x4000 ≤ s.hidden.sp.toNat ∧ s.hidden.sp.toNat ≤ 0xC000 := hm.stack hi
    exact key _ (by omega) (by omega)

theorem access_readable {c : Config} {s t : State} {x : Access} (hm : s.readable) (h : access c s x = .next t) : t.readable :=
  access_next h State.readable hm fun _ _ _ _ _ _ _ hu => readable_setWord hu _ _ _

theorem access_no_fault (c : Config) {s : State} (x : Access) (hm : s.readable) (f : Fault) : access c s x ≠ .fault f := by
  have hr := (readable_iff s).1 hm
  have hc : ∀ sp a, checkDouble c s sp a ≠ .fault f := by
    intro sp a
    unfold checkDouble
    simp only [(hr _ _).1, Bool.and_self, if_true]
    split
    · exact fun h => by cases h
    · split <;> exact fun h => by cases h
  intro h
  cases x with
  | read sp a => obtain ⟨v, hv⟩ := hm sp a; simp only [access, hv] at h; cases h
  | store sp a v =>
    simp only [access, memWrite, (hr _ _).1, if_true] at h
    split at h <;> cases h
  | readDouble sp a =>
    simp only [access, memReadDouble] at h
    cases hd : checkDouble c s sp a with
    | next u =>
      obtain ⟨hi, hhi⟩ := Option.isSome_iff_exists.1 (hr (place c.dwOrder sp a).1.1 (place c.dwOrder sp a).1.2).2
      obtain ⟨lo, hlo⟩ := Option.isSome_iff_exists.1 (hr (place c.dwOrder sp a).2.1 (place c.dwOrder sp a).2.2).2
      simp only [hd, hhi, hlo, andThen, mapRes] at h
      cases h
    | fault e => exact hc sp a (by rw [hd]; simp only [hd, andThen, mapRes] at h; cases h; rfl)
    | refused e => simp only [hd, andThen, mapRes] at h; cases h
  | storeDouble sp a v =>
    simp only [access, memWriteDouble] at h
    split at h
    · cases h
    · cases hd : checkDouble c s sp a with
      | next u => simp only [hd, andThen] at h; cases h
      | fault e => exact hc sp a (by rw [hd]; simp only [hd, andThen] at h; cases h; rfl)
      | refused e => simp only [hd, andThen] at h; cases h
  | pastEnd => cases h

theorem runAccesses_no_fault (c : Config) (l : List Access) {s : State} (hm : s.readable) (f : Fault) :
    runAccesses c l s ≠ .fault f := by
  induction l generalizing s with
  | nil => exact fun h => by cases h
  | cons x rest ih =>
    simp only [runAccesses]
    cases h : access c s x with
    | next t => exact ih (access_readable hm h)
    | fault e => exact absurd h (access_no_fault c x hm e)
    | refused e => exact fun h => by cases h

/-! ## The condition, the effect, the run -/

theorem settle_kept {i : Instr} {names transfer : Bool} {e : Change} {p : PtrFile} {s : State} (hn : names = true → namesSt i = true) :
    Kept i s (settle Config.chip names transfer e p s) where
  prog := rfl
  bf := rfl
  selbf := rfl
  holes := rfl
  spaces := rfl
  rc h := by simp [h]
  st h := by
    rw [settle_st]
    refine keepProtected_masked _ _ _ _ ?_
    cases names with
    | false => rfl
    | true => exact absurd (hn rfl) (by simp [h])

/-- The condition changes registers and pointer registers inside the frame; memories, the holes, BF and the pc stay. -/
theorem evalOperand_cases (c : Config) (i : Instr) (s : State) :
    (condOperand i = none ∧ evalOperand c i s = (none, s))
      ∨ ∃ k, condOperand i = some k
          ∧ evalOperand c i s = (some (Config.freeCond k s.hidden).1, settle c false false (Config.freeCond k s.hidden).2 s.ptr s) := by
  unfold evalOperand
  cases h : condOperand i with
  | none => exact .inl ⟨rfl, rfl⟩
  | some k => exact .inr ⟨k, rfl, rfl⟩

@[simp] theorem evalOperand_mem (c : Config) (i : Instr) (s : State) (sp : Space) : (evalOperand c i s).2.mem sp = s.mem sp := by
  obtain ⟨-, h⟩ | ⟨k, -, h⟩ := evalOperand_cases c i s <;> simp [h]
@[simp] theorem evalOperand_word? (c : Config) (i : Instr) (s : State) (sp : Space) (a : Word) :
    (evalOperand c i s).2.word? sp a = s.word? sp a := by
  simp [State.word?]
@[simp] theorem evalOperand_holes (c : Config) (i : Instr) (s : State) : (evalOperand c i s).2.holes = s.holes := by
  obtain ⟨-, h⟩ | ⟨k, -, h⟩ := evalOperand_cases c i s <;> simp [h]
@[simp] theorem evalOperand_pc (c : Config) (i : Instr) (s : State) : (evalOperand c i s).2.pc = s.pc := by
  obtain ⟨-, h⟩ | ⟨k, -, h⟩ := evalOperand_cases c i s <;> simp [h]
@[simp] theorem evalOperand_selbf (c : Config) (i : Instr) (s : State) : (evalOperand c i s).2.selbf = s.selbf := by
  obtain ⟨-, h⟩ | ⟨k, -, h⟩ := evalOperand_cases c i s <;> simp [h]
@[simp] theorem evalOperand_data0 (c : Config) (i : Instr) (s : State) : (evalOperand c i s).2.data0 = s.data0 := evalOperand_mem c i s .data0
@[simp] theorem evalOperand_data1 (c : Config) (i : Instr) (s : State) : (evalOperand c i s).2.data1 = s.data1 := evalOperand_mem c i s .data1

theorem evalOperand_ptr_wf {c : Config} (i : Instr) {s : State} (h : s.ptr.wf c = true) : (evalOperand c i s).2.ptr.wf c = true := by
  obtain ⟨-, he⟩ | ⟨k, -, he⟩ := evalOperand_cases c i s <;> simp only [he]
  · exact h
  · exact applyPtrs_wf _ _ _ h

theorem evalOperand_ptr_other {c : Config} (i : Instr) (s : State) {r : Rij} (hr : r.wf c = false) :
    (evalOperand c i s).2.readPtr r = s.readPtr r := by
  obtain ⟨-, he⟩ | ⟨k, -, he⟩ := evalOperand_cases c i s <;> simp only [he]
  exact applyPtrs_other _ _ _ _ hr

theorem evalOperand_readable {c : Config} (i : Instr) {s : State} (h : s.readable) : (evalOperand c i s).2.readable := by
  rw [readable_iff] at h ⊢
  simpa [State.present] using h

theorem evalOperand_kept (i : Instr) (s : State) : Kept i s (evalOperand Config.chip i s).2 := by
  obtain ⟨-, h⟩ | ⟨k, -, h⟩ := evalOperand_cases Config.chip i s <;> rw [h]
  · exact Kept.refl i s
  · exact settle_kept (by simp)

/-- SP after an effect: the semantic function's, or stepped from the value it held. -/
theorem stepSp_cases (step : Option ShortImm) (base v : Word) :
    (∃ w, stepSp step base v = .next w ∧ (step = none → w = v) ∧ ∀ d, step = some d → (w.toNat : Int) = base.toNat + d.toInt)
      ∨ ∃ d, step = some d ∧ addressSum (base.toNat + d.toInt) = .refused .addressWrap ∧ stepSp step base v = .refused .addressWrap := by
  cases step with
  | none => exact .inl ⟨v, rfl, fun _ => rfl, fun d h => by cases h⟩
  | some d =>
    obtain ⟨h1, h2, h⟩ | ⟨-, h⟩ := addressSum_cases (base.toNat + d.toInt)
    · refine .inl ⟨_, h, (fun h => by cases h), fun d' hd => ?_⟩
      cases hd
      rw [BitVec.toNat_ofInt]
      omega
    · exact .inr ⟨d, rfl, h, h⟩

/-- CALL is the one form whose effect steps SP. -/
theorem spStepOf_some {e : Effect} {i : Instr} {d : ShortImm} (h : e.spStepOf i = some d) : memOperand i = .stack ∧ e.step = some d := by
  unfold Effect.spStepOf at h
  split at h
  · next hm => exact ⟨hm, h⟩
  all_goals cases h

/-- Everything an effect can do when it answers a next state: data words stored, the pointer and SP stepped, then its change settled. -/
theorem applyEffect_next {c : Config} {i : Instr} {e : Effect} {base s t : State} (h : applyEffect c i e base s = .next t) :
    ∃ u q v, runAccesses c (e.made i base) s = .next u ∧ stepFile c (e.stepOf c i) base.ptr s.ptr = .next q
      ∧ stepSp (e.spStepOf i) base.sp (e.reg .sp) = .next v
      ∧ t = settle c (namesSt i) (isTransfer i) (e.toChange.withSp v) q u := by
  obtain ⟨u, hu, h⟩ := andThen_next h
  obtain ⟨q, hq, h⟩ := andThen_next h
  obtain ⟨v, hv, rfl⟩ := mapRes_next h
  obtain ⟨d0, d1, rfl⟩ := runAccesses_next hu
  exact ⟨_, q, v, hu, hq, hv, rfl⟩

theorem applyEffect_kept {i : Instr} {e : Effect} {base s t : State} (h : applyEffect Config.chip i e base s = .next t) :
    Kept i s t := by
  obtain ⟨u, q, v, hu, -, -, rfl⟩ := applyEffect_next h
  obtain ⟨d0, d1, rfl⟩ := runAccesses_next hu
  have hk : Kept i s { s with data0 := d0, data1 := d1 } := ⟨rfl, rfl, rfl, rfl, rfl, fun _ => rfl, fun _ => rfl⟩
  exact hk.trans (settle_kept fun h => h)

/-- An effect stops as its accesses do, or because its pointer or SP would step past the last address. -/
theorem applyEffect_stop (c : Config) (i : Instr) (e : Effect) (base s : State) :
    (∃ t, applyEffect c i e base s = .next t) ∨ (∃ f, applyEffect c i e base s = .fault f ∧ runAccesses c (e.made i base) s = .fault f)
      ∨ (∃ r, applyEffect c i e base s = .refused r ∧ runAccesses c (e.made i base) s = .refused r)
      ∨ (applyEffect c i e base s = .refused .addressWrap ∧ (∃ u, runAccesses c (e.made i base) s = .next u)
          ∧ ((e.stepOf c i ≠ none ∧ stepFile c (e.stepOf c i) base.ptr s.ptr = .refused .addressWrap)
            ∨ ∃ d, e.spStepOf i = some d ∧ addressSum (base.sp.toNat + d.toInt) = .refused .addressWrap)) := by
  unfold applyEffect
  cases hu : runAccesses c (e.made i base) s with
  | next u =>
    have hp : u.ptr = s.ptr := by obtain ⟨d0, d1, rfl⟩ := runAccesses_next hu; rfl
    obtain ⟨q, hq⟩ | ⟨hn, hq⟩ := stepFile_cases c (e.stepOf c i) base.ptr s.ptr
    · obtain ⟨v, hv, -⟩ | ⟨d, hd, ha, hv⟩ := stepSp_cases (e.spStepOf i) base.sp (e.reg .sp)
      · exact .inl ⟨_, by simp only [andThen, hp, hq, hv]; rfl⟩
      · exact .inr (.inr (.inr ⟨by simp only [andThen, hp, hq, hv]; rfl, ⟨u, rfl⟩, .inr ⟨d, hd, ha⟩⟩))
    · exact .inr (.inr (.inr ⟨by simp only [andThen, hp, hq], ⟨u, rfl⟩, .inl ⟨hn, hq⟩⟩))
  | fault f => exact .inr (.inl ⟨f, rfl, rfl⟩)
  | refused r => exact .inr (.inr (.inl ⟨r, rfl, rfl⟩))

/-- Everything a run of an instruction can do when it answers a next state. -/
theorem run_next {c : Config} {i : Instr} {s u : State} (h : run c i s = .next u) :
    checkOperand i s = none ∧ ∃ t, runEffect c i s = .next t ∧ advance i s.pc t = .next u := by
  unfold run at h
  split at h
  · cases h
  · next hc => exact ⟨hc, andThen_next h⟩

theorem run_kept {i : Instr} {s u : State} (h : run Config.chip i s = .next u) : Kept i s u := by
  obtain ⟨-, t, ht, ha⟩ := run_next h
  exact ((evalOperand_kept i s).trans (applyEffect_kept ht)).trans (advance_kept ha)

/-- A step of 15 bits from inside a wide pointer stays below the last address. -/
theorem stepFile_inside {c : Config} {i : Instr} (e : Effect) {s : State} (hw : 16 ≤ c.ptrWidth)
    (hp : ∀ r, ptrOperand i = some r → PointerInside r s) (p : PtrFile) : ∃ q, stepFile c (e.stepOf c i) s.ptr p = .next q := by
  cases hs : e.stepOf c i with
  | none => exact ⟨p, rfl⟩
  | some x =>
    obtain ⟨r, d⟩ := x
    obtain ⟨h1, h2⟩ := hp r (stepOf_some hs).1
    have hd1 : -(2 ^ 14 : Int) ≤ d.toInt := BitVec.le_toInt d
    have hd2 : d.toInt < (2 ^ 14 : Int) := BitVec.toInt_lt
    simp only [State.readPtr] at h1 h2
    obtain ⟨w, -, -, h⟩ | ⟨hb, -⟩ := stepPtr_cases c (s.ptr.read r) d.toInt
    · exact ⟨p.write r w, by simp only [stepFile, h]; rfl⟩
    · rw [ptrSpan_wide hw] at hb
      omega

/-- An effect completes where nothing can stop its accesses or its step, but for a double word that stands where its alignment or the end
of memory forbids it, which only a consecutive order has. -/
theorem runEffect_ready {c : Config} {i : Instr} {s : State} (hw : 16 ≤ c.ptrWidth) (hm : MemoryReady i s) :
    (∃ t, runEffect c i s = .next t)
      ∨ (takesDouble i = true ∧ c.dwOrder.consecutive = true ∧ ∃ e, runEffect c i s = .refused e
          ∧ (e = .dwMisaligned ∨ e = .addressWrap) ∧ (c.dwAlign = .evenOnly → e = .dwMisaligned)) := by
  unfold runEffect
  obtain ⟨t, ht⟩ | ⟨f, hf, hf'⟩ | ⟨r, hr, hr'⟩ | ⟨-, -, ⟨-, hs⟩ | ⟨d, hd, hs⟩⟩ :=
    applyEffect_stop c i (semEffect c i s) s (evalOperand c i s).2
  · exact .inl ⟨t, ht⟩
  · by_cases h0 : memOperand i = .none
    · rw [made_of_none h0] at hf'
      cases hf'
    · exact absurd hf' (runAccesses_no_fault c _ (evalOperand_readable i (hm.readable h0)) f)
  · obtain ⟨t, ht⟩ | ⟨f, hf, -⟩ | ⟨e, he, x, hx, hxe⟩ := runAccesses_cases c ((semEffect c i s).made i s) (evalOperand c i s).2
    · rw [ht] at hr'; cases hr'
    · rw [hf] at hr'; cases hr'
    · obtain rfl : e = r := by rw [he] at hr'; injection hr'
      have key : takesDouble i = true → c.dwOrder.consecutive = true → (e = .dwMisaligned ∨ (e = .addressWrap ∧ c.dwAlign = .any)) →
          takesDouble i = true ∧ c.dwOrder.consecutive = true ∧ ∃ e', applyEffect c i (semEffect c i s) s (evalOperand c i s).2 = .refused e'
            ∧ (e' = .dwMisaligned ∨ e' = .addressWrap) ∧ (c.dwAlign = .evenOnly → e' = .dwMisaligned) := fun h1 h2 h3 =>
        ⟨h1, h2, e, hr, h3.imp_right And.left, fun ha => h3.resolve_right fun h => by rw [ha] at h; cases h.2⟩
      have hnp : ∀ sp, sp ∈ memorySpaces i s → sp ≠ .prog := fun sp h h' => hm.data (h' ▸ h)
      obtain hxr | ⟨-, -, b, d, hb⟩ := made_cases hx
      · cases x with
        | pastEnd => cases hxr
        | read sp a => exact hxe.elim
        | store sp a v => exact absurd hxe.1 (hnp sp (of_decide_eq_true hxr))
        | readDouble sp a =>
          simp only [reaches, Bool.and_eq_true] at hxr
          exact .inr (key hxr.2 hxe.1 hxe.2)
        | storeDouble sp a v =>
          simp only [reaches, Bool.and_eq_true] at hxr
          obtain hxe | hxe := hxe
          · exact absurd hxe.1 (hnp sp (of_decide_eq_true hxr.1))
          · exact .inr (key hxr.2 hxe.1 hxe.2)
      · exact absurd hb (hm.no_pastEnd b d)
  · obtain ⟨q, hq⟩ := stepFile_inside (semEffect c i s) hw hm.pointer (evalOperand c i s).2.ptr
    rw [hq] at hs
    cases hs
  · have h := hm.stack (spStepOf_some hd).1
    unfold StackInside at h
    have hd1 : -(2 ^ 14 : Int) ≤ d.toInt := BitVec.le_toInt d
    have hd2 : d.toInt < (2 ^ 14 : Int) := BitVec.toInt_lt
    obtain ⟨-, -, h'⟩ | ⟨h', -⟩ := addressSum_cases (s.sp.toNat + d.toInt)
    · rw [h'] at hs; cases hs
    · omega

theorem chip_wide : 16 ≤ Config.chip.ptrWidth := Nat.le_add_right ..

theorem advance_room {i : Instr} {a : Word} (hp : isTransfer i = true ∨ a.toNat + i.words < 65536) (t : State) :
    ∃ u, advance i a t = .next u := by
  unfold advance
  split
  · exact ⟨_, rfl⟩
  · next ht => exact ⟨_, if_pos (hp.resolve_left ht)⟩

/-- A run completes where the operands are allowed, the pc does not wrap, and nothing it can do in memory stops it. -/
theorem run_completes {c : Config} {i : Instr} {s : State} (hw : 16 ≤ c.ptrWidth) (hc : checkOperand i s = none) (hm : MemoryReady i s)
    (hd : takesDouble i = false ∨ c.dwOrder.consecutive = false) (hp : isTransfer i = true ∨ s.pc.toNat + i.words < 65536) : ∃ u, run c i s = .next u := by
  obtain ⟨t, ht⟩ | ⟨h1, h2, -⟩ := runEffect_ready hw hm
  · obtain ⟨u, hu⟩ := advance_room hp t
    exact ⟨u, by simp only [run, hc, ht, andThen, hu]⟩
  · rcases hd with hd | hd
    · rw [hd] at h1; cases h1
    · rw [hd] at h2; cases h2

/-- Every arm of `exec` is a run of its own instruction. -/
theorem exec_eq_run (i : Instr) (s : State) : exec i s = run Config.chip i s := by cases i <;> rfl

theorem fetchRun_next {c : Config} {f : Instr → State → Res State} {s u : State} (h : fetchRun c f s = .next u) :
    ∃ w0 w1 i, s.word? .prog s.pc = some w0 ∧ decode c w0 w1 = .instr i ∧ f i s = .next u := by
  have key : ∀ d, runDecoded f d s = .next u → ∃ i, d = .instr i ∧ f i s = .next u := fun d hd => by
    cases d with
    | instr i => exact ⟨i, rfl, hd⟩
    | undecoded => cases hd
    | custom => cases hd
    | unlisted => cases hd
  obtain ⟨w0, h0, h⟩ := andThen_next h
  have hw : s.word? .prog s.pc = some w0 := by
    obtain ⟨v, -, hv, hr⟩ | ⟨-, -, hr⟩ | ⟨-, hr⟩ := memRead_cases s .prog s.pc
    · rw [hr] at h0; cases h0; exact hv
    · rw [hr] at h0; cases h0
    · rw [hr] at h0; cases h0
  split at h
  · split at h
    · cases h
    · obtain ⟨w1, -, h⟩ := andThen_next h
      obtain ⟨i, hd, hi⟩ := key _ h
      exact ⟨w0, w1, i, hw, hd, hi⟩
  · obtain ⟨i, hd, hi⟩ := key _ h
    exact ⟨w0, 0, i, hw, hd, hi⟩

/-- The pointer operand of a well-formed instruction belongs to `PTR_FILE`. -/
theorem ptrOperand_wf {c : Config} {i : Instr} {r : Rij} (hw : i.wf c = true) (hr : ptrOperand i = some r) : r.wf c = true := by
  cases i <;> cases hr <;> simp only [Instr.wf, Bool.and_eq_true, decide_eq_true_eq] at hw ⊢ <;> tauto

/-- A step that answers a next state ran a decoded instruction. -/
theorem step_next {s u : State} (h : step s = .next u) : ∃ i, i.wf Config.chip = true ∧ run Config.chip i s = .next u := by
  obtain ⟨w0, w1, i, -, hd, hi⟩ := fetchRun_next h
  refine ⟨i, ?_, (exec_eq_run i s).symm.trans hi⟩
  unfold decode at hd
  split at hd
  · cases hd
  · cases hd
  · cases hd
  · split at hd
    · next hw => cases hd; exact hw.2
    · cases hd
  · split at hd
    · next hw => cases hd; exact hw.2
    · cases hd

end Sys2Proof.Machine
end

