-- ==== Sys2Proof/Tests/Slice0.lean ====
section
/-! SUPPORT. Tests and witnesses.
Expected values come from spec/95_test_vectors.md (V1 to V7, P1 to P4) or from the rule named.
The sources hold no encoding and no instruction semantics, so a test that needs either uses the spec's own hypothetical instantiation H
(spec/95_test_vectors.md part 3), which is no statement about the CD2470A: its `DECODE` is a table of made-up words. -/

namespace Sys2Proof.Tests

open Sys2Proof Sys2Proof.Machine

/-! ## The instantiation H -/

/-- A `DECODE` for the tests: arbitrary words, one per form, and words that break each condition. -/
def wordTable : List (Word × FirstWord) :=
  [(1, .one (.ldDInd .al2 ⟨0, 0⟩ false)), (2, .one (.incReg .al2 none)), (3, .one (.ldIndS ⟨0, 0⟩ .al2 false)),
   (4, .one (.decReg .al2 (.other 0))), (5, .two fun w1 => .bra (.other 1) w1), (6, .one (.ldDInd .al2 ⟨0, 0⟩ true)),
   (7, .one (.ldIndS ⟨0, 1⟩ .al2 true)), (8, .one (.adsi ⟨1, 3⟩ 5)), (9, .two fun w1 => .aopi 0 .acc1 .acc2 w1)]
  ++ [(10, .one (.aopARam 0 0x55 false)), (11, .one (.aopInd 0 .acc0 .acc1 ⟨0, 1⟩ true)), (12, .one (.aopPtr 0 .acc0 .acc1 ⟨1, 0⟩)),
   (13, .one (.aopReg 0 .acc0 .acc1 .x false)), (14, .one (.aopsi 0 .acc3 7)), (15, .two fun w1 => .call (.other 0) w1),
   (16, .one (.incInd ⟨0, 2⟩ (some (.other 1)))), (17, .one (.decInd ⟨0, 2⟩ (.other 0))), (18, .one (.ldARam 0x12 false)),
   (19, .one (.ldRamA 0x12 true)), (20, .one (.ldDIndp .x ⟨0, 0⟩)), (21, .one (.ldIndpS ⟨0, 0⟩ .x))]
  ++ [(0xF0, .custom), (0xF1, .unlisted), (0xF2, .one (.bra (.other 0) 0)), (0xF3, .two fun _ => .adsi ⟨0, 0⟩ 0),
   (0xF4, .one (.adsi ⟨2, 0⟩ 0)), (0xF5, .two fun w1 => .bra (.drz 0) w1), (0xF6, .one (.ldDInd .bfRc ⟨0, 0⟩ false)),
   (0xF7, .one (.ldDInd .pc ⟨0, 0⟩ false)), (0xF8, .one (.ldDInd .st ⟨0, 0⟩ false))]

def lookup (w : Word) : List (Word × FirstWord) → FirstWord
  | [] => .undecoded
  | (k, v) :: rest => if w = k then v else lookup w rest

/-- H's configuration, for a given order of double words. -/
def confH (o : DwOrder) (al : DwAlign := .evenOnly) : Config where
  stLayout := StLayout.fallback
  dwOrder := o
  dwAlign := al
  ptrI := 2
  ptrJ := 4
  ptrWidth := 16
  condDrz := 0
  condOther := 2
  aop := 1
  aopi := 1
  aopsi := 1
  firstWord := fun w => lookup w wordTable

def spOf (r : Rij) : Space := if r.i = 0 then .data0 else .data1

/-- H's conditions: 0 is `T`, 1 is `NZ`. -/
def condH (c : Config) (k : Cond) (s : State) : Res (Bool × State) :=
  .next (if k = .other 0 then true else decide (readField c.stLayout .z s.st = 0), s)

/-- H's semantic functions of the forms P1 to P3 use, and of ADSI; the other forms do nothing. AL2 is the only register operand used with
",w". -/
def semH (c : Config) (cond : CondFn) (i : Instr) (s : State) : Res State :=
  match i with
  | .ldDInd d r w =>
    if w then mapRes (fun v => s.setAcc .acc2 v) (memReadDouble c s (spOf r) (s.ptrAddr r))
    else andThen (memRead s (spOf r) (s.ptrAddr r)) fun v => writeReg s d v
  | .ldIndS r sr w =>
    if w then memWriteDouble c s (spOf r) (s.ptrAddr r) (s.acc .acc2)
    else andThen (readReg s sr) fun v => memWrite s (spOf r) (s.ptrAddr r) v
  | .incReg sr _ => andThen (readReg s sr) fun v => writeReg s sr (v + 1)
  | .decReg sr k =>
    andThen (cond k s) fun p =>
      if p.1 then
        andThen (readReg p.2 sr) fun v =>
          mapRes (fun t => { t with st := writeField c.stLayout .z t.st (if v = 1 then 1 else 0) }) (writeReg p.2 sr (v - 1))
      else .next p.2
  | .bra k w1 => mapRes (fun p => p.2.setPc (if p.1 then w1 else s.pc + 2)) (cond k s)
  | .adsi r d => mapRes (fun v => s.setPtr r v) (stepPtr c (s.readPtr r) d.toInt)
  | _ => .next s

def modelH (c : Config) : Sem where
  cond := condH c
  sem := fun _ => some (semH c)

/-- The frame with a semantic function that changes the state by `f`, for every form. -/
def modelOf (f : State → State) : Sem where
  cond := fun _ s => .next (true, s)
  sem := fun _ => some fun _ _ s => .next (f s)

/-- A launch with words at the pc. -/
def launch (pc : Word) (prog data0 data1 : List (Word × Word)) (ptrs : List (Rij × Nat)) (selbf : Bool := false)
    (holes : List Hole := []) : State :=
  ({ resetPc := pc, prog := prog, holes := holes, selbf := selbf, spaces := ⟨true, true⟩, regs := [], ptrs := ptrs, data0 := data0, data1 := data1 : Launch }).state

/-- One word at the pc and H's step. -/
def stepH (pc w0 w1 : Word) (selbf : Bool := false) : Res State :=
  frameStep (confH .highFirst) (modelH (confH .highFirst))
    (launch pc [(pc, w0), (pc + 1, w1)] [(0x100, 0xFF)] [] [(⟨0, 0⟩, 0x100)] selbf)

/-! ## Well-formedness: an ill-formed term for each check -/

theorem test_wf_pointer_i : (Instr.adsi ⟨2, 0⟩ 0).wf (confH .highFirst) = false := by decide
theorem test_wf_pointer_j : (Instr.ldIndpS ⟨1, 4⟩ .x).wf (confH .highFirst) = false := by decide
theorem test_wf_pointers_of_each_form :
    [Instr.aopInd 0 .acc0 .acc0 ⟨2, 0⟩ false, .aopPtr 0 .acc0 .acc0 ⟨2, 0⟩, .incInd ⟨2, 0⟩ none, .decInd ⟨2, 0⟩ (.other 0),
      .ldDInd .x ⟨2, 0⟩ false, .ldIndS ⟨2, 0⟩ .x false, .ldDIndp .x ⟨2, 0⟩].any (·.wf (confH .highFirst)) = false := by decide
theorem test_wf_operation_of_each_class :
    [Instr.aopARam 1 0 false, .aopInd 1 .acc0 .acc0 ⟨0, 0⟩ false, .aopPtr 1 .acc0 .acc0 ⟨0, 0⟩, .aopReg 1 .acc0 .acc0 .x false,
      .aopi 1 .acc0 .acc0 0, .aopsi 1 .acc0 0].any (·.wf (confH .highFirst)) = false := by decide
/-- V7.1 -/
theorem test_wf_condition_of_each_form :
    [Instr.bra (.drz 0) 0, .call (.ndrz 0) 0, .incInd ⟨0, 0⟩ (some (.other 2)), .decInd ⟨0, 0⟩ (.other 2),
      .incReg .x (some (.drz 0)), .decReg .x (.ndrz 0)].any (·.wf (confH .highFirst)) = false := by decide
theorem test_wf_accepts : (Instr.decInd ⟨1, 3⟩ (.other 1)).wf (confH .highFirst) = true := by decide

/-! ## Decoding (H's words) -/

theorem test_decode_every_form :
    ((List.range 22).map fun n => (decode (confH .highFirst) (BitVec.ofNat 16 n) 0x1234).instr?.map Instr.form)
      = [none, some .LD_D_IND, some .INC_REG, some .LD_IND_S, some .DEC_REG, some .BRA, some .LD_D_IND, some .LD_IND_S, some .ADSI,
         some .AOPI, some .AOP_A_RAM, some .AOP_IND, some .AOP_PTR, some .AOP_REG, some .AOPSI, some .CALL, some .INC_IND,
         some .DEC_IND, some .LD_A_RAM, some .LD_RAM_A, some .LD_D_INDP, some .LD_INDP_S] := by decide
/-- R63: the second word reaches the instruction whole. -/
theorem test_decode_second_word : decode (confH .highFirst) 9 0xBEEF = .instr (.aopi 0 .acc1 .acc2 0xBEEF) := by decide
/-- V4.20: a length other than W, both ways round. -/
theorem test_decode_wrong_length :
    decode (confH .highFirst) 0xF2 0 = .undecoded ∧ decode (confH .highFirst) 0xF3 0 = .undecoded := by decide
/-- V7.1: an operand outside its set. -/
theorem test_decode_outside_sets :
    decode (confH .highFirst) 0xF4 0 = .undecoded ∧ decode (confH .highFirst) 0xF5 0 = .undecoded := by decide
theorem test_decode_words_rest : decodeWords (confH .highFirst) [5, 0x10, 7] = some (.bra (.other 1) 0x10, [7]) := by decide

/-! ## Vectors V1 to V3 -/

/-- V1.1 to V1.3 -/
theorem test_rc_fields : (rcN 0x1234, rcM 0x1234, rcN 0x00FF, rcM 0xFF00) = (0x12, 0x34, 0, 0) := by decide
/-- V1.4 to V1.6 -/
theorem test_tr_count : (trCount 0xFFC5, trCount 0x003F, trCount 0x0020) = (5, 0x3F, 0x20) := by decide
/-- V1.7 to V1.9 -/
theorem test_pm_fields : (pmGuard 0xFE03, pmModifier 0xFE03, pmModifier 0x01FF, pmGuard 0x0200) = (0x7F, 3, 0x1FF, 1) := by decide
/-- V1.10, V1.11 -/
theorem test_accumulators : ({ State.reset with ah0 := 0x1234, al0 := 0x5678 } : State).acc .acc0 = 0x12345678
    ∧ ({ State.reset with ph := 0x8000, pl := 1 } : State).acc .acc3 = 0x80000001 := ⟨by rfl, by rfl⟩
/-- V1.13 to V1.15 -/
theorem test_aliases :
    (value? (writeName State.reset .TH 0xBEEF)).map (fun t => (t.ah1, value? (readName t .AH1))) = some (0xBEEF, some 0xBEEF)
      ∧ (value? (writeName State.reset .PL 1)).map (fun t => value? (readName t .AL3)) = some (some 1)
      ∧ (value? (writeName State.reset .A 0x7FFF)).map (fun t => (t.acc .acc0).hi) = some 0x7FFF := ⟨by rfl, by rfl, by rfl⟩

/-- V2.2, V2.3 -/
def layoutB : StLayout
  | .n => ⟨15, 15⟩ | .ov => ⟨14, 14⟩ | .z => ⟨13, 13⟩ | .cy => ⟨12, 12⟩ | .rz => ⟨11, 11⟩ | .op => ⟨10, 9⟩
  | .iex => ⟨8, 8⟩ | .ie2 => ⟨7, 7⟩ | .ie1 => ⟨6, 6⟩ | .ie0 => ⟨5, 5⟩ | .prl => ⟨4, 0⟩
def layoutC : StLayout := fun f => ⟨10 - f.rank, 10 - f.rank⟩
theorem test_layouts_legal : StLayout.fallback.legal = true ∧ layoutB.legal = true ∧ layoutC.legal = true := by decide
theorem test_layouts_tile : StLayout.fallback.tiles = true ∧ layoutB.tiles = true ∧ layoutC.tiles = false := by decide
/-- V2.4, V2.5 -/
theorem test_layouts_illegal :
    StLayout.legal (fun f => match f with | .z => ⟨12, 12⟩ | .cy => ⟨13, 13⟩ | g => StLayout.fallback g) = false
      ∧ StLayout.legal (fun f => match f with | .prl => ⟨6, 0⟩ | g => StLayout.fallback g) = false := by decide
theorem test_layout_fields :
    (StField.all.map fun f => readField StLayout.fallback f 0xA000) = [1, 0, 1, 0, 0, 0, 0, 0, 0, 0, 0]
      ∧ (StField.all.map fun f => readField layoutC f 0xA000) = [0, 0, 0, 0, 0, 0, 0, 0, 0, 0, 0] := by decide

def wordsAfter (o : DwOrder) (al : DwAlign) (a : Word) : Option (List (Option Word)) :=
  (value? (memWriteDouble (confH o al) State.reset .data0 a 0x12345678)).map fun t =>
    [t.word? .data0 a, t.word? .data0 (a + 1), t.word? .data1 a, t.word? .data1 (a + 1)]

/-- V3.3 to V3.6 -/
theorem test_double_word_orders :
    wordsAfter .highFirst .evenOnly 0x100 = some [some 0x1234, some 0x5678, none, none]
      ∧ wordsAfter .lowFirst .evenOnly 0x100 = some [some 0x5678, some 0x1234, none, none]
      ∧ wordsAfter .splitD0High .evenOnly 0x100 = some [some 0x1234, none, some 0x5678, none]
      ∧ wordsAfter .splitD1High .evenOnly 0x100 = some [some 0x5678, none, some 0x1234, none] := ⟨by rfl, by rfl, by rfl, by rfl⟩
/-- V3.8 to V3.10 -/
theorem test_double_word_alignment :
    refusal? (memWriteDouble (confH .highFirst) State.reset .data0 0x101 1) = some .dwMisaligned
      ∧ wordsAfter .highFirst .any 0x101 = some [some 0x1234, some 0x5678, none, none]
      ∧ wordsAfter .splitD0High .any 0x101 = some [some 0x1234, none, some 0x5678, none]
      ∧ wordsAfter .splitD0High .evenOnly 0x101 = some [some 0x1234, none, some 0x5678, none] := ⟨by rfl, by rfl, by rfl, by rfl⟩
/-- V3.11, V3.12 -/
theorem test_double_word_wrap :
    refusal? (memReadDouble (confH .lowFirst .any) State.reset .data1 0xFFFF) = some .addressWrap
      ∧ refusal? (memReadDouble (confH .lowFirst) State.reset .data1 0xFFFF) = some .dwMisaligned := ⟨by rfl, by rfl⟩
/-- V3.1, V3.2, V3.13, V3.14 -/
theorem test_one_word :
    (value? (memWrite State.reset .data0 0x100 0xCAFE)).map (fun t => (value? (memRead t .data0 0x100), fault? (memRead t .data1 0x100)))
        = some (some 0xCAFE, some .readOfUnwritten)
      ∧ (value? (memWrite State.reset .data1 0xFFFF 7)).map (fun t => value? (memRead t .data1 0xFFFF)) = some (some 7)
      ∧ refusal? (memWrite State.reset .prog 0 1) = some .programWrite := ⟨by rfl, by rfl, by rfl⟩
/-- V3.15, V3.16 -/
theorem test_absent :
    fault? (memRead { State.reset with holes := [⟨.data0, 0x8000, 0xFFFF⟩] } .data0 0x8000) = some .stuck
      ∧ fault? (memReadDouble (confH .splitD0High)
          { State.reset with holes := [⟨.data0, 0x8000, 0xFFFF⟩, ⟨.data1, 0, 0xFFFF⟩] } .data0 0x7FFE) = some .stuck := ⟨by rfl, by rfl⟩

/-! ## Memory and pointer file stay canonical -/

theorem test_memory_is_sorted : Memory.write (Memory.write (Memory.write [] 5 1) 2 3) 5 9 = [(2, 3), (5, 9)] := by decide
theorem test_memory_wf : Memory.wf [(2, 3), (5, 9)] = true ∧ Memory.wf [(5, 9), (2, 3)] = false ∧ Memory.wf [(65536, 0)] = false := by
  decide
theorem test_pointer_zero_is_unlisted :
    ((State.reset.setPtr ⟨1, 0⟩ 7).setPtr ⟨0, 3⟩ 9).ptr = [(⟨0, 3⟩, 9), (⟨1, 0⟩, 7)]
      ∧ ((State.reset.setPtr ⟨1, 0⟩ 7).setPtr ⟨1, 0⟩ 0).ptr = [] := ⟨by rfl, by rfl⟩

theorem test_pointer_wf : PtrFile.wf (confH .highFirst) [(⟨0, 3⟩, 0xFFFF)] = true ∧ PtrFile.wf (confH .highFirst) [(⟨0, 3⟩, 65536)] = false
    ∧ PtrFile.wf (confH .highFirst) [(⟨0, 4⟩, 1)] = false := by decide
/-- R52, D12: no wrap at either end. -/
theorem test_pointer_step :
    value? (stepPtr (confH .highFirst) 0xFFFE 1) = some 0xFFFF ∧ refusal? (stepPtr (confH .highFirst) 0xFFFF 1) = some .addressWrap
      ∧ refusal? (stepPtr (confH .highFirst) 0 (-1)) = some .addressWrap := ⟨by rfl, by rfl, by rfl⟩
/-- H.ADSI, whose step refuses address_wrap on carry. -/
theorem test_adsi_step :
    (value? (frameStep (confH .highFirst) (modelH (confH .highFirst)) (launch 0 [(0, 8)] [] [] [(⟨1, 3⟩, 0x10)]))).map
        (fun t => (t.pc, t.ptr)) = some (1, [(⟨1, 3⟩, 0x15)])
      ∧ refusal? (frameStep (confH .highFirst) (modelH (confH .highFirst)) (launch 0 [(0, 8)] [] [] [(⟨1, 3⟩, 0xFFFB)]))
        = some .addressWrap := ⟨by rfl, by rfl⟩

/-! ## The accesses an instruction makes -/

/-- R47, R48, R53: in order, each on the memory the ones before it left; a double word where the order puts it. -/
theorem test_accesses :
    (value? (runAccesses (confH .splitD1High) [.storeDouble .data0 0x101 0x12345678, .read .data1 0x101, .store .data0 5 7] State.reset)).map
        (fun t => (t.data0, t.data1)) = some ([(5, 7), (0x101, 0x5678)], [(0x101, 0x1234)])
      ∧ refusal? (runAccesses (confH .highFirst) [.store .data0 5 7, .readDouble .data0 0x101] State.reset) = some .dwMisaligned
      ∧ fault? (runAccesses (confH .highFirst) [.store .data0 5 7, .read .data1 5] State.reset) = some .readOfUnwritten :=
  ⟨by rfl, by rfl, by rfl⟩
/-- A state in which "(Rij)p" and the stack are in data memories. -/
def inData : State := { State.reset with spaces := ⟨false, false⟩ }
/-- R51, R48: what a form reaches. -/
theorem test_reaches :
    reaches (.ldARam 0 false) State.reset (.read .prog 0) = false ∧ reaches (.ldDIndp .x ⟨0, 0⟩) State.reset (.read .prog 0) = true
      ∧ reaches (.ldDIndp .x ⟨0, 0⟩) inData (.read .prog 0) = false ∧ reaches (.call (.other 0) 0) inData (.store .prog 0 0) = false
      ∧ reaches (.ldIndpS ⟨0, 0⟩ .x) State.reset (.store .prog 0 0) = true ∧ reaches (.incReg .x none) State.reset (.read .data0 0) = false
      ∧ reaches (.ldARam 0 false) inData (.readDouble .data0 0) = false ∧ reaches (.ldARam 0 true) inData (.readDouble .data0 0) = true
      ∧ reaches (.aopReg 0 .acc0 .acc1 .x true) inData (.readDouble .data0 0) = false :=
  ⟨by rfl, by rfl, by rfl, by rfl, by rfl, by rfl, by rfl, by rfl, by rfl⟩
/-- An effect that asks for one access, and steps by `d`. -/
def asks (q : Request) (d : Option ShortImm := none) : Effect := ⟨⟨fun _ => 0, []⟩, [q], d⟩
/-- R105, R56: a store to `PROG` by "LD (Rij)p,S" is refused. -/
theorem test_store_to_program :
    refusal? (applyEffect (confH .highFirst) (.ldIndpS ⟨0, 0⟩ .x) (asks ⟨.store .prog 5 7, none⟩) State.reset State.reset)
      = some .programWrite := by rfl
/-- D12: direct operand 0x7FFF from the base register X, and SP at the two ends. -/
theorem test_effective_address :
    value? (effAddr (.ldARam 0x7FFF false) .x 0 { State.reset with x := 0x8000 }) = some 0xFFFF
      ∧ refusal? (effAddr (.ldARam 0x7FFF false) .x 0 { State.reset with x := 0x8001 }) = some .addressWrap
      ∧ value? (effAddr (.ldARam 0x7FFF false) .pc 0 { State.reset with pc := 0x8001 }) = some 0x7FFF
      ∧ refusal? (effAddr (.ldDInd .x ⟨0, 0⟩ false) .x 1 (State.reset.setPtr ⟨0, 0⟩ 0xFFFF)) = some .addressWrap
      ∧ refusal? (effAddr (.call (.other 0) 0) .x (-1) State.reset) = some .addressWrap :=
  ⟨by decide, by decide, by decide, by rfl, by rfl⟩
/-- R25, D12: SP moved by CALL, and not past the end. -/
theorem test_stack_step :
    (value? (applyEffect (confH .highFirst) (.call (.other 0) 0) (asks ⟨.store .data0 0 7, some (.x, -1)⟩ (some (-1)))
        { State.reset with sp := 0x200 } State.reset)).map (fun t => (t.sp, t.data0)) = some (0x1FF, [(0x1FF, 7)])
      ∧ refusal? (applyEffect (confH .highFirst) (.call (.other 0) 0) (asks ⟨.store .data0 0 7, none⟩ (some (-1))) State.reset State.reset)
        = some .addressWrap := ⟨by rfl, by rfl⟩

/-! ## The step of the frame: vectors V4, V5 and programs P1 to P4 (H) -/

/-- V4.3, V4.4 -/
theorem test_pc_top : (value? (stepH 0xFFFE 18 0)).map (·.pc) = some 0xFFFF ∧ refusal? (stepH 0xFFFF 18 0) = some .pcWrap :=
  ⟨by rfl, by rfl⟩
/-- V4.2, V4.5, V4.6 -/
theorem test_pc_two_words :
    (value? (stepH 0x10 9 0)).map (·.pc) = some 0x12 ∧ refusal? (stepH 0xFFFE 9 0) = some .pcWrap
      ∧ refusal? (stepH 0xFFFF 9 0) = some .pcWrap ∧ refusal? (stepH 0xFFFF 5 0) = some .pcWrap := ⟨by rfl, by rfl, by rfl, by rfl⟩
/-- V4.7 to V4.9 -/
theorem test_words_without_instruction :
    refusal? (stepH 0 0 0) = some .undecoded ∧ refusal? (stepH 0 0xF0 0) = some .customInstruction
      ∧ refusal? (stepH 0 0xF1 0) = some .unlistedInstruction := ⟨by rfl, by rfl, by rfl⟩
/-- V4.10, P4.7 (any program: an operand that R37 refuses too, log 35) -/
theorem test_no_semantics :
    refusal? (runForm (confH .highFirst) ⟨condH (confH .highFirst), fun _ => none⟩ (.adsi ⟨0, 0⟩ 1) State.reset) = some (.noSemantics .ADSI)
      ∧ refusal? (runForm (confH .highFirst) ⟨condH (confH .highFirst), fun _ => none⟩ (.incReg .pc none) State.reset)
        = some (.noSemantics .INC_REG) := ⟨by rfl, by rfl⟩
/-- V4.11, V4.12 -/
theorem test_frame_refusals :
    refusal? (runForm (confH .highFirst) (modelOf fun s => { s with prog := [(0, 1)] }) (.ldDInd .x ⟨0, 0⟩ false) State.reset)
        = some (.frame .LD_D_IND)
      ∧ refusal? (runForm (confH .highFirst) (modelOf fun s => s.setPc 1) (.incReg .x none) { State.reset with pc := 0 })
        = some (.frame .INC_REG) := ⟨by rfl, by rfl⟩
/-- V4.13 to V4.15 -/
theorem test_operand_refusals :
    refusal? (stepH 0 0xF6 0 true) = some .bfAccess ∧ (value? (stepH 0 0xF6 0 false)).map (fun t => (t.rc, t.bf)) = some (0xFF, 0)
      ∧ refusal? (stepH 0 0xF7 0) = some .pcOperand := ⟨by rfl, by rfl, by rfl⟩
/-- V4.16, V4.17: IE0 is bit 6 under V2.1. -/
theorem test_status_frame :
    refusal? (runForm (confH .highFirst) (modelOf fun s => { s with st := 0x40 }) (.ldDInd .al2 ⟨0, 0⟩ false) { State.reset with pc := 0 })
        = some (.frame .LD_D_IND)
      ∧ (value? (runForm (confH .highFirst) (modelOf fun s => { s with st := 0x40 }) (.ldDInd .st ⟨0, 0⟩ false)
          { State.reset with pc := 0 })).map (·.st) = some 0x40 := ⟨by rfl, by rfl⟩
/-- V4.18, V4.19 -/
theorem test_absent_program :
    fault? (frameStep (confH .highFirst) (modelH (confH .highFirst)) (launch 0x40 [(0x40, 2)] [] [] [] false [⟨.prog, 0x40, 0x40⟩]))
        = some .stuck
      ∧ fault? (frameStep (confH .highFirst) (modelH (confH .highFirst)) (launch 0x40 [(0x40, 5)] [] [] [] false [⟨.prog, 0x41, 0x41⟩]))
        = some .stuck := ⟨by rfl, by rfl⟩
/-- V5: the next pc of the seventeen forms that do not transfer control, each at 0x0100. -/
theorem test_next_pc :
    ([8, 10, 11, 12, 13, 9, 14, 16, 17, 2, 4, 18, 19, 1, 3, 20, 21].map fun w => (value? (stepH 0x100 w 0)).map (·.pc))
      = (List.replicate 5 (some 0x101) ++ [some 0x102] ++ List.replicate 11 (some 0x101)) := by rfl
/-- V5's totals: 22 words, and 24 cycles of the seventeen forms whose C survives. -/
theorem test_form_totals :
    ([Form.ADSI, .AOP_A_RAM, .AOP_IND, .AOP_PTR, .AOP_REG, .AOPI, .AOPSI, .BRA, .CALL, .INC_IND, .DEC_IND, .INC_REG, .DEC_REG,
      .LD_A_RAM, .LD_RAM_A, .LD_D_IND, .LD_IND_S, .LD_D_INDP, .LD_INDP_S].foldl (fun p f => (p.1 + f.words, p.2 + f.cycles.getD 0)) (0, 0))
      = (22, 24) := by decide

/-- P1, each of its three steps. -/
theorem test_p1_load : (value? (stepH 0 1 0)).map (fun t => (t.pc, t.al2)) = some (1, 0xFF) := by rfl
theorem test_p1_increment :
    (value? (frameStep (confH .highFirst) (modelH (confH .highFirst)) { launch 1 [(1, 2)] [] [] [] with al2 := 0xFF })).map
      (fun t => (t.pc, t.al2)) = some (2, 0x100) := by rfl
theorem test_p1_store :
    (value? (frameStep (confH .highFirst) (modelH (confH .highFirst))
      { launch 2 [(2, 3)] [(0x100, 0xFF)] [] [(⟨0, 0⟩, 0x100)] with al2 := 0x100 })).map (fun t => (t.pc, t.data0))
      = some (3, [(0x100, 0x100)]) := by rfl
/-- P1's variant without the data word, and P4.1's pointer at an unwritten word. -/
theorem test_p1_unwritten :
    fault? (frameStep (confH .highFirst) (modelH (confH .highFirst)) (launch 0 [(0, 1)] [] [] [(⟨0, 0⟩, 0x100)])) = some .readOfUnwritten := by
  rfl
/-- P2: the last DEC sets Z (bit 13), BRA NZ taken and not taken, and P4.3. -/
theorem test_p2_decrement :
    (value? (frameStep (confH .highFirst) (modelH (confH .highFirst)) { launch 0x10 [(0x10, 4)] [] [] [] with al2 := 1 })).map
      (fun t => (t.pc, t.al2, t.st)) = some (0x11, 0, 0x2000) := by rfl
theorem test_p2_branch :
    (value? (stepH 0x11 5 0x10)).map (·.pc) = some 0x10
      ∧ (value? (frameStep (confH .highFirst) (modelH (confH .highFirst))
          { launch 0x11 [(0x11, 5), (0x12, 0x10)] [] [] [] with st := 0x2000 })).map (·.pc) = some 0x13 := ⟨by rfl, by rfl⟩

/-- P3's launch at its first instruction, for an order of double words. -/
def p3 (o : DwOrder) (p : Nat) : Res State :=
  frameStep (confH o) (modelH (confH o))
    (launch 0x20 [(0x20, 6)] [(0x100, 0xAAAA), (0x101, 0xBBBB)] [(0x100, 0xCCCC), (0x101, 0xDDDD)] [(⟨0, 0⟩, p), (⟨0, 1⟩, 0x200)])

theorem test_p3_load :
    ([DwOrder.highFirst, .lowFirst, .splitD0High, .splitD1High].map fun o => (value? (p3 o 0x100)).map fun t => t.acc .acc2)
      = [some 0xAAAABBBB, some 0xBBBBAAAA, some 0xAAAACCCC, some 0xCCCCAAAA] := by rfl
/-- P3's second step: the stored halves under each order. -/
theorem test_p3_store :
    ([(DwOrder.highFirst, 0xAAAABBBB), (.lowFirst, 0xBBBBAAAA), (.splitD0High, 0xAAAACCCC), (.splitD1High, 0xCCCCAAAA)].map
        fun (x : DwOrder × DWord) =>
          (value? (frameStep (confH x.1) (modelH (confH x.1))
            ((launch 0x21 [(0x21, 7)] [] [] [(⟨0, 1⟩, 0x200)]).setAcc .acc2 x.2))).map fun t => (t.data0, t.data1))
      = [some ([(0x200, 0xAAAA), (0x201, 0xBBBB)], []), some ([(0x200, 0xAAAA), (0x201, 0xBBBB)], []),
         some ([(0x200, 0xAAAA)], [(0x200, 0xCCCC)]), some ([(0x200, 0xAAAA)], [(0x200, 0xCCCC)])] := by rfl
/-- P4.4, P4.5 -/
theorem test_p4_alignment :
    refusal? (p3 .highFirst 0x101) = some .dwMisaligned ∧ (value? (p3 .splitD0High 0x101)).map (fun t => t.acc .acc2) = some 0xBBBBDDDD :=
  ⟨by rfl, by rfl⟩

/-! ## A witness for the hypotheses of each statement -/

/-- A state with a pc of its own, everything present, nothing written. -/
def at_ (p : Word) : State := { State.reset with pc := p }

/-- The same with SELBF 1. -/
def strapped (p : Word) : State := { State.reset with pc := p, selbf := true, bf := 0x1234 }

/-- A memory with every word written. -/
def full : Memory := (List.range' 0 65536).map fun k => (k, 0)

theorem read_range (lo n a : Nat) (h : lo ≤ a) (h' : a < lo + n) :
    Memory.read ((List.range' lo n).map fun k => (k, (0 : Word))) a = some 0 := by
  induction n generalizing lo with
  | zero => omega
  | succ n ih =>
    simp only [List.range'_succ, List.map_cons, Memory.read]
    split
    · rfl
    · exact ih (lo + 1) (by omega) (by omega)
theorem wf_range (lo n : Nat) (h : lo + n ≤ 65536) :
    Memory.wfFrom ((List.range' lo n).map fun k => (k, (0 : Word))) lo = true := by
  induction n generalizing lo with
  | zero => rfl
  | succ n ih =>
    have hlo : lo < 65536 := by omega
    simp only [List.range'_succ, List.map_cons, Memory.wfFrom, ih (lo + 1) (by omega), Nat.le_refl, hlo, decide_true, Bool.and_self]
theorem full_wf : full.wf = true := wf_range 0 65536 (by decide)
theorem full_read (a : Word) : full.read a.toNat = some 0 := read_range 0 65536 a.toNat (Nat.zero_le _) (by omega)

/-- A state whose every memory word is written, with two words of `PROG` given at 0x0100, SP in the middle of a memory, "(Rij)p" and the
stack in data memories. -/
def filled (p : Word) (w0 w1 : Word) (strap : Bool := false) (ptr : PtrFile := []) : State :=
  { State.reset with
    pc := p, selbf := strap, spaces := ⟨false, false⟩, sp := 0x8000, ptr := ptr, prog := (full.write 0x100 w0).write 0x101 w1, data0 := full, data1 := full }

/-- The same with a pointer in the middle of a memory. -/
def pointed (p : Word) (r : Rij) (strap : Bool := false) : State := filled p 0 0 strap [(r, 0x8000)]

theorem filled_readable (p w0 w1 : Word) (strap : Bool) (ptr : PtrFile) : (filled p w0 w1 strap ptr).readable := by
  rw [readable_iff]
  intro sp a
  refine ⟨by cases sp <;> rfl, ?_⟩
  cases sp with
  | prog =>
    show (Memory.read ((full.write 0x100 w0).write 0x101 w1) a.toNat).isSome = true
    rw [Memory.read_write, Memory.read_write]
    split
    · rfl
    · split
      · rfl
      · rw [full_read]; rfl
  | data0 => show (full.read a.toNat).isSome = true; rw [full_read]; rfl
  | data1 => show (full.read a.toNat).isSome = true; rw [full_read]; rfl
theorem filled_inv (p w0 w1 : Word) (strap : Bool) (ptr : PtrFile) (h : ptr.wf Config.chip = true) : (filled p w0 w1 strap ptr).Inv :=
  ⟨Memory.wf_write _ 0x101 _ (Memory.wf_write _ 0x100 _ full_wf), full_wf, full_wf, h,
    List.all_eq_true.2 fun _ _ => rfl, List.all_eq_true.2 fun _ _ => rfl⟩
theorem pointed_inside (p w0 w1 : Word) (strap : Bool) (r : Rij) : PointerInside r (filled p w0 w1 strap [(r, 0x8000)]) := by
  have h : (filled p w0 w1 strap [(r, 0x8000)]).readPtr r = 0x8000 := by simp [filled, State.readPtr, PtrFile.read]
  unfold PointerInside
  rw [h]
  decide
theorem filled_stack (p w0 w1 : Word) (strap : Bool) (ptr : PtrFile) : StackInside (filled p w0 w1 strap ptr) :=
  ⟨by show 0x4000 ≤ (0x8000 : Word).toNat; decide, by show (0x8000 : Word).toNat ≤ 0xC000; decide⟩
/-- SP holds 0x8000 and every other register that can be a base holds 0, so no direct operand passes the end. -/
theorem filled_direct (ram : DirectAddr) (p w0 w1 : Word) (strap : Bool) (ptr : PtrFile) : DirectInside ram (filled p w0 w1 strap ptr) := by
  intro b
  have h : baseValue (filled p w0 w1 strap ptr).hidden b = if b = .sp then 0x8000 else 0 := by cases b <;> cases strap <;> rfl
  rw [h]
  split <;> omega
theorem filled_data (i : Instr) (p w0 w1 : Word) (strap : Bool) (ptr : PtrFile) : .prog ∉ memorySpaces i (filled p w0 w1 strap ptr) := by
  have hs : (filled p w0 w1 strap ptr).spaces = ⟨false, false⟩ := rfl
  unfold memorySpaces
  rw [hs]
  split <;> decide
theorem filled_ready {i : Instr} (h : ptrOperand i = none) (p w0 w1 : Word) (strap : Bool) (ptr : PtrFile) :
    MemoryReady i (filled p w0 w1 strap ptr) :=
  ⟨fun _ => filled_readable _ _ _ _ _, fun ram _ => filled_direct ram _ _ _ _ _, (fun r hr => by rw [h] at hr; cases hr), fun _ => filled_stack ..,
    filled_data _ _ _ _ _ _⟩
theorem pointed_ready {i : Instr} {r : Rij} (h : ptrOperand i = some r) (p w0 w1 : Word) (strap : Bool) :
    MemoryReady i (filled p w0 w1 strap [(r, 0x8000)]) :=
  ⟨fun _ => filled_readable _ _ _ _ _, fun ram _ => filled_direct ram _ _ _ _ _, (fun q hq => by rw [h] at hq; cases hq; exact pointed_inside ..),
    fun _ => filled_stack .., filled_data _ _ _ _ _ _⟩
theorem filled_read (w0 w1 : Word) (ptr : PtrFile) :
    memRead (filled 0x100 w0 w1 false ptr) .prog 0x100 = .next w0 ∧ memRead (filled 0x100 w0 w1 false ptr) .prog 0x101 = .next w1 := by
  have h0 : (filled 0x100 w0 w1 false ptr).word? .prog 0x100 = some w0 := by
    show Memory.read ((full.write 0x100 w0).write 0x101 w1) 0x100 = _
    rw [Memory.read_write, Memory.read_write]; rfl
  have h1 : (filled 0x100 w0 w1 false ptr).word? .prog 0x101 = some w1 := by
    show Memory.read ((full.write 0x100 w0).write 0x101 w1) 0x101 = _
    rw [Memory.read_write]; rfl
  have hp : ∀ a, (filled 0x100 w0 w1 false ptr).present .prog a = true := fun _ => rfl
  constructor
  · unfold memRead; rw [hp, h0]; rfl
  · unfold memRead; rw [hp, h1]; rfl

/-- Where an instruction without ",w", with an allowed operand and room, answers a next state. -/
theorem exec_completes {i : Instr} {s : State} (hc : checkOperand i s = none) (hm : MemoryReady i s) (hd : takesDouble i = false)
    (hr : isTransfer i = true ∨ s.pc.toNat + i.words < 65536) : ∃ t, exec i s = .next t := by
  obtain ⟨t, ht⟩ := run_completes chip_wide hc hm (.inl hd) hr
  exact ⟨t, (exec_eq_run i s).trans ht⟩
theorem ldARam_next : ∃ t, exec (.ldARam 0 false) (filled 0 0 0) = .next t :=
  exec_completes rfl (filled_ready rfl ..) rfl (.inr (by decide))

theorem witness_LaunchHoldsItsPremises : RegAddr.al0 ≠ .pc := by decide
theorem witness_RegisterStoresSixteenBits :
    RegAddr.bfRc ≠ .pm ∧ RegAddr.tr ≠ .bfRc ∧ (strapped 0).selbf = true ∧ (at_ 0).selbf = false := ⟨by decide, by decide, rfl, rfl⟩
theorem witness_NamesOfOneAddressAreOneRegister :
    RegName.RC ≠ .BF ∧ State.reset.selbf = false ∧ RegName.TH ≠ .RC ∧ (strapped 0).selbf = true ∧ nameAddr .TH = nameAddr .AH1 ∧ nameAddr .TL ≠ nameAddr .TH := ⟨by decide, rfl, by decide, rfl, rfl, by decide⟩
theorem witness_AddressThirteenIsSelectedBySelbf :
    (strapped 0).selbf = true ∧ (at_ 0).selbf = false ∧ ∃ t, exec (.ldARam 0 false) (filled 0 0 0) = .next t :=
  ⟨rfl, rfl, ldARam_next⟩
theorem witness_AccumulatorIsHighOverLow : Acc.acc3 ≠ .acc0 := by decide
theorem witness_StatusFieldsStandInOrder :
    layoutB.legal = true ∧ StField.ie0.rank < StField.prl.rank ∧ (rangeMask (layoutB .ie0)).getLsbD 5 = true
      ∧ (rangeMask (layoutB .prl)).getLsbD 4 = true := by decide
theorem witness_ChipLayoutIsLegal : layoutC.legal = true := by decide
theorem witness_StatusFieldWriteIsLocal : layoutB.legal = true ∧ StField.op ≠ .iex := by decide
theorem witness_PointerWriteIsLocal : (State.reset.setPtr ⟨1, 0⟩ 7).ptr.canonical = true := by rfl
theorem witness_PointerStepPastTheEndIsRefused :
    16 ≤ (confH .highFirst).ptrWidth ∧ (65535 : Int) < (0xFFFF % 65536 : Nat) + 1 ∧ ((0x1FFFF % 65536 : Nat) : Int) + 0 ≤ 65535
      ∧ ((0x10000 % 65536 : Nat) : Int) + (-1) < 0 := by decide
theorem witness_MemoryContract :
    (∃ t, memWrite State.reset .data0 0xFFFF 1 = .next t) ∧ ∃ t, memWriteDouble (confH .lowFirst) State.reset .data1 0xFFFE 1 = .next t :=
  ⟨⟨_, rfl⟩, _, rfl⟩
theorem witness_DoubleWordStandsWhereTheOrderPutsIt :
    ∀ o ∈ [DwOrder.highFirst, .lowFirst, .splitD0High, .splitD1High], ∃ t, memWriteDouble (confH o) State.reset .data0 0xFFFE 1 = .next t := by
  intro o ho
  cases o <;> exact ⟨_, rfl⟩
theorem witness_DoubleWordStandsWhereTheOrderPutsIt_read :
    ∀ o ∈ [DwOrder.highFirst, .lowFirst, .splitD0High, .splitD1High],
      ∃ v, memReadDouble (confH o) { State.reset with data0 := [(0xFFFE, 1), (0xFFFF, 2)], data1 := [(0xFFFE, 3)] } .data0 0xFFFE
        = .next v := by
  intro o ho
  cases o <;> exact ⟨_, rfl⟩
theorem witness_SideConditionsInOrder :
    Space.data0 ≠ .prog ∧ ({ State.reset with holes := [⟨.data0, 0x8000, 0xFFFF⟩] } : State).present .data0 0x8000 = false
      ∧ ({ State.reset with holes := [⟨.data0, 0x8000, 0xFFFF⟩] } : State).present .data0 0x7FFF = true
      ∧ (confH .lowFirst .any).dwOrder.consecutive = true ∧ (confH .lowFirst .any).dwAlign = .any
      ∧ (confH .lowFirst).dwAlign = .evenOnly ∧ (0xFFFF : Word).toNat % 2 = 1 := ⟨by decide, rfl, rfl, rfl, rfl, rfl, rfl⟩
theorem witness_DoubleWordNeedsBothHalvesPresent :
    ({ State.reset with holes := [⟨.data0, 0x101, 0x101⟩] } : State).present
        (place .highFirst .data0 0x100).2.1 (place .highFirst .data0 0x100).2.2 = false
      ∧ ({ State.reset with holes := [⟨.data0, 0x101, 0x101⟩] } : State).present
        (place .lowFirst .data0 0x100).1.1 (place .lowFirst .data0 0x100).1.2 = false
      ∧ State.reset.present (place .splitD1High .data0 0x101).1.1 (place .splitD1High .data0 0x101).1.2 = true
      ∧ State.reset.present (place .splitD1High .data0 0x101).2.1 (place .splitD1High .data0 0x101).2.2 = true := ⟨rfl, rfl, rfl, rfl⟩
/-- An odd address under `any` (V3.9), the last that does not wrap; halves that hold no value, one value, and two. -/
theorem witness_DoubleWordNeedsBothHalvesPresent_odd :
    (confH .highFirst .any).dwOrder.consecutive = true ∧ (confH .highFirst .any).dwAlign = .any ∧ (0xFFFD : Word) ≠ 0xFFFF
      ∧ (0xFFFD : Word).toNat % 2 = 1
      ∧ fault? (memReadDouble (confH .highFirst .any) { State.reset with data0 := [(0xFFFD, 1)] } .data0 0xFFFD) = some .readOfUnwritten
      ∧ value? (memReadDouble (confH .highFirst .any) { State.reset with data0 := [(0xFFFD, 1), (0xFFFE, 2)] } .data0 0xFFFD)
        = some 0x10002 := ⟨rfl, rfl, by decide, rfl, by rfl, by rfl⟩
theorem witness_OneWordIsAlwaysAligned :
    (confH .splitD0High).dwOrder.consecutive = false ∧ memWrite State.reset .prog 1 1 = .refused .programWrite := ⟨rfl, rfl⟩

/-- The hypotheses of `AluFormsComplete`, `AluFormsAreTheirSemanticFunction`, `IncDecFormsComplete`, `LoadStoreFormsComplete` and
`ConditionIsEvaluatedOnce`, at the last pc that has room. -/
theorem witness_FormsComplete :
    (pointed 0xFFFE ⟨0, 1⟩).readable ∧ PointerInside ⟨0, 1⟩ (pointed 0xFFFE ⟨0, 1⟩) ∧ RoomFor 1 (pointed 0xFFFE ⟨0, 1⟩)
      ∧ DirectInside 0x7FFF (pointed 0xFFFE ⟨0, 1⟩) ∧ (pointed 0xFFFE ⟨0, 1⟩).spaces.indp = false
      ∧ RoomFor 2 (filled 0xFFFD 0 0) ∧ OperandAllowed .bfRc (pointed 0xFFFE ⟨0, 1⟩) ∧ OperandAllowed .st (pointed 0xFFFE ⟨0, 1⟩ true) := by
  refine ⟨filled_readable _ _ _ _ _, pointed_inside .., ?_, filled_direct _ _ _ _ _ _, rfl, ?_, ⟨by decide, fun _ => rfl⟩, ⟨by decide, fun h => by cases h⟩⟩
  · show 0xFFFE + 1 < 65536; decide
  · show 0xFFFD + 2 < 65536; decide
/-- The ends of the range a pointer is inside of. -/
theorem witness_FormsComplete_ends :
    PointerInside ⟨0, 1⟩ (at_ 0 |>.setPtr ⟨0, 1⟩ 0x4000) ∧ PointerInside ⟨0, 1⟩ (at_ 0 |>.setPtr ⟨0, 1⟩ 0xC000) := by
  constructor <;> exact ⟨by decide, by decide⟩
theorem witness_DoubleWordFormsCompleteOrAreRefused :
    takesDouble (.ldDInd .st ⟨0, 1⟩ true) = true ∧ checkOperand (.ldDInd .st ⟨0, 1⟩ true) (pointed 0xFFFE ⟨0, 1⟩) = none
      ∧ MemoryReady (.ldDInd .st ⟨0, 1⟩ true) (pointed 0xFFFE ⟨0, 1⟩) ∧ RoomFor 1 (pointed 0xFFFE ⟨0, 1⟩)
      ∧ 16 ≤ (confH .splitD0High).ptrWidth ∧ (confH .splitD0High).dwOrder.consecutive = false := by
  refine ⟨rfl, rfl, pointed_ready rfl .., ?_, by decide, rfl⟩
  show 0xFFFE + 1 < 65536; decide
theorem witness_TransferFormsComplete :
    (filled 0xFFFF 0 0).readable ∧ StackInside (filled 0xFFFF 0 0) ∧ (filled 0xFFFF 0 0).spaces.stack = false
      ∧ StackInside { at_ 0 with sp := 0x4000 } ∧ StackInside { at_ 0 with sp := 0xC000 } :=
  ⟨filled_readable _ _ _ _ _, filled_stack .., rfl, ⟨by decide, by decide⟩, ⟨by decide, by decide⟩⟩
theorem witness_EveryFormCompletesOrIsRefused :
    checkOperand (.ldIndpS ⟨0, 0⟩ .bfRc) { filled 0xFFFE 0 0 with spaces := ⟨true, true⟩ } = none
      ∧ RoomFor (Instr.ldIndpS ⟨0, 0⟩ .bfRc).words { filled 0xFFFE 0 0 with spaces := ⟨true, true⟩ }
      ∧ ({ filled 0xFFFE 0 0 with spaces := ⟨true, true⟩ } : State).readable ∧ isTransfer (.call (.other 0) 0) = true := by
  refine ⟨rfl, ?_, filled_readable 0xFFFE 0 0 false [], rfl⟩
  show 0xFFFE + 1 < 65536; decide
theorem witness_StoreToProgramMemoryIsRefused :
    (Instr.ldIndpS ⟨0, 0⟩ .x).form ∈ [Form.LD_D_INDP, .LD_INDP_S, .CALL] ∧ State.reset.spaces.indp = true ∧ State.reset.spaces.stack = true
      ∧ (asks ⟨.store .prog 5 7, none⟩).accesses = [⟨.store .prog 5 7, none⟩] ∧ inData.spaces.indp = false ∧ inData.spaces.stack = false :=
  ⟨by decide, rfl, rfl, rfl, rfl, rfl⟩
theorem witness_EffectiveAddressPastTheEndIsRefused :
    memOperand (.ldARam 0x7FFF false) = .direct 0x7FFF ∧ 65535 < baseValue { State.reset with x := 0x8001 } .x + (0x7FFF : DirectAddr).toNat
      ∧ baseValue { State.reset with x := 0x8000 } .x + (0x7FFF : DirectAddr).toNat ≤ 65535
      ∧ memOperand (.ldIndpS ⟨0, 1⟩ .x) = .pointerP ⟨0, 1⟩ ∧ memOperand (.call (.other 0) 0) = .stack
      ∧ (65535 : Int) < (0xFFFF : Nat) + (1 : ShortImm).toInt ∧ ((0 : Nat) : Int) + (-1 : ShortImm).toInt < 0
      ∧ reaches (.call (.other 0) 0) State.reset (.store .data0 0 7) = true
      ∧ effAddr (.call (.other 0) 0) .x (-1) State.reset.hidden = .refused .addressWrap
      ∧ effAddr (.call (.other 0) 0) .x 1 State.reset.hidden = .next 1 :=
  ⟨rfl, by decide, by decide, rfl, rfl, by decide, by decide, rfl, rfl, rfl⟩
theorem witness_AccessesStayInTheirFormsSpaces :
    Access.read .prog 5 ∈ (asks ⟨.read .prog 5, none⟩).made (.ldDIndp .x ⟨0, 0⟩) State.reset
      ∧ Access.store .prog 5 7 ∈ (asks ⟨.store .prog 5 7, none⟩).made (.call (.other 0) 0) State.reset
      ∧ Access.storeDouble .data1 5 7 ∈ (asks ⟨.storeDouble .data1 5 7, none⟩).made (.ldRamA 0 true) State.reset
      ∧ Access.readDouble .data1 5 ∈ (asks ⟨.readDouble .data1 5, none⟩).made (.aopInd 0 .acc0 .acc1 ⟨0, 0⟩ true) State.reset
      ∧ takesDouble (.ldARam 0 true) = true :=
  ⟨List.mem_singleton.2 rfl, List.mem_singleton.2 rfl, List.mem_singleton.2 rfl, List.mem_singleton.2 rfl, rfl⟩
theorem witness_FormsWithoutAMemoryOperandTouchNone :
    (Instr.decReg .x (.drz 0)).form ∈ [Form.ADSI, .AOP_PTR, .AOP_REG, .AOPI, .AOPSI, .BRA, .INC_REG, .DEC_REG]
      ∧ (∃ t, exec (.decReg .x (.drz 0)) (at_ 0xFFFE) = .next t) ∧ exec (.decReg .pc (.drz 0)) (at_ 0xFFFE) = .refused .pcOperand :=
  ⟨by decide, exec_completes rfl ⟨fun h => absurd rfl h, (fun _ h => by cases h), (fun _ h => by cases h), (fun h => by cases h),
      fun h => nomatch h⟩ rfl
    (.inr (by decide)), rfl⟩
theorem witness_AccessesStopInOrder :
    (∃ t, runAccesses (confH .highFirst) [.store .data0 0x100 7, .read .data0 0x100] { at_ 0 with holes := [⟨.data1, 5, 5⟩] } = .next t)
      ∧ ({ at_ 0 with holes := [⟨.data1, 5, 5⟩] } : State).present .data1 5 = false
      ∧ ({ at_ 0 with holes := [⟨.data1, 5, 5⟩] } : State).present .data1 6 = true
      ∧ lastStore (storesOf (confH .highFirst) [.store .data0 0x100 7, .read .data0 0x100]) .data1 6 = none
      ∧ (at_ 0).word? .data1 6 = none ∧ (confH .highFirst).dwOrder.consecutive = true ∧ (confH .highFirst).dwAlign = .evenOnly
      ∧ (confH .lowFirst .any).dwAlign = .any ∧ (0xFFFF : Word).toNat % 2 = 1 :=
  ⟨⟨_, rfl⟩, rfl, rfl, rfl, rfl, rfl, rfl, rfl, rfl⟩
theorem witness_InstructionFaultsExactlyAtAnAccess :
    checkOperand (.call (.other 0) 9) (at_ 0xFFFF) = none ∧ isTransfer (.call (.other 0) 9) = true
      ∧ checkOperand (.ldDInd .st ⟨0, 0⟩ false) (at_ 0xFFFE) = none ∧ RoomFor 1 (at_ 0xFFFE) := by
  refine ⟨rfl, rfl, rfl, ?_⟩
  show 0xFFFE + 1 < 65536; decide

/-- The premise "exec answers a next state" of `PcMovesAsTheFormSays`, `OnlyAluFlagsChange`, `OnlyStoredWordsChange` and
`RegistersHoldWhatTheSemanticFunctionAnswers`: a form with and one without a condition, one that names ST, and a transfer. -/
theorem witness_ExecAnswersNext :
    (∃ t, exec (.incInd ⟨0, 0⟩ (some (.drz 0))) (pointed 0xFFFE ⟨0, 0⟩) = .next t)
      ∧ (∃ t, exec (.aopi 0 .acc0 .acc1 3) (filled 0xFFFD 0 0) = .next t)
      ∧ (∃ t, exec (.ldDInd .st ⟨0, 0⟩ false) (pointed 0 ⟨0, 0⟩ true) = .next t)
      ∧ ∃ t, exec (.call (.other 0) 9) (filled 0xFFFF 0 0) = .next t :=
  ⟨exec_completes rfl (pointed_ready rfl ..) rfl (.inr (by decide)), exec_completes rfl (filled_ready rfl ..) rfl (.inr (by decide)),
    exec_completes rfl (pointed_ready rfl ..) rfl (.inr (by decide)), exec_completes rfl (filled_ready rfl ..) rfl (.inl rfl)⟩
theorem witness_RegistersHoldWhatTheSemanticFunctionAnswers :
    (filled 0 0 0).selbf = false ∧ (filled 0 0 0 true).selbf = true ∧ regOperand (.ldDInd .st ⟨0, 0⟩ false) = some .st
      ∧ regOperand (.ldARam 0 false) ≠ some .st ∧ RegAddr.sp ≠ .st ∧ RegAddr.sp ≠ .pc ∧ RegAddr.sp ≠ .bfRc
      ∧ (asks ⟨.pastEnd, none⟩ (some 1)).spStepOf (.ldARam 0 false) = none ∧ (asks ⟨.pastEnd, none⟩ (some 1)).spStepOf (.call (.other 0) 0) = some 1 :=
  ⟨rfl, rfl, rfl, by decide, by decide, by decide, by decide, rfl, rfl⟩
theorem witness_OnlyAluFlagsChange :
    (∃ t, exec (.ldARam 0 false) (filled 0 0 0) = .next t) ∧ regOperand (.ldARam 0 false) ≠ some .st := ⟨ldARam_next, by decide⟩
theorem witness_ForbiddenOperandsAreRefused : (strapped 0).selbf = true := rfl
theorem witness_CarryOutOfThePcIsRefused :
    isTransfer (.ldARam 0 false) = false ∧ checkOperand (.ldARam 0 false) (filled 0xFFFF 0 0) = none
      ∧ MemoryReady (.ldARam 0 false) (filled 0xFFFF 0 0) ∧ takesDouble (.ldARam 0 false) = false
      ∧ 65536 ≤ (filled 0xFFFF 0 0).pc.toNat + (Instr.ldARam 0 false).words
      ∧ 65536 ≤ (filled 0xFFFE 0 0).pc.toNat + (Instr.aopi 0 .acc0 .acc0 0).words :=
  ⟨rfl, rfl, filled_ready rfl .., rfl, by decide, by decide⟩

/-- Runs answer a next state: one that is over at once. -/
theorem witness_ProgramMemoryIsConstant :
    (∃ t, runUntil 0x100 5 (at_ 0x100) = .next t) ∧ ∃ t, exec (.ldARam 0 false) (filled 0 0 0) = .next t := ⟨⟨_, rfl⟩, ldARam_next⟩
theorem witness_LaunchPremisesStay : (∃ t, runUntil 0x100 5 (strapped 0x100) = .next t) ∧ (strapped 0x100).selbf = true := ⟨⟨_, rfl⟩, rfl⟩
/-- Whatever one instruction without ",w" the chip's decoder yields, a step of it completes from a state that meets the invariant, unless
the operand is refused. -/
theorem witness_a_step_completes (w0 w1 : Word) (i : Instr) (h : decode Config.chip w0 w1 = .instr i)
    (hop : regOperand i ≠ some .pc) (hd : takesDouble i = false) :
    ∃ s t : State, s.Inv ∧ step s = .next t := by
  have hwf : i.wf Config.chip = true := by
    unfold decode at h
    split at h <;> first | cases h | (split at h <;> first | (next hw => cases h; exact hw.2) | cases h)
  obtain ⟨ptr, hptr, hready⟩ : ∃ ptr : PtrFile, ptr.wf Config.chip = true ∧ MemoryReady i (filled 0x100 w0 w1 false ptr) := by
    cases hr : ptrOperand i with
    | none => exact ⟨[], rfl, filled_ready hr ..⟩
    | some r =>
      refine ⟨[(r, 0x8000)], ?_, pointed_ready hr ..⟩
      have hrw : r.wf Config.chip = true := ptrOperand_wf hwf hr
      have hlt : 0x8000 < 2 ^ Config.chip.ptrWidth := Nat.lt_of_lt_of_le (by decide) (Nat.pow_le_pow_right (by decide) chip_wide)
      have h0 : (0x8000 : Nat) ≠ 0 := by decide
      simp only [PtrFile.wf, PtrFile.canonical, PtrFile.above, List.all_cons, List.all_nil, hrw, hlt, h0, ne_eq, not_false_eq_true,
        decide_true, Bool.and_self]
  have hc : checkOperand i (filled 0x100 w0 w1 false ptr) = none := by
    unfold checkOperand
    split <;> first | rfl | (rename_i hr; exact absurd hr hop)
  have hw : i.words = 1 ∨ i.words = 2 := by cases i <;> first | exact .inl rfl | exact .inr rfl
  obtain ⟨t, ht⟩ := run_completes (c := Config.chip) (i := i) chip_wide hc hready (.inl hd) (.inr (by show 0x100 + i.words < 65536; omega))
  refine ⟨filled 0x100 w0 w1 false ptr, t, filled_inv _ _ _ _ _ hptr, ?_⟩
  have hs : step (filled 0x100 w0 w1 false ptr) = runDecoded exec (decode Config.chip w0 w1) (filled 0x100 w0 w1 false ptr) := by
    have hpc : (filled 0x100 w0 w1 false ptr).pc = 0x100 := rfl
    have hp1 : (0x100 : Word) + 1 = 0x101 := rfl
    unfold step fetchRun
    rw [hpc, (filled_read w0 w1 ptr).1]
    simp only [andThen]
    rw [hp1]
    by_cases hn : needsSecond Config.chip w0 = true
    · rw [if_pos hn, if_neg (by decide), (filled_read w0 w1 ptr).2]
    · rw [if_neg hn]
      congr 1
      unfold decode
      unfold needsSecond at hn
      cases hf : Config.chip.firstWord w0 <;> rw [hf] at hn
      all_goals first | rfl | exact absurd rfl hn
  rw [hs, h]
  exact (exec_eq_run i _).trans ht
theorem witness_StepKeepsInvariant :
    (filled 0x100 18 0).Inv ∧ ∃ t, fetchRun (confH .highFirst) exec (filled 0x100 18 0) = .next t := by
  refine ⟨filled_inv _ _ _ _ _ rfl, ?_⟩
  obtain ⟨t, ht⟩ := exec_completes (i := .ldARam 0x12 false) (s := filled 0x100 18 0) rfl (filled_ready rfl ..) rfl (.inr (by decide))
  refine ⟨t, ?_⟩
  have hpc : (filled 0x100 18 0).pc = 0x100 := rfl
  unfold fetchRun
  rw [hpc, (filled_read 18 0 []).1]
  exact ht
theorem witness_StopsAreTheClosedList :
    exec (.incReg .pc none) (at_ 0) = .refused .pcOperand ∧ (∃ t, exec (.ldARam 0 false) (filled 0 0 0) = .next t)
      ∧ step (at_ 0) = .fault .readOfUnwritten ∧ step { at_ 0 with holes := [⟨.prog, 0, 0⟩] } = .fault .stuck :=
  ⟨rfl, ldARam_next, rfl, rfl⟩

theorem witness_FrameHoldsForEveryInstantiation :
    ∃ t, runForm (confH .highFirst) (modelH (confH .highFirst)) (.incReg .al2 none) (strapped 0xFFFE) = .next t := ⟨_, rfl⟩
theorem witness_FrameRefusals :
    checkOperand (.incReg .x none) (at_ 0) = none ∧ (modelOf fun s => s.setPc 1).sem (Instr.incReg .x none).form ≠ none
      ∧ checkOperand (.incReg .pc none) (at_ 0) = some .pcOperand
      ∧ isTransfer (.incReg .x none) = false ∧ ((at_ 0).hidden.setPc 1).pc ≠ (at_ 0).pc
      ∧ ({ (at_ 0) with prog := [(0, 1)] } : State).prog ≠ (at_ 0).prog ∧ inData.spaces ≠ (at_ 0).spaces
      ∧ ((at_ 0).hidden.withBf 1).bf ≠ (at_ 0).hidden.bf
      ∧ (strapped 0).selbf = true ∧ ({ (strapped 0).hidden with rc := 1 } : State).rc ≠ (strapped 0).hidden.rc
      ∧ namesSt (.incReg .x none) = false
      ∧ (0x40 : Word) &&& protectedMask StLayout.fallback ≠ (at_ 0).st &&& protectedMask StLayout.fallback :=
  ⟨rfl, by simp [modelOf], rfl, rfl, by decide, by show [(0, (1 : Word))] ≠ []; simp, by decide, by decide, rfl, by decide, rfl, by decide⟩
/-- The same conditions seen through the frame (R72 (3)). -/
theorem test_frame_host_buffer :
    refusal? (runForm (confH .highFirst) (modelOf fun s => s.withBf 1) (.incReg .x none) (at_ 0)) = some (.frame .INC_REG)
      ∧ refusal? (runForm (confH .highFirst) (modelOf fun s => { s with rc := 1 }) (.incReg .x none) (strapped 0))
        = some (.frame .INC_REG)
      ∧ (value? (runForm (confH .highFirst) (modelOf fun s => { s with rc := 1 }) (.incReg .x none) (at_ 0))).map (·.rc) = some 1 := by
  refine ⟨by rfl, by rfl, ?_⟩
  have h : runForm (confH .highFirst) (modelOf fun s => { s with rc := 1 }) (.incReg .x none) (at_ 0)
      = .next ({ (at_ 0) with rc := 1 }.setPc 1) := by rfl
  rw [h]; rfl
theorem witness_DecoderConditions :
    decode (confH .highFirst) 5 0x10 = .instr (.bra (.other 1) 0x10) ∧ needsSecond (confH .highFirst) 18 = false
      ∧ (confH .highFirst).firstWord 0xF0 = .custom ∧ needsSecond (confH .highFirst) 5 = true := ⟨rfl, rfl, rfl, rfl⟩
theorem witness_WordsThatSelectNothingAreRefused :
    memRead (loadAtPc (at_ 0x100) 0xF0 0) .prog 0x100 = .next 0xF0 ∧ (confH .highFirst).firstWord 0xF0 = .custom
      ∧ (confH .highFirst).firstWord 0xF1 = .unlisted ∧ needsSecond (confH .highFirst) 0xF2 = false
      ∧ decode (confH .highFirst) 0xF2 0 = .undecoded ∧ needsSecond (confH .highFirst) 0xF3 = true ∧ (at_ 0xFFFE).pc ≠ 0xFFFF
      ∧ memRead (loadAtPc (at_ 0xFFFE) 0xF3 7) .prog 0xFFFF = .next 7 ∧ decode (confH .highFirst) 0xF3 7 = .undecoded :=
  ⟨rfl, rfl, rfl, rfl, rfl, rfl, by decide, rfl, rfl⟩
theorem witness_StepRunsTheDecodedInstruction :
    (loadAtPc (at_ 0xFFFE) 5 0x10).pc ≠ 0xFFFF ∧ memRead (loadAtPc (at_ 0xFFFE) 5 0x10) .prog 0xFFFE = .next 5
      ∧ memRead (loadAtPc (at_ 0xFFFE) 5 0x10) .prog 0xFFFF = .next 0x10
      ∧ decode (confH .highFirst) 5 0x10 = .instr (.bra (.other 1) 0x10) := ⟨by decide, rfl, rfl, rfl⟩
theorem witness_FetchStops :
    ({ at_ 0x40 with holes := [⟨.prog, 0x40, 0x40⟩] } : State).present .prog 0x40 = false ∧ (at_ 0x40).present .prog 0x40 = true
      ∧ (at_ 0x40).word? .prog 0x40 = none ∧ memRead (loadAtPc (at_ 0xFFFF) 5 0) .prog 0xFFFF = .next 5
      ∧ needsSecond (confH .highFirst) 5 = true
      ∧ ({ launch 0x40 [(0x40, 5)] [] [] [] with holes := [⟨.prog, 0x41, 0x41⟩] } : State).present .prog 0x41 = false
      ∧ (launch 0x40 [(0x40, 5)] [] [] []).word? .prog 0x41 = none := ⟨rfl, rfl, rfl, rfl, rfl, rfl, rfl⟩
theorem witness_EncodeThenDecodeIsTheInstruction :
    decode (confH .highFirst) 9 0xBEEF = .instr (.aopi 0 .acc1 .acc2 0xBEEF) ∧ decode (confH .highFirst) 8 0 = .instr (.adsi ⟨1, 3⟩ 5) :=
  ⟨rfl, rfl⟩
theorem witness_EncodingIsInjective : encode (confH .highFirst) (.ldDInd .al2 ⟨0, 0⟩ false) = some [1] := by rfl
theorem test_encode_two_words : encode (confH .highFirst) (.bra (.other 1) 0x10) = some [5, 0x10] := by rfl
theorem witness_LoadedWordsAreFetched : (at_ 0xFFFE).pc ≠ 0xFFFF ∧ (at_ 0xFFFF).pc = 0xFFFF := by decide
/-- R52: loading inside an absent range leaves the rest of it absent. -/
theorem test_load_in_a_hole :
    (loadAtPc { at_ 0x40 with holes := [⟨.prog, 0x3F, 0x42⟩, ⟨.data0, 0, 0xFFFF⟩] } 1 2).holes
        = [⟨.prog, 0x3F, 0x3F⟩, ⟨.prog, 0x42, 0x42⟩, ⟨.data0, 0, 0xFFFF⟩]
      ∧ (loadAtPc { at_ 0xFFFF with holes := [⟨.prog, 0, 0xFFFF⟩] } 1 2).holes = [⟨.prog, 0, 0xFFFE⟩] := ⟨by rfl, by rfl⟩
theorem witness_RunEndsAtEndPc : EndsAt 0x100 0 (at_ 0x100) (at_ 0x100) := ⟨rfl, rfl⟩
theorem witness_StoppedRunIsNeverFinal : ∀ t, runUntil 0x100 1 (at_ 0) ≠ .next t := by
  have h : runUntil 0x100 1 (at_ 0) = .fault .readOfUnwritten := rfl
  intro t ht
  rw [h] at ht
  cases ht

end Sys2Proof.Tests
end

section
/-! PROOFS. The statements about the state: the register file, ST, the pointer file, the host buffer, and where an access or the pc stops an
instruction (spec/10_state.md). -/

namespace Sys2Proof

/-! ## Legal layouts of ST (R21, R22) -/

theorem StField.mem_all (f : StField) : f ∈ StField.all := by cases f <;> decide

theorem StField.all_rank (f : StField) : StField.all[f.rank]? = some f := by cases f <;> rfl

theorem StField.rank_injective {f g : StField} (h : f.rank = g.rank) : f = g :=
  Option.some.inj (by rw [← f.all_rank, h, g.all_rank])

/-- In an ordered list of fields, none upside down, each stands to the left of all after it and not only of the next. -/
theorem StLayout.pairwise_of_ordered {l : StLayout} (hb : ∀ f, (l f).lo ≤ (l f).hi) (fs : List StField)
    (h : l.ordered fs = true) : fs.Pairwise fun f g => (l g).hi < (l f).lo := by
  induction fs with
  | nil => exact .nil
  | cons f rest ih =>
    cases rest with
    | nil => exact List.pairwise_singleton _ _
    | cons g rest =>
      obtain ⟨hfg, hrest⟩ := Bool.and_eq_true_iff.1 h
      have hlt : (l g).hi < (l f).lo := of_decide_eq_true hfg
      have hg := ih hrest
      refine .cons (fun k hk => ?_) hg
      obtain rfl | hk := List.mem_cons.1 hk
      · exact hlt
      · have hkg := List.rel_of_pairwise_cons hg hk
        have := hb g
        omega

theorem StLayout.bounds_of_legal {l : StLayout} (h : l.legal = true) (f : StField) : (l f).lo ≤ (l f).hi ∧ (l f).hi ≤ 15 := by
  have hall := List.all_eq_true.1 (Bool.and_eq_true_iff.1 h).1 f f.mem_all
  simpa using hall

theorem StLayout.left_of_rank_lt {l : StLayout} (h : l.legal = true) {f g : StField} (hr : f.rank < g.rank) :
    (l g).hi < (l f).lo := by
  have hp := StLayout.pairwise_of_ordered (fun f => (StLayout.bounds_of_legal h f).1) _ (Bool.and_eq_true_iff.1 h).2
  obtain ⟨hf, hf'⟩ := List.getElem?_eq_some_iff.1 f.all_rank
  obtain ⟨hg, hg'⟩ := List.getElem?_eq_some_iff.1 g.all_rank
  have hfg := List.pairwise_iff_getElem.1 hp _ _ hf hg hr
  rwa [hf', hg'] at hfg

theorem StLayout.disjoint_of_legal {l : StLayout} (h : l.legal = true) {f g : StField} (hne : g ≠ f) :
    (l g).hi < (l f).lo ∨ (l f).hi < (l g).lo := by
  obtain hr | hr := Nat.lt_or_gt_of_ne fun hr => hne (StField.rank_injective hr)
  · exact .inr (StLayout.left_of_rank_lt h hr)
  · exact .inl (StLayout.left_of_rank_lt h hr)

theorem StLayout.legalised_of_legal {l : StLayout} (h : l.legal = true) : l.legalised = l := if_pos h

theorem StLayout.legal_legalised (l : StLayout) : l.legalised.legal = true := by
  unfold StLayout.legalised
  split
  · assumption
  · decide

end Sys2Proof

namespace Sys2Proof.Machine

/-! ## The host buffer is out of an instruction's reach (R26, R72 (3)) -/

theorem mapRes_andThen {α β γ : Type} (g : β → γ) (r : Res α) (f : α → Res β) :
    mapRes g (andThen r f) = andThen r fun a => mapRes g (f a) := by
  cases r <;> rfl

theorem andThen_mapRes {α β γ : Type} (g : α → β) (r : Res α) (f : β → Res γ) :
    andThen (mapRes g r) f = andThen r fun a => f (g a) := by
  cases r <;> rfl

@[simp] theorem memRead_withBf (s : State) (v : Word) (sp : Space) (a : Word) : memRead (s.withBf v) sp a = memRead s sp a := by
  cases sp <;> rfl

@[simp] theorem checkOperand_withBf (i : Instr) (s : State) (v : Word) : checkOperand i (s.withBf v) = checkOperand i s := rfl

theorem runAccesses_withBf (c : Config) (l : List Access) (s : State) (v : Word) :
    runAccesses c l (s.withBf v) = mapRes (fun t => t.withBf v) (runAccesses c l s) :=
  runAccesses_map (f := fun t => t.withBf v) (fun _ => rfl) (fun _ sp => by cases sp <;> rfl)
    (fun _ sp _ _ => by cases sp <;> rfl) c l s

/-- The accesses are formed from the hidden state, so from no bit of BF. -/
@[simp] theorem made_withBf (e : Effect) (i : Instr) (s : State) (v : Word) : e.made i (s.withBf v) = e.made i s := by
  rw [← made_hidden, hidden_withBf, made_hidden]

theorem applyEffect_withBf (c : Config) (i : Instr) (e : Effect) (base s : State) (v : Word) :
    applyEffect c i e (base.withBf v) (s.withBf v) = mapRes (fun t => t.withBf v) (applyEffect c i e base s) := by
  simp only [applyEffect, made_withBf, runAccesses_withBf, andThen_mapRes, mapRes_andThen, mapRes_mapRes, settle_withBf,
    withBf_ptr, withBf_sp]

/-- A condition is evaluated on the hidden state: its truth value and its change are the same with another BF. -/
theorem evalOperand_withBf (c : Config) (i : Instr) (s : State) (v : Word) :
    evalOperand c i (s.withBf v) = ((evalOperand c i s).1, (evalOperand c i s).2.withBf v) := by
  unfold evalOperand
  cases condOperand i <;> rfl

theorem semEffect_withBf (c : Config) (i : Instr) (s : State) (v : Word) : semEffect c i (s.withBf v) = semEffect c i s := by
  simp only [semEffect, evalOperand_withBf, hidden_withBf]

theorem runEffect_withBf (c : Config) (i : Instr) (s : State) (v : Word) :
    runEffect c i (s.withBf v) = mapRes (fun t => t.withBf v) (runEffect c i s) := by
  simp only [runEffect, semEffect_withBf, evalOperand_withBf, applyEffect_withBf]

theorem advance_withBf (i : Instr) (a : Word) (t : State) (v : Word) :
    advance i a (t.withBf v) = mapRes (fun u => u.withBf v) (advance i a t) := by
  unfold advance
  split
  · rfl
  · split <;> rfl

theorem run_withBf (c : Config) (i : Instr) (s : State) (v : Word) :
    run c i (s.withBf v) = mapRes (fun t => t.withBf v) (run c i s) := by
  unfold run
  rw [checkOperand_withBf]
  cases checkOperand i s with
  | some r => rfl
  | none => simp only [runEffect_withBf, andThen_mapRes, mapRes_andThen, advance_withBf, withBf_pc]

theorem exec_withBf (i : Instr) (s : State) (v : Word) : exec i (s.withBf v) = mapRes (fun t => t.withBf v) (exec i s) := by
  simp only [exec_eq_run, run_withBf]

theorem runDecoded_withBf {f : Instr → State → Res State} (s : State) (v : Word)
    (hf : ∀ i, f i (s.withBf v) = mapRes (fun t => t.withBf v) (f i s)) (d : Decoded) :
    runDecoded f d (s.withBf v) = mapRes (fun t => t.withBf v) (runDecoded f d s) := by
  cases d with
  | instr i => exact hf i
  | undecoded => rfl
  | custom => rfl
  | unlisted => rfl

/-- The fetch reads `PROG` and the pc only, so a step learns of BF no more than the instruction it runs. -/
theorem fetchRun_withBf (c : Config) {f : Instr → State → Res State} (s : State) (v : Word)
    (hf : ∀ i, f i (s.withBf v) = mapRes (fun t => t.withBf v) (f i s)) :
    fetchRun c f (s.withBf v) = mapRes (fun t => t.withBf v) (fetchRun c f s) := by
  simp only [fetchRun, memRead_withBf, withBf_pc, mapRes_andThen, runDecoded_withBf s v hf]
  congr 1
  funext w0
  split
  · split
    · rfl
    · exact (mapRes_andThen ..).symm
  · rfl

/-- Settles O40: each stage of a step commutes with a change of BF. -/
theorem hostBufferIsNeverLearned : Obligations.HostBufferIsNeverLearned := fun s v =>
  fetchRun_withBf Config.chip s v fun i => exec_withBf i s v

/-! ## The register file (R10, R26, R28, R31, R36) -/

@[simp] theorem reg_setReg_same (s : State) (a : RegAddr) (v : Word) : (s.setReg a v).reg a = v := by
  cases a with
  | bfRc => cases hs : s.selbf <;> simp [State.reg, State.setReg, hs]
  | _ => rfl

theorem reg_setReg_other (s : State) {a b : RegAddr} (v : Word) (h : b ≠ a) : (s.setReg a v).reg b = s.reg b := by
  cases a <;> cases b <;> first | rfl | exact absurd rfl h

@[simp] theorem mem_setReg (s : State) (a : RegAddr) (v : Word) (sp : Space) : (s.setReg a v).mem sp = s.mem sp := by
  cases sp <;> simp

theorem setReg_bf (s : State) (a : RegAddr) (v : Word) :
    (s.setReg a v).bf = if a = .bfRc ∧ s.selbf = true then v else s.bf := by
  cases a <;> simp [State.setReg]

theorem setReg_rc (s : State) (a : RegAddr) (v : Word) :
    (s.setReg a v).rc = if a = .bfRc ∧ s.selbf = false then v else s.rc := by
  cases a with
  | bfRc => cases hs : s.selbf <;> simp [State.setReg, hs]
  | _ => simp [State.setReg]

theorem regOfNumber_regNumber (a : RegAddr) : regOfNumber (regNumber a) = some a := by cases a <;> rfl

theorem regNumber_lt (a : RegAddr) : regNumber a < 16 := by cases a <;> decide

theorem exists_regNumber_eq (n : Nat) (hn : n < 16) : ∃ a, regNumber a = n := by
  have hall : ∀ n < 16, ∃ a ∈ regOfNumber n, regNumber a = n := by decide
  obtain ⟨a, -, ha⟩ := hall n hn
  exact ⟨a, ha⟩

/-- Settles O3. -/
theorem registerStoresSixteenBits : Obligations.RegisterStoresSixteenBits := by
  refine ⟨exists_regNumber_eq, fun s a b v => ⟨reg_setReg_same s a v, reg_setReg_other s v, fun ha => ?_, fun hs => ?_, fun hs => ?_,
    setReg_ptr .., mem_setReg s a v, setReg_selbf .., setReg_holes .., setReg_spaces .., setReg_freeCount ..,
    regOfNumber_regNumber a, regNumber_lt a⟩⟩
  · simp [setReg_bf, setReg_rc, ha]
  · simp [setReg_rc, hs]
  · simp [setReg_bf, hs]

theorem readReg_allowed {s : State} {a : RegAddr} (h : a = .bfRc → s.selbf = false) : readReg s a = .next (s.reg a) :=
  if_neg fun ⟨ha, hs⟩ => by simp [h ha] at hs

theorem writeReg_allowed {s : State} {a : RegAddr} (v : Word) (h : a = .bfRc → s.selbf = false) :
    writeReg s a v = .next (s.setReg a v) :=
  if_neg fun ⟨ha, hs⟩ => by simp [h ha] at hs

/-- Settles O5: the strap by `run_kept`, the rest by what `setReg` does to BF and RC. -/
theorem addressThirteenIsSelectedBySelbf : Obligations.AddressThirteenIsSelectedBySelbf := by
  intro s v
  refine ⟨fun hs => ?_, fun hs => ?_, rfl, rfl, fun i t h => ?_⟩
  · have hreg : s.reg .bfRc = s.bf := if_pos hs
    exact ⟨hreg, by simp [setReg_bf, hs], by simp [setReg_rc, hs], if_pos ⟨rfl, hs⟩, if_pos ⟨rfl, hs⟩⟩
  · have hreg : s.reg .bfRc = s.rc := if_neg (by simp [hs])
    refine ⟨(readReg_allowed fun _ => hs).trans (by rw [hreg]), _, writeReg_allowed v fun _ => hs, ?_, ?_⟩
    · simp [setReg_rc, hs]
    · simp [setReg_bf, hs]
  · rw [exec_eq_run] at h
    exact (run_kept h).selbf

/-! ## Register names (R32) -/

theorem mem_regNames (n : RegName) : n ∈ regNames := by cases n <;> decide

theorem nameAddr_bfRc {n : RegName} (h : nameAddr n = .bfRc) : n = .BF ∨ n = .RC := by
  have hall : ∀ n ∈ regNames, nameAddr n = .bfRc → n = .BF ∨ n = .RC := by decide
  exact hall n (mem_regNames n) h

/-- Settles O4: away from BF a name reads and writes the register at its address. -/
theorem namesOfOneAddressAreOneRegister : Obligations.NamesOfOneAddressAreOneRegister := by
  refine ⟨rfl, mem_regNames, by decide, fun s m n v hm hn hrc => ?_⟩
  have hsel : ∀ k, k ≠ .BF → (s.selbf = true → k ≠ .RC) → nameAddr k = .bfRc → s.selbf = false := fun k hk hkr ha =>
    Bool.eq_false_iff.2 fun hs => (nameAddr_bfRc ha).elim hk (hkr hs)
  have hselM := hsel m hm fun hs => (hrc hs).1
  have hselN := hsel n hn fun hs => (hrc hs).2
  have hread : ∀ t : State, t.selbf = s.selbf → readName t n = .next (t.reg (nameAddr n)) := fun t ht =>
    (if_neg hn).trans (readReg_allowed fun ha => ht.trans (hselN ha))
  refine ⟨_, (if_neg hm).trans (writeReg_allowed v hselM), fun h => ?_, fun h => ?_⟩
  · rw [hread _ (setReg_selbf ..), h, reg_setReg_same]
  · rw [hread _ (setReg_selbf ..), hread s rfl, reg_setReg_other s v h]

/-! ## Accumulators (R31) -/

theorem accHigh_injective {n m : Acc} (h : accHigh n = accHigh m) : n = m := by
  cases n <;> cases m <;> revert h <;> decide

theorem accLow_injective {n m : Acc} (h : accLow n = accLow m) : n = m := by
  cases n <;> cases m <;> revert h <;> decide

theorem accLow_ne_accHigh (n m : Acc) : accLow n ≠ accHigh m := by cases n <;> cases m <;> decide

theorem reg_accHigh_setAcc (s : State) (n m : Acc) (v : DWord) :
    (s.setAcc n v).reg (accHigh m) = if m = n then v.hi else s.reg (accHigh m) := by
  unfold State.setAcc
  split
  · next h => rw [h, reg_setReg_same]
  · next h =>
    rw [reg_setReg_other _ _ fun h' => h (accHigh_injective h'), reg_setReg_other _ _ (accLow_ne_accHigh n m).symm]

theorem reg_accLow_setAcc (s : State) (n m : Acc) (v : DWord) :
    (s.setAcc n v).reg (accLow m) = if m = n then v.lo else s.reg (accLow m) := by
  unfold State.setAcc
  rw [reg_setReg_other _ _ (accLow_ne_accHigh m n)]
  split
  · next h => rw [h, reg_setReg_same]
  · next h => rw [reg_setReg_other _ _ fun h' => h (accLow_injective h')]

/-- Settles O6: the two halves of an accumulator are two registers of no other accumulator. -/
theorem accumulatorIsHighOverLow : Obligations.AccumulatorIsHighOverLow := by
  refine ⟨rfl, fun s n m v => ⟨DWord.hi_make .., DWord.lo_make .., ?_, fun h => ?_⟩⟩
  · simp [State.acc, reg_accHigh_setAcc, reg_accLow_setAcc]
  · simp [State.acc, reg_accHigh_setAcc, reg_accLow_setAcc, h]

/-! ## Sub-fields (R27, R29, R30) -/

theorem extractLsb'_bit (v : Word) (start len k : Nat) (hk : k < len) :
    (v.extractLsb' start len).getLsbD k = v.getLsbD (k + start) := by
  rw [BitVec.getLsbD_extractLsb', decide_eq_true hk, Bool.true_and, Nat.add_comm]

/-- Settles O7. -/
theorem subfieldsAreTheNamedBits : Obligations.SubfieldsAreTheNamedBits := fun v =>
  ⟨extractLsb'_bit v 8 8, extractLsb'_bit v 0 8, extractLsb'_bit v 0 6, extractLsb'_bit v 0 9, extractLsb'_bit v 9 7⟩

/-! ## ST under a legal layout (R21 to R23) -/

/-- Settles O8: the adjacent order, carried along the list of fields. -/
theorem statusFieldsStandInOrder : Obligations.StatusFieldsStandInOrder := by
  refine ⟨rfl, rfl, rfl, fun l f g hl hr k m hk hm => ?_⟩
  rw [rangeMask_bit _ (StLayout.bounds_of_legal hl _).2, Bool.and_eq_true, decide_eq_true_eq, decide_eq_true_eq] at hk hm
  have := StLayout.left_of_rank_lt hl hr
  omega

/-- Settles O9. -/
theorem chipLayoutIsLegal : Obligations.ChipLayoutIsLegal :=
  ⟨StLayout.legal_legalised _, fun _ => StLayout.legalised_of_legal⟩

theorem readField_bit {l : StLayout} {f : StField} (h : (l f).hi ≤ 15) (st : Word) (k : Nat) :
    (readField l f st).getLsbD k = (decide ((l f).lo + k ≤ (l f).hi) && st.getLsbD ((l f).lo + k)) := by
  simp [readField, rangeMask_bit _ h, Bool.and_comm]

theorem writeField_bit {l : StLayout} {f : StField} (h : (l f).hi ≤ 15) (st v : Word) (k : Nat) :
    (writeField l f st v).getLsbD k = if (l f).lo ≤ k ∧ k ≤ (l f).hi then v.getLsbD (k - (l f).lo) else st.getLsbD k := by
  simp only [writeField, BitVec.getLsbD_or, BitVec.getLsbD_and, BitVec.getLsbD_not, BitVec.getLsbD_shiftLeft, rangeMask_bit _ h]
  split
  · next hk =>
    have hk16 : k < 16 := by omega
    simp [hk.1, hk.2, hk16, Nat.not_lt.2 hk.1]
  · next hk =>
    have hmask : (decide ((l f).lo ≤ k) && decide (k ≤ (l f).hi)) = false := by simpa using hk
    rw [hmask]
    by_cases hk16 : k < 16
    · simp [hk16]
    · simp [hk16, BitVec.getLsbD_of_ge st k (Nat.le_of_not_lt hk16)]

/-- Settles O10: bit by bit, the fields of a legal layout being disjoint. -/
theorem statusFieldWriteIsLocal : Obligations.StatusFieldWriteIsLocal := by
  intro l f g st v hl
  obtain ⟨hlo, hhi⟩ := StLayout.bounds_of_legal hl f
  refine ⟨fun k => ?_, fun hne => BitVec.eq_of_getLsbD_eq fun k _ => ?_⟩
  · rw [readField_bit hhi, writeField_bit hhi]
    by_cases hk : (l f).lo + k ≤ (l f).hi
    · have hk' : k ≤ (l f).hi - (l f).lo := by omega
      simp [hk, hk']
    · have hk' : ¬k ≤ (l f).hi - (l f).lo := by omega
      simp [hk, hk']
  · have hg := (StLayout.bounds_of_legal hl g).2
    rw [readField_bit hg, readField_bit hg, writeField_bit hhi]
    by_cases hk : (l g).lo + k ≤ (l g).hi
    · have hout : ¬((l f).lo ≤ (l g).lo + k ∧ (l g).lo + k ≤ (l f).hi) := by
        have := StLayout.disjoint_of_legal hl hne
        omega
      rw [if_neg hout]
    · simp [hk]

/-- Settles O37: of ST the frame keeps the protected bits. -/
theorem onlyAluFlagsChange : Obligations.OnlyAluFlagsChange := by
  intro i s t h hst f hf
  have hn : namesSt i = false := decide_eq_false hst
  have hflag : ∀ f ∈ [StField.op, .iex, .ie2, .ie1, .ie0, .prl], isAluFlag f = false := by decide
  rw [exec_eq_run] at h
  exact readField_of_masked _ f (hflag f hf) _ _ ((run_kept h).st hn)

/-! ## The pointer file (R33) -/

theorem PtrFile.read_of_above {p : PtrFile} {r : Rij} (h : p.above r = true) : p.read r = 0 := by
  induction p with
  | nil => rfl
  | cons e rest ih =>
    obtain ⟨k, v⟩ := e
    simp only [PtrFile.above, List.all_cons, Bool.and_eq_true] at h
    obtain ⟨hb, hrest⟩ := h
    have hne : r ≠ k := by
      rintro rfl
      rw [ptrBefore_irrefl] at hb
      cases hb
    exact (if_neg hne).trans (ih hrest)

theorem PtrFile.read_erase_same {p : PtrFile} (r : Rij) (h : p.canonical = true) : (p.erase r).read r = 0 := by
  induction p with
  | nil => rfl
  | cons e rest ih =>
    obtain ⟨k, v⟩ := e
    simp only [PtrFile.canonical, Bool.and_eq_true] at h
    obtain ⟨⟨-, habove⟩, hrest⟩ := h
    simp only [PtrFile.erase]
    split
    · next hk => exact hk ▸ PtrFile.read_of_above habove
    · next hk => exact (if_neg hk).trans (ih hrest)

theorem PtrFile.read_insert_same (p : PtrFile) (r : Rij) (w : Nat) : (p.insert r w).read r = w := by
  induction p with
  | nil => exact if_pos rfl
  | cons e rest ih =>
    obtain ⟨k, v⟩ := e
    simp only [PtrFile.insert]
    split
    · exact if_pos rfl
    · split
      · exact if_pos rfl
      · next hk => exact (if_neg hk).trans ih

theorem PtrFile.read_write_same {p : PtrFile} (r : Rij) (w : Nat) (h : p.canonical = true) : (p.write r w).read r = w := by
  unfold PtrFile.write
  split
  · next hw => rw [hw, PtrFile.read_erase_same r h]
  · exact PtrFile.read_insert_same p r w

/-- Settles O11. -/
theorem pointerWriteIsLocal : Obligations.PointerWriteIsLocal := by
  intro s r q v h
  split
  · next hq => exact hq ▸ PtrFile.read_write_same r v h
  · next hq => exact PtrFile.read_write_other _ _ _ _ hq

/-! ## Where an access stops an instruction (R35, R45, R52, R53) -/

theorem memRead_absent {s : State} {sp : Space} {a : Word} (h : s.present sp a = false) : memRead s sp a = .fault .stuck :=
  if_neg (by simp [h])

theorem memRead_unwritten {s : State} {sp : Space} {a : Word} (hp : s.present sp a = true) (hw : s.word? sp a = none) :
    memRead s sp a = .fault .readOfUnwritten := by
  simp only [memRead, hp, hw, if_true]

theorem memWrite_absent {s : State} {sp : Space} {a : Word} (v : Word) (hsp : sp ≠ .prog) (h : s.present sp a = false) :
    memWrite s sp a v = .fault .stuck :=
  (if_neg hsp).trans (if_neg (by simp [h]))

theorem checkDouble_odd {c : Config} (s : State) (sp : Space) {a : Word} (hc : c.dwOrder.consecutive = true)
    (ha : c.dwAlign = .evenOnly) (ho : a.toNat % 2 = 1) : checkDouble c s sp a = .refused .dwMisaligned :=
  if_pos ⟨hc, ha, ho⟩

theorem checkDouble_last {c : Config} (s : State) (sp : Space) {a : Word} (hc : c.dwOrder.consecutive = true)
    (ha : c.dwAlign = .any) (hl : a = 0xFFFF) : checkDouble c s sp a = .refused .addressWrap :=
  (if_neg fun ⟨_, he, _⟩ => by rw [ha] at he; cases he).trans (if_pos ⟨hc, hl⟩)

theorem access_readDouble_refused {c : Config} {s : State} {sp : Space} {a : Word} {e : Refusal}
    (h : checkDouble c s sp a = .refused e) : access c s (.readDouble sp a) = .refused e := by
  simp only [access, memReadDouble, h, andThen, mapRes]

theorem access_storeDouble_refused {c : Config} {s : State} {sp : Space} {a : Word} {e : Refusal} (d : DWord) (hsp : sp ≠ .prog)
    (h : checkDouble c s sp a = .refused e) : access c s (.storeDouble sp a d) = .refused e := by
  simp only [access, memWriteDouble, if_neg hsp, h, andThen]

theorem runAccesses_present {c : Config} {l : List Access} {s t : State} (h : runAccesses c l s = .next t) (sp : Space) (a : Word) :
    t.present sp a = s.present sp a := by
  obtain ⟨d0, d1, rfl⟩ := runAccesses_next h
  rfl

section
variable {c : Config} {before : List Access} {s t : State} (hb : runAccesses c before s = .next t)
include hb

theorem runAccesses_split (x : Access) (after : List Access) :
    runAccesses c (before ++ x :: after) s = andThen (access c t x) (runAccesses c after) := by
  rw [runAccesses_append, hb]
  rfl

/-- An access that a primitive stops, stops the accesses it stands among, whatever comes after it. -/
theorem runAccesses_fault {x : Access} {f : Fault} (hx : access c t x = .fault f) (after : List Access) :
    runAccesses c (before ++ x :: after) s = .fault f := by
  rw [runAccesses_split hb, hx]
  rfl

theorem runAccesses_refused {x : Access} {e : Refusal} (hx : access c t x = .refused e) (after : List Access) :
    runAccesses c (before ++ x :: after) s = .refused e := by
  rw [runAccesses_split hb, hx]
  rfl

theorem runAccesses_doubleRefused {sp : Space} {a : Word} {e : Refusal} (hx : checkDouble c t sp a = .refused e) (d : DWord)
    (after : List Access) :
    runAccesses c (before ++ .readDouble sp a :: after) s = .refused e
      ∧ (sp ≠ .prog → runAccesses c (before ++ .storeDouble sp a d :: after) s = .refused e) :=
  ⟨runAccesses_refused hb (access_readDouble_refused hx) after,
    fun hsp => runAccesses_refused hb (access_storeDouble_refused d hsp hx) after⟩

end

/-- Settles O31: the accesses before leave `MEM_PRESENT` as it was and change the words they store only. -/
theorem accessesStopInOrder : Obligations.AccessesStopInOrder := by
  intro c before after s t sp a v d hb
  have hpres := runAccesses_present hb sp a
  refine ⟨fun hp => ?_, fun hp hl hw => ?_, fun hsp hp => ?_, runAccesses_refused hb rfl after, fun hc ha ho => ?_,
    fun hc ha hl => ?_⟩
  · exact runAccesses_fault hb (x := .read sp a) (by rw [access, memRead_absent (hpres.trans hp)]; rfl) after
  · have hword : t.word? sp a = none := by rw [runAccesses_word hb, hl, hw]; rfl
    exact runAccesses_fault hb (x := .read sp a) (by rw [access, memRead_unwritten (hpres.trans hp) hword]; rfl) after
  · exact runAccesses_fault hb (x := .store sp a v) (memWrite_absent v hsp (hpres.trans hp)) after
  · exact runAccesses_doubleRefused hb (checkDouble_odd t sp hc ha ho) d after
  · exact runAccesses_doubleRefused hb (checkDouble_last t sp hc ha hl) d after

/-! ## The pc past 0xFFFF, and forbidden operands (R24, R37) -/

theorem advance_pcWrap {i : Instr} {a : Word} (hi : isTransfer i = false) (ha : 65536 ≤ a.toNat + i.words) (t : State) :
    advance i a t = .refused .pcWrap :=
  (if_neg (by simp [hi])).trans (if_neg (Nat.not_lt.2 ha))

/-- Settles O36: the effect comes first, and then the pc has no next value. -/
theorem carryOutOfThePcIsRefused : Obligations.CarryOutOfThePcIsRefused := by
  intro i s hi hpc
  have hadv := advance_pcWrap hi hpc
  rw [exec_eq_run]
  refine ⟨fun t h => ?_, fun hop hm => ?_⟩
  · obtain ⟨-, u, -, hu⟩ := run_next h
    rw [hadv] at hu
    cases hu
  · obtain ⟨t, ht⟩ | ⟨hd, -, e, he, -, heven⟩ := runEffect_ready chip_wide hm
    · have hrun : run Config.chip i s = .refused .pcWrap := by simp only [run, hop, ht, andThen, hadv]
      exact ⟨fun _ => hrun, .inl hrun⟩
    · have hrun : run Config.chip i s = .refused e := by simp only [run, hop, he, andThen]
      exact ⟨by simp [hd], .inr (heven rfl ▸ hrun)⟩

theorem checkOperand_forbidden {i : Instr} {s : State} {a : RegAddr} {e : Refusal} (hi : regOperand i = some a)
    (h : (a = .pc ∧ e = .pcOperand) ∨ (a = .bfRc ∧ s.selbf = true ∧ e = .bfAccess)) : checkOperand i s = some e := by
  obtain ⟨rfl, rfl⟩ | ⟨rfl, hs, rfl⟩ := h
  · simp only [checkOperand, hi]
  · simp only [checkOperand, hi, hs, if_true]

theorem exec_of_checkOperand {i : Instr} {s : State} {e : Refusal} (h : checkOperand i s = some e) : exec i s = .refused e := by
  rw [exec_eq_run]
  simp only [run, h]

/-- Settles O34. -/
theorem forbiddenOperandsAreRefused : Obligations.ForbiddenOperandsAreRefused := by
  intro s op ad src r k ko w a e h
  have key : ∀ i, regOperand i = some a → exec i s = .refused e := fun i hi => exec_of_checkOperand (checkOperand_forbidden hi h)
  exact ⟨key _ rfl, key _ rfl, key _ rfl, key _ rfl, key _ rfl, key _ rfl, key _ rfl⟩

end Sys2Proof.Machine
end

section
/-! PROOFS. The statements about memory: its primitives, where a double word stands, effective addresses and pointer steps at the end of a
memory, which form reaches which space, and the invariant every step keeps (spec/20_memory.md). -/

namespace Sys2Proof.Machine

/-! ## Every step keeps the invariant (R40 to R44, R52, R33) -/

/-- The invariant with the memories gathered by space. -/
theorem inv_iff (s : State) :
    s.Inv ↔ s.memWf ∧ s.ptr.wf Config.chip = true ∧ ∀ sp, sp ≠ .prog → dataPresent s sp = true := by
  constructor
  · rintro ⟨hprog, hdata0, hdata1, hptr, hpresent0, hpresent1⟩
    refine ⟨fun sp => ?_, hptr, fun sp hsp => ?_⟩
    · cases sp with
      | prog => exact hprog
      | data0 => exact hdata0
      | data1 => exact hdata1
    · cases sp with
      | prog => exact absurd rfl hsp
      | data0 => exact hpresent0
      | data1 => exact hpresent1
  · rintro ⟨hmem, hptr, hpresent⟩
    exact ⟨hmem .prog, hmem .data0, hmem .data1, hptr, hpresent .data0 (by decide), hpresent .data1 (by decide)⟩

theorem dataPresent_setWord {s : State} {q : Space} (h : dataPresent s q = true) {sp : Space} {a : Word}
    (ha : s.present sp a = true) (v : Word) : dataPresent (s.setWord sp a v) q = true := by
  unfold dataPresent at h ⊢
  rw [setWord_holes]
  by_cases hq : q = sp
  · subst hq
    rw [setWord_mem_same]
    exact Memory.all_write _ _ _ _ h ha
  · rwa [setWord_mem_other _ _ _ _ _ hq]

theorem inv_setWord {s : State} (h : s.Inv) {sp : Space} {a : Word} (ha : s.present sp a = true) (v : Word) :
    (s.setWord sp a v).Inv := by
  obtain ⟨hmem, hptr, hpresent⟩ := (inv_iff s).1 h
  refine (inv_iff _).2 ⟨memWf_setWord _ _ _ _ hmem, ?_, fun q hq => dataPresent_setWord (hpresent q hq) ha v⟩
  rwa [setWord_ptr]

theorem inv_runAccesses {c : Config} {l : List Access} {s t : State} (hs : s.Inv) (h : runAccesses c l s = .next t) : t.Inv := by
  refine runAccesses_induction h State.Inv hs fun u sp a v _ hholes ha hu => inv_setWord hu ?_ v
  rwa [State.present, hholes]

/-- A change settled on a pointer file in its canonical form. -/
theorem inv_settle {s : State} (h : s.Inv) {p : PtrFile} (hp : p.wf Config.chip = true) (names transfer : Bool) (e : Change) :
    (settle Config.chip names transfer e p s).Inv := by
  obtain ⟨hprog, hdata0, hdata1, -, hpresent⟩ := h
  exact ⟨hprog, hdata0, hdata1, applyPtrs_wf _ _ _ hp, hpresent⟩

theorem inv_ptr {s : State} (h : s.Inv) : s.ptr.wf Config.chip = true := ((inv_iff s).1 h).2.1

theorem inv_evalOperand (i : Instr) {s : State} (h : s.Inv) : (evalOperand Config.chip i s).2.Inv := by
  obtain ⟨-, he⟩ | ⟨k, -, he⟩ := evalOperand_cases Config.chip i s <;> rw [he]
  · exact h
  · exact inv_settle h (inv_ptr h) ..

theorem inv_applyEffect {i : Instr} {e : Effect} {base s t : State} (hb : base.ptr.wf Config.chip = true) (hs : s.Inv)
    (h : applyEffect Config.chip i e base s = .next t) : t.Inv := by
  obtain ⟨u, q, v, hu, hq, -, rfl⟩ := applyEffect_next h
  exact inv_settle (inv_runAccesses hs hu) ((stepFile_next hq).1 hb (inv_ptr hs)) ..

theorem inv_advance {i : Instr} {a : Word} {t u : State} (ht : t.Inv) (h : advance i a t = .next u) : u.Inv := by
  obtain ⟨-, rfl⟩ | ⟨-, -, rfl⟩ := advance_next h <;> exact ht

theorem inv_exec {i : Instr} {s t : State} (hs : s.Inv) (h : exec i s = .next t) : t.Inv := by
  rw [exec_eq_run] at h
  obtain ⟨-, u, hu, ht⟩ := run_next h
  exact inv_advance (inv_applyEffect (inv_ptr hs) (inv_evalOperand i hs) hu) ht

/-- Settles O41: the fetch changes nothing, and every stage of an instruction keeps the invariant. -/
theorem stepKeepsInvariant : Obligations.StepKeepsInvariant := by
  have key : ∀ (c : Config) (s t : State), s.Inv → fetchRun c exec s = .next t → t.Inv := fun c s t hs h => by
    obtain ⟨-, -, i, -, -, hi⟩ := fetchRun_next h
    exact inv_exec hs hi
  exact ⟨key Config.chip, key⟩

/-! ## What the primitives answer (R45, R46, R47, R59) -/

theorem memRead_next_iff {s : State} {sp : Space} {a v : Word} :
    memRead s sp a = .next v ↔ s.present sp a = true ∧ s.word? sp a = some v := by
  obtain ⟨w, hp, hw, h⟩ | ⟨hp, hw, h⟩ | ⟨hp, h⟩ := memRead_cases s sp a <;> simp [*]

theorem memReadDouble_next_iff {c : Config} {s : State} {sp : Space} {a : Word} {v : DWord} :
    memReadDouble c s sp a = .next v ↔ checkDouble c s sp a = .next ()
      ∧ s.word? (place c.dwOrder sp a).1.1 (place c.dwOrder sp a).1.2 = some v.hi
      ∧ s.word? (place c.dwOrder sp a).2.1 (place c.dwOrder sp a).2.2 = some v.lo := by
  constructor
  · intro h
    obtain ⟨u, hu, h⟩ := andThen_next h
    split at h
    · next hi lo hhi hlo =>
      cases h
      rw [DWord.hi_make, DWord.lo_make]
      exact ⟨hu, hhi, hlo⟩
    · cases h
  · rintro ⟨hu, hhi, hlo⟩
    simp only [memReadDouble, hu, hhi, hlo, andThen, DWord.make_halves]

@[simp] theorem checkDouble_setWord (c : Config) (s : State) (q sp : Space) (b a v : Word) :
    checkDouble c (s.setWord q b v) sp a = checkDouble c s sp a := by
  simp only [checkDouble, setWord_present]

theorem memRead_memWrite_same {s t : State} {sp : Space} {a v : Word} (h : memWrite s sp a v = .next t) :
    memRead t sp a = .next v := by
  obtain ⟨-, hp, rfl⟩ := memWrite_next _ _ _ _ _ h
  rw [memRead_next_iff, setWord_present, setWord_word?]
  exact ⟨hp, if_pos ⟨rfl, rfl⟩⟩

theorem memWrite_other {s t : State} {sp : Space} {a v : Word} (h : memWrite s sp a v = .next t) {q : Space} {b : Word}
    (hne : ¬(q = sp ∧ b = a)) : t.word? q b = s.word? q b := by
  obtain ⟨-, -, rfl⟩ := memWrite_next _ _ _ _ _ h
  rw [setWord_word?, if_neg hne]

/-- Under every order the two words of a double word stand in two places. -/
theorem place_distinct (o : DwOrder) (sp : Space) (a : Word) : (place o sp a).1 ≠ (place o sp a).2 := by
  have hne : a ≠ a + 1 := by bv_omega
  cases o with
  | highFirst => exact fun h => hne (congrArg Prod.snd h)
  | lowFirst => exact fun h => hne (congrArg Prod.snd h).symm
  | splitD0High => exact fun h => by cases h
  | splitD1High => exact fun h => by cases h

section
variable {c : Config} {s t : State} {sp : Space} {a : Word} {v : DWord} (h : memWriteDouble c s sp a v = .next t)
include h

theorem memWriteDouble_word? :
    t.word? (place c.dwOrder sp a).1.1 (place c.dwOrder sp a).1.2 = some v.hi
      ∧ t.word? (place c.dwOrder sp a).2.1 (place c.dwOrder sp a).2.2 = some v.lo := by
  obtain ⟨-, -, rfl⟩ := memWriteDouble_next _ _ _ _ _ _ h
  have hne := place_distinct c.dwOrder sp a
  rw [setWord_word?, setWord_word?, setWord_word?, if_neg fun hp => hne (Prod.ext hp.1 hp.2)]
  exact ⟨if_pos ⟨rfl, rfl⟩, if_pos ⟨rfl, rfl⟩⟩

theorem memWriteDouble_other {q : Space} {b : Word} (h1 : (q, b) ≠ (place c.dwOrder sp a).1)
    (h2 : (q, b) ≠ (place c.dwOrder sp a).2) : t.word? q b = s.word? q b := by
  obtain ⟨-, -, rfl⟩ := memWriteDouble_next _ _ _ _ _ _ h
  rw [setWord_word?, if_neg fun hp => h2 (Prod.ext hp.1 hp.2), setWord_word?, if_neg fun hp => h1 (Prod.ext hp.1 hp.2)]

theorem memReadDouble_memWriteDouble_same : memReadDouble c t sp a = .next v := by
  refine memReadDouble_next_iff.2 ⟨?_, memWriteDouble_word? h⟩
  obtain ⟨-, hc, rfl⟩ := memWriteDouble_next _ _ _ _ _ _ h
  rwa [checkDouble_setWord, checkDouble_setWord]

end

/-- The one-word contents that a double-word read is made of. -/
theorem memRead_of_memReadDouble {c : Config} {s : State} {sp : Space} {a : Word} {v : DWord}
    (h : memReadDouble c s sp a = .next v) :
    memRead s (place c.dwOrder sp a).1.1 (place c.dwOrder sp a).1.2 = .next v.hi
      ∧ memRead s (place c.dwOrder sp a).2.1 (place c.dwOrder sp a).2.2 = .next v.lo := by
  obtain ⟨hc, hhi, hlo⟩ := memReadDouble_next_iff.1 h
  obtain ⟨hp1, hp2⟩ := checkDouble_next hc
  exact ⟨memRead_next_iff.2 ⟨hp1, hhi⟩, memRead_next_iff.2 ⟨hp2, hlo⟩⟩

/-- Under a consecutive order both words stand in the space of the access. -/
theorem place_space {o : DwOrder} (ho : o.consecutive = true) (sp : Space) (a : Word) :
    (place o sp a).1.1 = sp ∧ (place o sp a).2.1 = sp := by
  cases o with
  | highFirst => exact ⟨rfl, rfl⟩
  | lowFirst => exact ⟨rfl, rfl⟩
  | splitD0High => cases ho
  | splitD1High => cases ho

/-- Settles O14: what is written is what is read, and both words of a consecutive order stand in the space of the access. -/
theorem memoryContract : Obligations.MemoryContract := by
  refine ⟨fun s t sp a v h => ⟨memRead_memWrite_same h, fun q b hne => memWrite_other h hne⟩, fun c s t sp a v h => ?_⟩
  refine ⟨memReadDouble_memWriteDouble_same h, fun ho q b hq => ?_⟩
  obtain ⟨h1, h2⟩ := place_space ho sp a
  exact memWriteDouble_other h (fun hp => hq ((congrArg Prod.fst hp).trans h1)) fun hp => hq ((congrArg Prod.fst hp).trans h2)

/-- Settles O15: a double word reads back, a double-word read is made of one-word contents, and no place but its two is written. -/
theorem doubleWordStandsWhereTheOrderPutsIt : Obligations.DoubleWordStandsWhereTheOrderPutsIt := by
  refine ⟨fun c s t sp a v h => ?_, fun c s sp a v h => ?_⟩
  · have hread := memRead_of_memReadDouble (memReadDouble_memWriteDouble_same h)
    have hother := fun q b => memWriteDouble_other (q := q) (b := b) h
    refine ⟨fun ho => ?_, fun ho => ?_, fun ho => ?_, fun ho => ?_⟩ <;> simp only [ho, place] at hread hother
    · exact ⟨hread.1, hread.2, fun q b hne =>
        hother q b (by rintro ⟨⟩; exact hne ⟨rfl, .inl rfl⟩) (by rintro ⟨⟩; exact hne ⟨rfl, .inr rfl⟩)⟩
    · exact ⟨hread.2, hread.1, fun q b hne =>
        hother q b (by rintro ⟨⟩; exact hne ⟨rfl, .inr rfl⟩) (by rintro ⟨⟩; exact hne ⟨rfl, .inl rfl⟩)⟩
    · exact ⟨hread.1, hread.2, fun q b hne =>
        hother q b (by rintro ⟨⟩; exact hne ⟨by decide, rfl⟩) (by rintro ⟨⟩; exact hne ⟨by decide, rfl⟩)⟩
    · exact ⟨hread.1, hread.2, fun q b hne =>
        hother q b (by rintro ⟨⟩; exact hne ⟨by decide, rfl⟩) (by rintro ⟨⟩; exact hne ⟨by decide, rfl⟩)⟩
  · have hread := memRead_of_memReadDouble h
    refine ⟨fun ho => ?_, fun ho => ?_, fun ho => ?_, fun ho => ?_⟩ <;> simp only [ho, place] at hread
    · exact hread
    · exact hread.symm
    · exact hread
    · exact hread

/-! ## The side conditions of the primitives (R45, R46, R52) -/

/-- Where alignment and wrap allow a double word, it wants both its words present and nothing else. -/
theorem checkDouble_allowed {c : Config} {a : Word}
    (h : c.dwOrder.consecutive = true → a.toNat % 2 = 0 ∨ (c.dwAlign = .any ∧ a ≠ 0xFFFF)) (s : State) (sp : Space) :
    checkDouble c s sp a
      = if s.present (place c.dwOrder sp a).1.1 (place c.dwOrder sp a).1.2
          && s.present (place c.dwOrder sp a).2.1 (place c.dwOrder sp a).2.2 then .next () else .fault .stuck := by
  have hodd : ¬(c.dwOrder.consecutive = true ∧ c.dwAlign = .evenOnly ∧ a.toNat % 2 = 1) := fun ⟨ho, hal, ha⟩ => by
    obtain h0 | ⟨hany, -⟩ := h ho
    · omega
    · rw [hal] at hany; cases hany
  have hlast : ¬(c.dwOrder.consecutive = true ∧ a = 0xFFFF) := fun ⟨ho, ha⟩ => by
    obtain h0 | ⟨-, hne⟩ := h ho
    · subst ha; cases h0
    · exact hne ha
  rw [checkDouble, if_neg hodd, if_neg hlast]

theorem memReadDouble_fault {c : Config} {s : State} {sp : Space} {a : Word} {f : Fault} (h : checkDouble c s sp a = .fault f) :
    memReadDouble c s sp a = .fault f := by
  simp only [memReadDouble, h, andThen]

theorem memReadDouble_refused {c : Config} {s : State} {sp : Space} {a : Word} {e : Refusal}
    (h : checkDouble c s sp a = .refused e) : memReadDouble c s sp a = .refused e := by
  simp only [memReadDouble, h, andThen]

theorem memReadDouble_unwritten {c : Config} {s : State} {sp : Space} {a : Word} (hc : checkDouble c s sp a = .next ())
    (h : s.word? (place c.dwOrder sp a).1.1 (place c.dwOrder sp a).1.2 = none
      ∨ s.word? (place c.dwOrder sp a).2.1 (place c.dwOrder sp a).2.2 = none) :
    memReadDouble c s sp a = .fault .readOfUnwritten := by
  obtain ⟨-, -, ⟨v, hv⟩ | hf⟩ | ⟨f, hf, -⟩ | ⟨e, he, -⟩ := memReadDouble_cases c s sp a
  · obtain ⟨-, hhi, hlo⟩ := memReadDouble_next_iff.1 hv
    simp [hhi, hlo] at h
  · exact hf
  · rw [hc] at hf; cases hf
  · rw [hc] at he; cases he

/-- A double-word write to a data space ends as its side conditions do. -/
theorem memWriteDouble_data (c : Config) (s : State) {sp : Space} (hsp : sp ≠ .prog) (a : Word) (v : DWord) :
    memWriteDouble c s sp a v = mapRes (fun _ =>
      (s.setWord (place c.dwOrder sp a).1.1 (place c.dwOrder sp a).1.2 v.hi).setWord
        (place c.dwOrder sp a).2.1 (place c.dwOrder sp a).2.2 v.lo) (checkDouble c s sp a) :=
  if_neg hsp

/-- Settles O17: at an address that alignment and wrap allow, presence alone decides the side conditions. -/
theorem doubleWordNeedsBothHalvesPresent : Obligations.DoubleWordNeedsBothHalvesPresent := by
  intro c s sp a v hallowed
  have hcheck := checkDouble_allowed hallowed s sp
  refine ⟨fun habsent => ?_, fun hp1 hp2 => ?_⟩
  · have hstuck : checkDouble c s sp a = .fault .stuck := hcheck.trans (if_neg (by obtain h | h := habsent <;> simp [h]))
    exact ⟨memReadDouble_fault hstuck, fun hsp => by rw [memWriteDouble_data c s hsp, hstuck]; rfl⟩
  · have hok : checkDouble c s sp a = .next () := hcheck.trans (if_pos (by rw [hp1, hp2]; rfl))
    refine ⟨fun hsp => ⟨_, by rw [memWriteDouble_data c s hsp, hok]; rfl⟩, memReadDouble_unwritten hok, fun hi lo hhi hlo => ?_⟩
    rw [memReadDouble_next_iff, DWord.hi_make, DWord.lo_make]
    exact ⟨hok, hhi, hlo⟩

theorem memWrite_present {s : State} {sp : Space} {a : Word} (v : Word) (hsp : sp ≠ .prog) (h : s.present sp a = true) :
    memWrite s sp a v = .next (s.setWord sp a v) :=
  (if_neg hsp).trans (if_pos h)

/-- Settles O16: a double word is refused as its side conditions are, a write to a data space and a read alike. -/
theorem sideConditionsInOrder : Obligations.SideConditionsInOrder := by
  intro c s sp a w v
  have hwrite : sp ≠ .prog → ∀ e, checkDouble c s sp a = .refused e → memWriteDouble c s sp a v = .refused e := fun hsp e he => by
    rw [memWriteDouble_data c s hsp, he]; rfl
  exact ⟨rfl, rfl, memWrite_absent w, memWrite_present w, memRead_absent,
    fun hsp hc hal ha => hwrite hsp _ (checkDouble_odd s sp hc hal ha),
    fun hsp hc hal ha => hwrite hsp _ (checkDouble_last s sp hc hal ha),
    fun hc hal ha => memReadDouble_refused (checkDouble_odd s sp hc hal ha),
    fun hc hal ha => memReadDouble_refused (checkDouble_last s sp hc hal ha)⟩

theorem memRead_not_refused (s : State) (sp : Space) (a : Word) (r : Refusal) : memRead s sp a ≠ .refused r := by
  obtain ⟨v, -, -, h⟩ | ⟨-, -, h⟩ | ⟨-, h⟩ := memRead_cases s sp a <;> rw [h] <;> nofun

theorem memReadDouble_not_refused {c : Config} (hc : c.dwOrder.consecutive = false) (s : State) (sp : Space) (a : Word)
    (r : Refusal) : memReadDouble c s sp a ≠ .refused r := by
  intro hr
  have hx : access c s (.readDouble sp a) = .refused r := by simp only [access, hr]; rfl
  obtain ⟨t, h⟩ | ⟨f, h, -⟩ | ⟨e, -, hconsecutive, -⟩ := access_cases c s (.readDouble sp a)
  · cases hx.symm.trans h
  · cases hx.symm.trans h
  · cases hc.symm.trans hconsecutive

theorem memWrite_refused {s : State} {sp : Space} {a v : Word} {r : Refusal} (h : memWrite s sp a v = .refused r) :
    r = .programWrite := by
  by_cases hsp : sp = .prog
  · subst hsp; cases h; rfl
  · cases hp : s.present sp a with
    | false => cases (memWrite_absent v hsp hp).symm.trans h
    | true => cases (memWrite_present v hsp hp).symm.trans h

/-- Settles O18: a one-word access and a double word under a split order have no refusal of alignment among theirs. -/
theorem oneWordIsAlwaysAligned : Obligations.OneWordIsAlwaysAligned :=
  ⟨memRead_not_refused, fun _ _ _ _ _ => memWrite_refused, fun _ s sp a r hc => memReadDouble_not_refused hc s sp a r⟩

/-! ## Effective addresses and pointer steps at the end of a memory (R52, D12) -/

theorem addressSum_outside {n : Int} (h : 65535 < n ∨ n < 0) : addressSum n = .refused .addressWrap :=
  if_neg (by omega)

theorem addressSum_inside {n : Int} (h0 : 0 ≤ n) (h1 : n ≤ 65535) : ∃ a : Word, addressSum n = .next a ∧ (a.toNat : Int) = n := by
  refine ⟨BitVec.ofInt 16 n, if_pos ⟨h0, by omega⟩, ?_⟩
  rw [BitVec.toNat_ofInt]
  omega

section
variable {i : Instr} (b : RegAddr) (d : ShortImm) {s : State}

theorem effAddr_direct {ram : DirectAddr} (h : memOperand i = .direct ram) :
    effAddr i b d s = addressSum ((baseValue s b + ram.toNat : Nat) : Int) := by
  simp only [effAddr, h]

theorem effAddr_displaced {base : Nat}
    (h : (∃ r, (memOperand i = .pointer r ∨ memOperand i = .pointerP r) ∧ base = s.readPtr r % 65536)
      ∨ (memOperand i = .stack ∧ base = s.sp.toNat)) : effAddr i b d s = addressSum (base + d.toInt) := by
  obtain ⟨r, hr, rfl⟩ | ⟨hs, rfl⟩ := h
  · have haddr : (s.ptrAddr r).toNat = s.readPtr r % 65536 := BitVec.toNat_ofNat ..
    obtain hr | hr := hr <;> simp only [effAddr, hr, haddr]
  · simp only [effAddr, hs]

end

/-- The first access asked for, where the instruction reaches it, is the first one made. -/
theorem made_cons {e : Effect} {i : Instr} {s : State} {q : Request} {rest : List Request} (hr : reaches i s q.access = true)
    (he : e.accesses = q :: rest) : ∃ l, e.made i s = q.formed i s :: l := by
  have hf : (q :: rest).filter (fun q => reaches i s q.access) = q :: rest.filter fun q => reaches i s q.access :=
    List.filter_cons_of_pos hr
  exact ⟨_, by rw [Effect.made, he, hf, List.map_cons]⟩

theorem applyEffect_refused {c : Config} {i : Instr} {e : Effect} {base s : State} {r : Refusal}
    (h : runAccesses c (e.made i base) s = .refused r) : applyEffect c i e base s = .refused r := by
  simp only [applyEffect, h, andThen]

/-- Settles O13: an access formed by a refused sum has no address, and stops the effect as its first. -/
theorem effectiveAddressPastTheEndIsRefused : Obligations.EffectiveAddressPastTheEndIsRefused := by
  refine ⟨fun i b d s => ⟨fun ram hram => ?_, fun base hbase => ?_⟩, fun c i e base s x b d rest hx he => ⟨fun hr => ?_, fun a ha => ?_⟩⟩
  · rw [effAddr_direct b d hram]
    refine ⟨fun h => addressSum_outside (by omega), fun h => ?_⟩
    obtain ⟨a, ha, hn⟩ := addressSum_inside (n := (baseValue s b + ram.toNat : Nat)) (by omega) (by omega)
    exact ⟨a, ha, by omega⟩
  · rw [effAddr_displaced b d hbase]
    exact ⟨addressSum_outside, addressSum_inside⟩
  · obtain ⟨l, hl⟩ := made_cons hx he
    have hformed : Request.formed ⟨x, some (b, d)⟩ i base = .pastEnd := by simp only [Request.formed, hr, value?]
    exact applyEffect_refused (by rw [hl, hformed]; rfl)
  · obtain ⟨l, hl⟩ := made_cons hx he
    have hformed : Request.formed ⟨x, some (b, d)⟩ i base = x.at a := by simp only [Request.formed, ha, value?]
    exact ⟨l, by rw [hl, hformed]⟩

/-- Settles O12: a pointer of 16 bits or more reaches 65,536 addresses. -/
theorem pointerStepPastTheEndIsRefused : Obligations.PointerStepPastTheEndIsRefused := by
  intro c v d hwide
  have hcases := stepPtr_cases c v d
  rw [ptrSpan_wide hwide] at hcases
  obtain ⟨w, hsum, hhigh, hnext⟩ | ⟨hout, hrefused⟩ := hcases
  · exact ⟨fun h => by omega, fun h => by omega, fun _ _ => ⟨w, hnext, hsum, hhigh⟩⟩
  · exact ⟨fun _ => hrefused, fun _ => hrefused, fun h0 h1 => absurd ⟨h0, by omega⟩ hout⟩

/-! ## Which form reaches which space (R51) -/

/-- The forms with a memory operand, and CALL. -/
theorem form_of_memOperand {i : Instr} (h : memOperand i ≠ .none) :
    i.form ∈ [Form.AOP_A_RAM, .AOP_IND, .INC_IND, .DEC_IND, .LD_A_RAM, .LD_RAM_A, .LD_D_IND, .LD_IND_S, .LD_D_INDP, .LD_INDP_S, .CALL] := by
  cases i with
  | adsi | aopPtr | aopReg | aopi | aopsi | bra | incReg | decReg => exact absurd rfl h
  | _ => simp [Instr.form]

theorem form_of_takesDouble {i : Instr} (h : takesDouble i = true) :
    i.form ∈ [Form.AOP_A_RAM, .AOP_IND, .LD_A_RAM, .LD_RAM_A, .LD_D_IND, .LD_IND_S] := by
  cases i with
  | aopARam | aopInd | ldARam | ldRamA | ldDInd | ldIndS => simp [Instr.form]
  | _ => cases h

theorem prog_mem_memorySpaces {i : Instr} {s : State} (h : .prog ∈ memorySpaces i s) :
    (i.form ∈ [Form.LD_D_INDP, .LD_INDP_S] ∧ s.spaces.indp = true) ∨ (i.form = .CALL ∧ s.spaces.stack = true) := by
  have hopen : ∀ b : Bool, Space.prog ∈ (if b then [Space.prog, .data0, .data1] else [.data0, .data1]) → b = true := by decide
  cases i with
  | ldDIndp | ldIndpS => exact .inl ⟨by simp [Instr.form], hopen _ h⟩
  | call => exact .inr ⟨rfl, hopen _ h⟩
  | _ => simp [memorySpaces, memOperand] at h

theorem prog_not_mem_of_takesDouble {i : Instr} (h : takesDouble i = true) (s : State) : .prog ∉ memorySpaces i s := by
  cases i with
  | aopARam | aopInd | ldARam | ldRamA | ldDInd | ldIndS => simp [memorySpaces, memOperand]
  | _ => cases h

theorem reaches_of_made {e : Effect} {i : Instr} {s : State} {x : Access} (h : x ∈ e.made i s) (hx : x ≠ .pastEnd) :
    reaches i s x = true :=
  (made_cases h).resolve_right fun hp => hx hp.1

/-- Settles O27: an access made at an address is one the form reaches. -/
theorem accessesStayInTheirFormsSpaces : Obligations.AccessesStayInTheirFormsSpaces := by
  intro e i s sp a v d
  refine ⟨fun h => form_of_memOperand fun hn => h (made_of_none hn), fun h hsp => ?_, fun h => ?_, form_of_takesDouble⟩
  · have hreach : decide (sp ∈ memorySpaces i s) = true :=
      h.elim (fun h => reaches_of_made h nofun) fun h => reaches_of_made h nofun
    exact prog_mem_memorySpaces (hsp ▸ of_decide_eq_true hreach)
  · have hreach : (decide (sp ∈ memorySpaces i s) && takesDouble i) = true :=
      h.elim (fun h => reaches_of_made h nofun) fun h => reaches_of_made h nofun
    obtain ⟨hmem, hdouble⟩ := Bool.and_eq_true_iff.1 hreach
    exact ⟨fun hp => prog_not_mem_of_takesDouble hdouble s (hp ▸ of_decide_eq_true hmem), hdouble⟩

/-! ## Where the memory forms with ",w" complete -/

theorem run_ptr_other {i : Instr} {s t : State} (h : run Config.chip i s = .next t) {r : Rij} (hr : r.wf Config.chip = false) :
    t.readPtr r = s.readPtr r := by
  obtain ⟨-, u, hu, ht⟩ := run_next h
  obtain ⟨w, q, v, -, hq, -, rfl⟩ := applyEffect_next hu
  have hfile : (applyPtrs Config.chip (semEffect Config.chip i s).ptr q).read r = s.ptr.read r :=
    calc _ = q.read r := applyPtrs_other _ _ _ _ hr
      _ = (evalOperand Config.chip i s).2.readPtr r := (stepFile_next hq).2 r hr
      _ = s.readPtr r := evalOperand_ptr_other i s hr
  obtain ⟨-, rfl⟩ | ⟨-, -, rfl⟩ := advance_next ht <;> exact hfile

/-- Every instruction that answers a next state keeps the frame of R72. -/
theorem run_frameHeld {i : Instr} {s t : State} (h : run Config.chip i s = .next t) : FrameHeld i s t := by
  have hk := run_kept h
  refine ⟨fun a => ?_, hk.bf, hk.selbf, hk.holes, hk.spaces, hk.rc, fun hn f hf => readField_of_masked _ f hf _ _ (hk.st hn),
    fun r hr => run_ptr_other h hr⟩
  simp only [State.word?, mem_prog, hk.prog]

theorem oneWord_of_takesDouble {i : Instr} (h : takesDouble i = true) : isTransfer i = false ∧ i.words = 1 := by
  cases i with
  | aopARam | aopInd | ldARam | ldRamA | ldDInd | ldIndS => exact ⟨rfl, rfl⟩
  | _ => cases h

/-- A form with ",w" that nothing but a double word can stop completes, or is refused for where the double word stands. -/
theorem run_double_ready {c : Config} (hw : 16 ≤ c.ptrWidth) {i : Instr} {s : State} (hd : takesDouble i = true)
    (hop : checkOperand i s = none) (hm : MemoryReady i s) (hroom : RoomFor 1 s) :
    (∃ t, run c i s = .next t ∧ t.pc = s.pc + 1)
      ∨ (c.dwOrder.consecutive = true
          ∧ (run c i s = .refused .dwMisaligned ∨ (c.dwAlign = .any ∧ run c i s = .refused .addressWrap))) := by
  obtain ⟨htransfer, hwords⟩ := oneWord_of_takesDouble hd
  obtain ⟨u, hu⟩ | ⟨-, hc, e, he, hreason, heven⟩ := runEffect_ready hw hm
  · have hadv : advance i s.pc u = .next (u.setPc (s.pc + 1)) := by
      have : s.pc.toNat + 1 < 65536 := hroom
      simp [advance, htransfer, hwords, this]
    exact .inl ⟨u.setPc (s.pc + 1), by simp only [run, hop, hu, andThen, hadv], rfl⟩
  · have hrun : run c i s = .refused e := by simp only [run, hop, he, andThen]
    refine .inr ⟨hc, ?_⟩
    cases halign : c.dwAlign with
    | evenOnly => exact .inl (heven halign ▸ hrun)
    | any =>
      obtain rfl | rfl := hreason
      · exact .inl hrun
      · exact .inr ⟨rfl, hrun⟩

/-- Settles O25: the chip's DW_ALIGN is even_only, which leaves the alignment as the one refusal. -/
theorem doubleWordFormsCompleteOrAreRefused : Obligations.DoubleWordFormsCompleteOrAreRefused := by
  intro i s hd hop hm hroom
  refine ⟨?_, fun c hw => ⟨fun hsplit => ?_, ?_⟩⟩
  · rw [exec_eq_run]
    obtain ⟨t, ht, hpc⟩ | ⟨-, h | ⟨hany, -⟩⟩ := run_double_ready chip_wide hd hop hm hroom
    · exact .inl ⟨t, ht, hpc, run_frameHeld ht⟩
    · exact .inr h
    · cases hany
  · exact (run_double_ready hw hd hop hm hroom).resolve_right fun h => by simp [hsplit] at h
  · exact (run_double_ready hw hd hop hm hroom).imp_right And.right

/-! ## `PROG` is constant (R56) -/

/-- What every step keeps, a run keeps. -/
theorem runUntil_keeps {P : State → Prop} (hstep : ∀ t u, P t → step t = .next u → P u) {endPc : Word} {n : Nat} {s t : State}
    (hs : P s) (h : runUntil endPc n s = .next t) : P t := by
  induction n generalizing s with
  | zero => cases h; exact hs
  | succ n ih =>
    simp only [runUntil] at h
    split at h
    · cases h; exact hs
    · split at h
      · next u hu => exact ih (hstep s u hs hu) h
      · cases h
      · cases h

theorem step_prog {s t : State} (h : step s = .next t) : t.prog = s.prog := by
  obtain ⟨i, -, hi⟩ := step_next h
  exact (run_kept hi).prog

/-- Settles O38: every instruction keeps `PROG`, so every step does, and so every run. -/
theorem programMemoryIsConstant : Obligations.ProgramMemoryIsConstant :=
  ⟨fun _ _ s _ h => runUntil_keeps (P := fun t => t.prog = s.prog) (fun _ _ ht hu => (step_prog hu).trans ht) rfl h,
    fun i s _ h => (run_kept ((exec_eq_run i s).symm.trans h)).prog, fun _ _ _ => rfl, fun _ _ _ _ _ => rfl⟩

end Sys2Proof.Machine
end

section
/-! PROOFS. The statements about the encoding: the decoder's conditions, the encoder as its partial inverse, and what the fetch does with
the words at the pc (spec/30_encoding.md R61 to R67, R72). -/

namespace Sys2Proof

/-! ## Lengths (R62, R63) -/

theorem Instr.words_secondWord (i : Instr) :
    (i.words = 1 ∧ i.secondWord = none) ∨ (i.words = 2 ∧ ∃ w1, i.secondWord = some w1) := by
  cases i with
  | adsi => exact Laws.Lengths.adsi ..
  | aopARam => exact Laws.Lengths.aopARam ..
  | aopInd => exact Laws.Lengths.aopInd ..
  | aopPtr => exact Laws.Lengths.aopPtr ..
  | aopReg => exact Laws.Lengths.aopReg ..
  | aopi => exact Laws.Lengths.aopi ..
  | aopsi => exact Laws.Lengths.aopsi ..
  | bra => exact Laws.Lengths.bra ..
  | call => exact Laws.Lengths.call ..
  | incInd => exact Laws.Lengths.incInd ..
  | decInd => exact Laws.Lengths.decInd ..
  | incReg => exact Laws.Lengths.incReg ..
  | decReg => exact Laws.Lengths.decReg ..
  | ldARam => exact Laws.Lengths.ldARam ..
  | ldRamA => exact Laws.Lengths.ldRamA ..
  | ldDInd => exact Laws.Lengths.ldDInd ..
  | ldIndS => exact Laws.Lengths.ldIndS ..
  | ldDIndp => exact Laws.Lengths.ldDIndp ..
  | ldIndpS => exact Laws.Lengths.ldIndpS ..

theorem Instr.secondWord_of_words_one {i : Instr} (h : i.words = 1) : i.secondWord = none := by
  obtain ⟨-, hs⟩ | ⟨h2, -⟩ := i.words_secondWord
  · exact hs
  · omega

theorem Instr.words_of_secondWord {i : Instr} {w1 : Word} (h : i.secondWord = some w1) : i.words = 2 := by
  obtain ⟨-, hs⟩ | ⟨h2, -⟩ := i.words_secondWord
  · cases hs.symm.trans h
  · exact h2

theorem Instr.length_secondWord (i : Instr) : i.secondWord.toList.length + 1 = i.words := by
  obtain ⟨h, hs⟩ | ⟨h, w1, hs⟩ := i.words_secondWord <;> simp [h, hs]

/-! ## The decoder (R61) -/

/-- What a word pair that decodes to an instruction looks like: one word that ignores the next, or two words of which the second is the
instruction's own. -/
theorem decode_instr {c : Config} {w0 w1 : Word} {i : Instr} (h : decode c w0 w1 = .instr i) :
    i.wf c = true
      ∧ ((needsSecond c w0 = false ∧ i.words = 1 ∧ i.secondWord = none)
        ∨ (needsSecond c w0 = true ∧ i.words = 2 ∧ i.secondWord = some w1)) := by
  unfold decode at h
  unfold needsSecond
  cases hf : c.firstWord w0 with
  | undecoded => simp only [hf] at h; cases h
  | custom => simp only [hf] at h; cases h
  | unlisted => simp only [hf] at h; cases h
  | one j =>
    simp only [hf] at h
    split at h
    · next hj => cases h; exact ⟨hj.2, .inl ⟨rfl, hj.1, Instr.secondWord_of_words_one hj.1⟩⟩
    · cases h
  | two f =>
    simp only [hf] at h
    split at h
    · next hj => cases h; exact ⟨hj.2, .inr ⟨rfl, Instr.words_of_secondWord hj.1, hj.1⟩⟩
    · cases h

theorem decode_of_oneWord {c : Config} {w0 : Word} (h : needsSecond c w0 = false) (w1 w1' : Word) :
    decode c w0 w1 = decode c w0 w1' := by
  unfold needsSecond at h
  unfold decode
  cases hf : c.firstWord w0 with
  | two f => simp only [hf] at h; cases h
  | _ => rfl

theorem decode_custom {c : Config} {w0 : Word} (h : c.firstWord w0 = .custom) (w1 : Word) : decode c w0 w1 = .custom := by
  simp only [decode, h]

theorem decode_unlisted {c : Config} {w0 : Word} (h : c.firstWord w0 = .unlisted) (w1 : Word) : decode c w0 w1 = .unlisted := by
  simp only [decode, h]

theorem Decoded.instr?_eq_some {d : Decoded} {i : Instr} : d.instr? = some i ↔ d = .instr i := by
  cases d <;> simp [Decoded.instr?]

/-- Settles O48. -/
theorem decoderConditions : Obligations.DecoderConditions := by
  refine fun c w0 w1 w1' i => ⟨fun h => ?_, fun h => decode_of_oneWord h w1 w1', fun h => by rw [decode_custom h]; rfl⟩
  obtain ⟨hwf, ⟨hn, hw, -⟩ | ⟨hn, hw, hs⟩⟩ := decode_instr h
  · exact ⟨by rw [hn, hw]; rfl, hwf, fun ht => by rw [hn] at ht; cases ht⟩
  · exact ⟨by rw [hn, hw]; rfl, hwf, fun _ => hs⟩

/-! ## The encoder (R61, R63) -/

theorem encodes_iff {c : Config} {i : Instr} {w0 : Word} :
    encodes c i w0 = true ↔ decode c w0 (i.secondWord.getD 0) = .instr i := by
  rw [encodes, decide_eq_true_eq, Decoded.instr?_eq_some]

theorem encodes_of_decode {c : Config} {w0 w1 : Word} {i : Instr} (h : decode c w0 w1 = .instr i) : encodes c i w0 = true := by
  rw [encodes_iff]
  obtain ⟨-, ⟨hn, -, -⟩ | ⟨-, -, hs⟩⟩ := decode_instr h
  · rwa [decode_of_oneWord hn _ w1]
  · rwa [hs]

theorem encodes_of_searchFirstWord {c : Config} {i : Instr} {n k : Nat} {w0 : Word}
    (h : searchFirstWord c i n k = some w0) : encodes c i w0 = true := by
  induction n generalizing k with
  | zero => cases h
  | succ n ih =>
    simp only [searchFirstWord] at h
    split at h
    · next he => cases h; exact he
    · exact ih h

theorem searchFirstWord_finds {c : Config} {i : Instr} {n k m : Nat} (hk : k ≤ m) (hm : m < k + n)
    (h : encodes c i (BitVec.ofNat 16 m) = true) : ∃ w0, searchFirstWord c i n k = some w0 := by
  induction n generalizing k with
  | zero => omega
  | succ n ih =>
    simp only [searchFirstWord]
    split
    · exact ⟨_, rfl⟩
    · next hne =>
      have hkm : k ≠ m := fun hkm => hne (hkm ▸ h)
      exact ih (by omega) (by omega)

/-- The search goes through all 65,536 first words. -/
theorem encode_finds {c : Config} {w0 w1 : Word} {i : Instr} (h : decode c w0 w1 = .instr i) : ∃ ws, encode c i = some ws := by
  have he : encodes c i (BitVec.ofNat 16 w0.toNat) = true := by
    rw [BitVec.ofNat_toNat, BitVec.setWidth_eq]
    exact encodes_of_decode h
  obtain ⟨v, hv⟩ := searchFirstWord_finds (n := 65536) (Nat.zero_le _) (by omega) he
  exact ⟨_, by rw [encode, hv]; rfl⟩

theorem encode_some {c : Config} {i : Instr} {ws : List Word} (h : encode c i = some ws) :
    ∃ w0, ws = w0 :: i.secondWord.toList ∧ decode c w0 (i.secondWord.getD 0) = .instr i := by
  obtain ⟨w0, hw, rfl⟩ := Option.map_eq_some_iff.1 h
  exact ⟨w0, rfl, encodes_iff.1 (encodes_of_searchFirstWord hw)⟩

theorem length_encode {c : Config} {i : Instr} {ws : List Word} (h : encode c i = some ws) : ws.length = i.words := by
  obtain ⟨w0, rfl, -⟩ := encode_some h
  exact i.length_secondWord

theorem decodeWords_encode {c : Config} {i : Instr} {ws : List Word} (h : encode c i = some ws) (rest : List Word) :
    decodeWords c (ws ++ rest) = some (i, rest) := by
  obtain ⟨w0, rfl, hd⟩ := encode_some h
  obtain ⟨-, ⟨hn, -, hs⟩ | ⟨hn, -, hs⟩⟩ := decode_instr hd
  · rw [decode_of_oneWord hn _ 0] at hd
    simpa [decodeWords, hn, hs, Decoded.instr?_eq_some] using hd
  · rw [hs] at hd ⊢
    simpa [decodeWords, hn, Decoded.instr?_eq_some] using hd

/-- Settles O52: the encoder finds a first word, since one that decodes to the instruction is among those it searches, and the decoder
reads back what it found. -/
theorem encodeThenDecodeIsTheInstruction : Obligations.EncodeThenDecodeIsTheInstruction := by
  intro c w0 w1 i rest h
  obtain ⟨ws, hws⟩ := encode_finds h
  exact ⟨ws, hws, length_encode hws, decodeWords_encode hws rest⟩

/-- Settles O53: the words decode to both. -/
theorem encodingIsInjective : Obligations.EncodingIsInjective := by
  intro c i j ws hi hj
  have hij : some (i, []) = some (j, []) := (decodeWords_encode hi []).symm.trans (decodeWords_encode hj [])
  obtain ⟨w0, -, hd⟩ := encode_some hi
  exact ⟨congrArg Prod.fst (Option.some.inj hij), (decode_instr hd).1⟩

/-- Settles O47. -/
theorem formTable : Obligations.FormTable := rfl

end Sys2Proof

namespace Sys2Proof.Machine

/-! ## The fetch (R52, R66, R67, R72, R110) -/

section
variable {c : Config} {s : State} {w0 : Word} (f : Instr → State → Res State)

theorem fetchRun_fault {e : Fault} (h : memRead s .prog s.pc = .fault e) : fetchRun c f s = .fault e := by
  simp only [fetchRun, h, andThen]

variable (h0 : memRead s .prog s.pc = .next w0)
include h0

/-- The decoded words run, once every word the first one calls for is read. -/
theorem fetchRun_readable {w1 : Word}
    (h1 : needsSecond c w0 = true → s.pc ≠ 0xFFFF ∧ memRead s .prog (s.pc + 1) = .next w1) :
    fetchRun c f s = runDecoded f (decode c w0 w1) s := by
  cases hn : needsSecond c w0 with
  | false => simp only [fetchRun, h0, andThen, hn, Bool.false_eq_true, if_false, decode_of_oneWord hn w1 0]
  | true =>
    obtain ⟨hpc, hr⟩ := h1 hn
    simp only [fetchRun, h0, andThen, hn, if_true, if_neg hpc, hr]

variable (hn : needsSecond c w0 = true)
include hn

theorem fetchRun_pcWrap (hpc : s.pc = 0xFFFF) : fetchRun c f s = .refused .pcWrap := by
  simp only [fetchRun, h0, andThen, hn, if_true, if_pos hpc]

theorem fetchRun_second_fault (hpc : s.pc ≠ 0xFFFF) {e : Fault} (h1 : memRead s .prog (s.pc + 1) = .fault e) :
    fetchRun c f s = .fault e := by
  simp only [fetchRun, h0, andThen, hn, if_true, if_neg hpc, h1]

end

/-- Settles O49: the fetch runs what the words decode to, and each way to select nothing has its own refusal. -/
theorem wordsThatSelectNothingAreRefused : Obligations.WordsThatSelectNothingAreRefused := by
  intro c f s w0 h0
  have one : needsSecond c w0 = false → fetchRun c f s = runDecoded f (decode c w0 0) s := fun hn =>
    fetchRun_readable f h0 fun ht => by rw [hn] at ht; cases ht
  refine ⟨fun h => ?_, fun h => ?_, fun hn h => ?_, fun w1 hn hpc h1 h => ?_⟩
  · rw [one (by simp only [needsSecond, h]), decode_custom h]; rfl
  · rw [one (by simp only [needsSecond, h]), decode_unlisted h]; rfl
  · rw [one hn, h]; rfl
  · rw [fetchRun_readable f h0 fun _ => ⟨hpc, h1⟩, h]; rfl

/-- Settles O50. -/
theorem stepRunsTheDecodedInstruction : Obligations.StepRunsTheDecodedInstruction := by
  refine ⟨fun s w0 w1 hpc h0 h1 => ?_, fun c s w0 w1 i hd h0 h1 => ?_⟩
  · rw [step, fetchRun_readable exec h0 fun _ => ⟨hpc, h1⟩]
    cases decode Config.chip w0 w1 <;> rfl
  · rw [fetchRun_readable exec h0 fun hn => ?_, hd]
    · rfl
    · obtain ⟨-, ⟨hf, -⟩ | ⟨-, hw, -⟩⟩ := decode_instr hd
      · cases hf.symm.trans hn
      · exact h1 hw

/-- Settles O51: the first word is read before the second, and the second only where it has an address. -/
theorem fetchStops : Obligations.FetchStops := by
  intro c f s w0
  refine ⟨fun hp => fetchRun_fault f (memRead_absent hp), fun hp hw => fetchRun_fault f (memRead_unwritten hp hw), fun h0 hn =>
    ⟨fetchRun_pcWrap f h0 hn, fun hpc hp => ?_, fun hpc hp hw => ?_⟩⟩
  · exact fetchRun_second_fault f h0 hn hpc (memRead_absent hp)
  · exact fetchRun_second_fault f h0 hn hpc (memRead_unwritten hp hw)

end Sys2Proof.Machine
end

section
/-! PROOFS. The statements about what an instruction does to the state and where it stops, each read off its semantic function
(spec/30_encoding.md R72). -/

namespace Sys2Proof.Machine

/-! ## What a completed instruction leaves (R72, R93) -/

theorem selbf_of_runAccesses {c : Config} {l : List Access} {i : Instr} {s u : State}
    (h : runAccesses c l (evalOperand c i s).2 = .next u) : u.selbf = s.selbf := by
  obtain ⟨d0, d1, rfl⟩ := runAccesses_next h
  exact evalOperand_selbf c i s

/-- A completed instruction left its stores in memory and settled the change its semantic function answered; the pc is that function's for
BRA and CALL, and a + W for the rest. -/
theorem run_settled {c : Config} {i : Instr} {s t : State} (h : run c i s = .next t) :
    ∃ u q v, runAccesses c ((semEffect c i s).made i s) (evalOperand c i s).2 = .next u
      ∧ stepFile c ((semEffect c i s).stepOf c i) s.ptr (evalOperand c i s).2.ptr = .next q
      ∧ stepSp ((semEffect c i s).spStepOf i) s.sp ((semEffect c i s).reg .sp) = .next v
      ∧ t = (settle c (namesSt i) (isTransfer i) ((semEffect c i s).toChange.withSp v) q u).setPc
          (if isTransfer i then (semEffect c i s).reg .pc else s.pc + BitVec.ofNat 16 i.words) := by
  obtain ⟨-, w, hw, ht⟩ := run_next h
  obtain ⟨u, q, v, hu, hq, hv, rfl⟩ := applyEffect_next hw
  refine ⟨u, q, v, hu, hq, hv, ?_⟩
  obtain ⟨hi, rfl⟩ | ⟨hi, -, rfl⟩ := advance_next ht
  · simp only [hi, if_true]; rfl
  · simp only [hi, Bool.false_eq_true, if_false]

@[simp] theorem setPc_word? (s : State) (v : Word) (sp : Space) (a : Word) : (s.setPc v).word? sp a = s.word? sp a := by
  cases sp <;> rfl

/-- Settles O26: settling a change and moving the pc leave memory as the accesses left it. -/
theorem onlyStoredWordsChange : Obligations.OnlyStoredWordsChange := by
  intro i s t sp a h
  rw [exec_eq_run] at h
  obtain ⟨u, q, v, hu, -, -, rfl⟩ := run_settled h
  rw [setPc_word?, settle_word?, runAccesses_word hu, evalOperand_word?]

theorem setPc_reg_other (s : State) (v : Word) {a : RegAddr} (h : a ≠ .pc) : (s.setPc v).reg a = s.reg a := by
  cases a with
  | pc => exact absurd rfl h
  | _ => rfl

theorem settle_reg (c : Config) (names transfer : Bool) (e : Change) (p : PtrFile) (s : State) {a : RegAddr} (hst : a ≠ .st)
    (hpc : a ≠ .pc) (hrc : a ≠ .bfRc) : (settle c names transfer e p s).reg a = e.reg a := by
  cases a with
  | st => exact absurd rfl hst
  | pc => exact absurd rfl hpc
  | bfRc => exact absurd rfl hrc
  | _ => rfl

/-- Under a legal layout the protected fields stand apart from the five ALU flags. -/
theorem protectedMask_bit_of_aluFlag {l : StLayout} (hl : l.legal = true) {f : StField} (hf : isAluFlag f = true) {k : Nat}
    (hk : (rangeMask (l f)).getLsbD k = true) : (protectedMask l).getLsbD k = false := by
  have apart : ∀ g, isAluFlag g = false → (rangeMask (l g)).getLsbD k = false := fun g hg => by
    rw [rangeMask_bit _ (StLayout.bounds_of_legal hl _).2] at hk ⊢
    have hne : g ≠ f := by rintro rfl; rw [hf] at hg; cases hg
    have hd := StLayout.disjoint_of_legal hl hne
    simp only [Bool.and_eq_true, decide_eq_true_eq, Bool.and_eq_false_iff, decide_eq_false_iff_not] at hk ⊢
    omega
  rw [protectedMask]
  simp only [BitVec.getLsbD_or, apart .op rfl, apart .iex rfl, apart .ie2 rfl, apart .ie1 rfl, apart .ie0 rfl, apart .prl rfl,
    Bool.or_self]

theorem readField_keepProtected_aluFlag {l : StLayout} (hl : l.legal = true) {f : StField} (hf : isAluFlag f = true) (names : Bool)
    (old new : Word) : readField l f (keepProtected l names old new) = readField l f new := by
  cases names with
  | true => rfl
  | false =>
    have hmask : keepProtected l false old new &&& rangeMask (l f) = new &&& rangeMask (l f) := by
      apply BitVec.eq_of_getLsbD_eq
      intro k hk
      simp only [keepProtected, Bool.false_eq_true, if_false, BitVec.getLsbD_and, BitVec.getLsbD_or, BitVec.getLsbD_not, hk,
        decide_true, Bool.true_and]
      cases hm : (rangeMask (l f)).getLsbD k with
      | false => rw [Bool.and_false, Bool.and_false]
      | true => simp [protectedMask_bit_of_aluFlag hl hf hm]
    simp only [readField, hmask]

theorem keepProtected_names (l : StLayout) (old new : Word) : keepProtected l true old new = new := rfl

/-- Settles O33. -/
theorem registersHoldWhatTheSemanticFunctionAnswers : Obligations.RegistersHoldWhatTheSemanticFunctionAnswers := by
  rintro i s t e rfl h
  have hprotected := onlyAluFlagsChange i s t h
  rw [exec_eq_run] at h
  have hk := run_kept h
  obtain ⟨u, q, v, hu, hq, hv, rfl⟩ := run_settled h
  have hselbf := selbf_of_runAccesses hu
  obtain ⟨w, hw, hset, hstep⟩ | ⟨-, -, -, hw⟩ := stepSp_cases ((semEffect Config.chip i s).spStepOf i) s.sp
    ((semEffect Config.chip i s).reg .sp) <;> cases hw.symm.trans hv
  refine ⟨fun a hst hpc hrc hsp => ?_, hstep, fun hs => ?_, hk.rc, hk.bf, rfl, fun hn => ?_, fun f hf => ?_, hprotected, q, hq, rfl⟩
  · rw [setPc_reg_other _ _ hpc, settle_reg _ _ _ _ _ _ hst hpc hrc]
    by_cases ha : a = .sp
    · subst ha
      exact hset (hsp rfl)
    · exact withSp_reg _ _ ha
  · simp [hselbf, hs]
  · have hnames : namesSt i = true := decide_eq_true hn
    simp [hnames, keepProtected_names]
  · have hflag : ∀ f ∈ [StField.n, .ov, .z, .cy, .rz], isAluFlag f = true := by decide
    exact readField_keepProtected_aluFlag (StLayout.legal_legalised _) (hflag f hf) _ _ _

/-! ## Where an instruction stops (R45, R52, R72) -/

theorem andThen_fault_iff {α β : Type} {r : Res α} {f : α → Res β} {e : Fault} :
    andThen r f = .fault e ↔ r = .fault e ∨ ∃ a, r = .next a ∧ f a = .fault e := by
  cases r <;> simp [andThen]

theorem andThen_refused_iff {α β : Type} {r : Res α} {f : α → Res β} {e : Refusal} :
    andThen r f = .refused e ↔ r = .refused e ∨ ∃ a, r = .next a ∧ f a = .refused e := by
  cases r <;> simp [andThen]

theorem mapRes_refused_iff {α β : Type} {r : Res α} {f : α → β} {e : Refusal} : mapRes f r = .refused e ↔ r = .refused e := by
  cases r <;> simp [mapRes, andThen]

theorem stepFile_refused_iff {c : Config} {step : Option (Rij × ShortImm)} {base p : PtrFile} {r : Refusal} :
    stepFile c step base p = .refused r
      ↔ r = .addressWrap ∧ ∃ x d, step = some (x, d) ∧ stepPtr c (base.read x) d.toInt = .refused .addressWrap := by
  cases step with
  | none => simp [stepFile]
  | some y =>
    obtain ⟨x, d⟩ := y
    obtain ⟨w, -, -, h⟩ | ⟨-, h⟩ := stepPtr_cases c (base.read x) d.toInt
    · simp [stepFile, mapRes_refused_iff, h]
    · simp [stepFile, mapRes_refused_iff, h, eq_comm (a := r)]

theorem stepSp_refused_iff {step : Option ShortImm} {base v : Word} {r : Refusal} :
    stepSp step base v = .refused r
      ↔ r = .addressWrap ∧ ∃ d, step = some d ∧ addressSum (base.toNat + d.toInt) = .refused .addressWrap := by
  cases step with
  | none => simp [stepSp]
  | some d =>
    obtain ⟨-, -, h⟩ | ⟨-, h⟩ := addressSum_cases (base.toNat + d.toInt)
    · simp [stepSp, h]
    · simp [stepSp, h, eq_comm (a := r)]

section
variable {c : Config} {i : Instr} {e : Effect} {base s : State}

theorem applyEffect_fault_iff {f : Fault} :
    applyEffect c i e base s = .fault f ↔ runAccesses c (e.made i base) s = .fault f := by
  obtain ⟨t, ht⟩ | ⟨g, hg, hg'⟩ | ⟨r, hr, hr'⟩ | ⟨hr, ⟨u, hu⟩, -⟩ := applyEffect_stop c i e base s
  · obtain ⟨u, -, -, hu, -⟩ := applyEffect_next ht
    simp [ht, hu]
  · rw [hg, hg']
  · simp [hr, hr']
  · simp [hr, hu]

/-- The pointer steps before SP does, and either is refused for the end of a memory. -/
theorem applyEffect_refused_iff {r : Refusal} :
    applyEffect c i e base s = .refused r
      ↔ runAccesses c (e.made i base) s = .refused r
        ∨ (r = .addressWrap ∧ (∃ u, runAccesses c (e.made i base) s = .next u)
          ∧ ((∃ x d, e.stepOf c i = some (x, d) ∧ stepPtr c (base.readPtr x) d.toInt = .refused .addressWrap)
            ∨ ∃ d, e.spStepOf i = some d ∧ addressSum (base.sp.toNat + d.toInt) = .refused .addressWrap)) := by
  rw [applyEffect, andThen_refused_iff]
  refine or_congr_right ⟨fun ⟨u, hu, h⟩ => ?_, fun ⟨hr, ⟨u, hu⟩, h⟩ => ⟨u, hu, ?_⟩⟩
  · obtain h | ⟨q, -, h⟩ := andThen_refused_iff.1 h
    · obtain ⟨hr, hx⟩ := stepFile_refused_iff.1 h
      exact ⟨hr, ⟨u, hu⟩, .inl hx⟩
    · obtain ⟨hr, hd⟩ := stepSp_refused_iff.1 (mapRes_refused_iff.1 h)
      exact ⟨hr, ⟨u, hu⟩, .inr hd⟩
  · subst hr
    obtain ⟨q, hq⟩ | ⟨-, hq⟩ := stepFile_cases c (e.stepOf c i) base.ptr u.ptr
    · rw [andThen_refused_iff]
      obtain hx | hd := h
      · exact .inl (stepFile_refused_iff.2 ⟨rfl, hx⟩)
      · exact .inr ⟨q, hq, mapRes_refused_iff.2 (stepSp_refused_iff.2 ⟨rfl, hd⟩)⟩
    · rw [hq]
      rfl

end

section
variable {c : Config} {i : Instr} {s : State} (hop : checkOperand i s = none) (hroom : isTransfer i = true ∨ RoomFor i.words s)
include hop

theorem run_of_allowed : run c i s = andThen (runEffect c i s) fun t => advance i s.pc t := by simp only [run, hop]

include hroom

theorem run_fault_iff {f : Fault} : run c i s = .fault f ↔ runEffect c i s = .fault f := by
  rw [run_of_allowed hop, andThen_fault_iff]
  refine or_iff_left ?_
  rintro ⟨t, -, h⟩
  obtain ⟨u, hu⟩ := advance_room hroom t
  cases hu.symm.trans h

theorem run_refused_iff {r : Refusal} : run c i s = .refused r ↔ runEffect c i s = .refused r := by
  rw [run_of_allowed hop, andThen_refused_iff]
  refine or_iff_left ?_
  rintro ⟨t, -, h⟩
  obtain ⟨u, hu⟩ := advance_room hroom t
  cases hu.symm.trans h

end

/-- Settles O32: with the operand allowed and room for the next pc, nothing but the effect can stop. -/
theorem instructionFaultsExactlyAtAnAccess : Obligations.InstructionFaultsExactlyAtAnAccess := by
  rintro i s e l hop hroom rfl rfl
  rw [exec_eq_run]
  exact ⟨fun f => (run_fault_iff hop hroom).trans applyEffect_fault_iff,
    fun r => (run_refused_iff hop hroom).trans applyEffect_refused_iff⟩

/-! ## Which form an effect's stop belongs to (R45, R46, R52, R56) -/

/-- The reasons of memory the instruction can be refused for, each with the operand that can raise it. -/
def MemoryRefusal (i : Instr) (s : State) (r : Refusal) : Prop :=
  (r = .addressWrap ∧ (memOperand i ≠ .none ∨ i.form = .ADSI)) ∨ (r = .programWrite ∧ .prog ∈ memorySpaces i s)
    ∨ (r = .dwMisaligned ∧ takesDouble i = true)

/-- A pointer operand is that of a memory operand, but for ADSI's. -/
theorem memOperand_of_ptrOperand {i : Instr} {r : Rij} (h : ptrOperand i = some r) : memOperand i ≠ .none ∨ i.form = .ADSI := by
  cases i with
  | adsi => exact .inr rfl
  | aopInd | incInd | decInd | ldDInd | ldIndS | ldDIndp | ldIndpS => exact .inl nofun
  | _ => cases h

/-- The chip refuses a double word for its alignment only. -/
theorem memoryRefusal_of_made {e : Effect} {i : Instr} {s : State} {x : Access} {r : Refusal} (hx : x ∈ e.made i s)
    (hr : AccessRefusal Config.chip x r) : MemoryRefusal i s r := by
  have misaligned : takesDouble i = true → (r = .dwMisaligned ∨ (r = .addressWrap ∧ Config.chip.dwAlign = .any)) →
      MemoryRefusal i s r := fun hd hr => .inr (.inr ⟨hr.resolve_right fun h => (by cases h.2), hd⟩)
  obtain hreach | ⟨rfl, hm, -⟩ := made_cases hx
  · cases x with
    | read sp a => exact hr.elim
    | store sp a v =>
      obtain ⟨rfl, rfl⟩ := hr
      exact .inr (.inl ⟨rfl, of_decide_eq_true hreach⟩)
    | readDouble sp a => exact misaligned (Bool.and_eq_true_iff.1 hreach).2 hr.2
    | storeDouble sp a v =>
      obtain ⟨hsp, hd⟩ := Bool.and_eq_true_iff.1 hreach
      obtain ⟨rfl, rfl⟩ | ⟨-, hr⟩ := hr
      · exact .inr (.inl ⟨rfl, of_decide_eq_true hsp⟩)
      · exact misaligned hd hr
    | pastEnd => cases hreach
  · exact .inl ⟨hr, .inl hm⟩

theorem memoryRefusal_of_applyEffect {e : Effect} {i : Instr} {base s : State} {r : Refusal}
    (h : applyEffect Config.chip i e base s = .refused r) : MemoryRefusal i base r := by
  obtain h | ⟨rfl, -, ⟨x, d, hx, -⟩ | ⟨d, hd, -⟩⟩ := applyEffect_refused_iff.1 h
  · obtain ⟨t, ht⟩ | ⟨f, hf, -⟩ | ⟨r', hr, x, hx, hxr⟩ := runAccesses_cases Config.chip (e.made i base) s
    · cases ht.symm.trans h
    · cases hf.symm.trans h
    · cases hr.symm.trans h
      exact memoryRefusal_of_made hx hxr
  · exact .inl ⟨rfl, memOperand_of_ptrOperand (stepOf_some hx).1⟩
  · exact .inl ⟨rfl, .inl (by rw [(spStepOf_some hd).1]; nofun)⟩

/-- Settles O23: no access faults where every word is readable, so what does not complete is refused for a reason of memory. -/
theorem everyFormCompletesOrIsRefused : Obligations.EveryFormCompletesOrIsRefused := by
  intro i s hop hroom hreadable
  rw [exec_eq_run]
  cases h : run Config.chip i s with
  | next t =>
    obtain ⟨u, q, v, -, -, -, ht⟩ := run_settled h
    exact .inl ⟨t, rfl, run_frameHeld h, by rw [ht, setPc_pc]⟩
  | fault f =>
    rw [run_fault_iff hop hroom] at h
    exact absurd (applyEffect_fault_iff.1 h) (runAccesses_no_fault _ _ (evalOperand_readable i hreadable) f)
  | refused r =>
    rw [run_refused_iff hop hroom] at h
    obtain ⟨rfl, hm⟩ | ⟨rfl, hsp⟩ | ⟨rfl, hd⟩ := memoryRefusal_of_applyEffect h
    · exact .inr (.inl ⟨rfl, hm⟩)
    · exact .inr (.inr (.inl ⟨rfl, hsp⟩))
    · exact .inr (.inr (.inr ⟨rfl, hd⟩))

end Sys2Proof.Machine
end

section
/-! PROOFS. The statements about the frame over any value of the parameters: what it keeps, hides and refuses, and that the chip's
instructions are it at the chip's parameters (spec/30_encoding.md R72). -/

namespace Sys2Proof.Machine

/-! ## What the frame asks of a semantic function (R72 (1) to (4), D4, R148) -/

/-- The conditions of `frameKept`, by name. -/
structure WithinFrame (c : Config) (i : Instr) (s t : State) : Prop where
  prog : t.prog = s.prog
  pc : isTransfer i = false → t.pc = s.pc
  bf : t.bf = s.bf
  rc : s.selbf = true → t.rc = s.rc
  st : namesSt i = false → t.st &&& protectedMask c.stLayout = s.st &&& protectedMask c.stLayout
  selbf : t.selbf = s.selbf
  holes : t.holes = s.holes
  spaces : t.spaces = s.spaces

theorem frameKept_iff {c : Config} {i : Instr} {s t : State} : frameKept c i s t = true ↔ WithinFrame c i s t := by
  simp only [frameKept, Bool.and_eq_true, Bool.or_eq_true, Bool.not_eq_true', decide_eq_true_eq]
  constructor
  · rintro ⟨⟨⟨⟨hprog, hpc⟩, hbf, hrc⟩, hst⟩, ⟨hselbf, hholes⟩, hspaces⟩
    exact ⟨hprog, fun h => hpc.resolve_left (by simp [h]), hbf, fun h => hrc.resolve_left (by simp [h]),
      fun h => hst.resolve_left (by simp [h]), hselbf, hholes, hspaces⟩
  · rintro ⟨hprog, hpc, hbf, hrc, hst, hselbf, hholes, hspaces⟩
    exact ⟨⟨⟨⟨hprog, or_iff_not_imp_left.2 fun h => hpc (by simpa using h)⟩, hbf,
      or_iff_not_imp_left.2 fun h => hrc (by simpa using h)⟩, or_iff_not_imp_left.2 fun h => hst (by simpa using h)⟩,
      ⟨hselbf, hholes⟩, hspaces⟩

namespace WithinFrame

theorem refl (c : Config) (i : Instr) (s : State) : WithinFrame c i s s :=
  ⟨rfl, fun _ => rfl, rfl, fun _ => rfl, fun _ => rfl, rfl, rfl, rfl⟩

theorem trans {c : Config} {i : Instr} {s t u : State} (h : WithinFrame c i s t) (h' : WithinFrame c i t u) :
    WithinFrame c i s u where
  prog := h'.prog.trans h.prog
  pc hi := (h'.pc hi).trans (h.pc hi)
  bf := h'.bf.trans h.bf
  rc hs := (h'.rc (h.selbf.trans hs)).trans (h.rc hs)
  st hn := (h'.st hn).trans (h.st hn)
  selbf := h'.selbf.trans h.selbf
  holes := h'.holes.trans h.holes
  spaces := h'.spaces.trans h.spaces

/-- What is hidden cannot break the frame. -/
theorem hidden {c : Config} {i : Instr} {s t : State} (h : WithinFrame c i s t) : WithinFrame c i s.hidden t.hidden where
  prog := h.prog
  pc := h.pc
  bf := rfl
  rc hs := by
    have hs' : s.selbf = true := hs
    simp [hs', h.selbf]
  st := h.st
  selbf := h.selbf
  holes := h.holes
  spaces := h.spaces

theorem restored {c : Config} {i : Instr} {s t : State} (h : WithinFrame c i s.hidden t) : WithinFrame c i s (t.restored s) where
  prog := h.prog
  pc := h.pc
  bf := rfl
  rc hs := if_pos hs
  st := h.st
  selbf := h.selbf
  holes := h.holes
  spaces := h.spaces

/-- Inside the frame, restoring what was hidden gives the state itself. -/
theorem restored_hidden {c : Config} {i : Instr} {s t : State} (h : WithinFrame c i s t) : t.hidden.restored s = t := by
  have hrc : (if s.selbf then s.rc else t.hidden.rc) = t.rc := by
    cases hs : s.selbf with
    | true => exact (h.rc hs).symm
    | false => simp [h.selbf, hs]
  rw [State.restored, hrc, ← h.bf]
  rfl

end WithinFrame

/-! ## A run of the frame -/

section
variable {c : Config} {m : Sem} {i : Instr} {s : State} {f : CondFn → Instr → State → Res State}

theorem runForm_of_noSem (h : m.sem i.form = none) : runForm c m i s = .refused (.noSemantics i.form) := by
  simp only [runForm, h]

variable (hf : m.sem i.form = some f)
include hf

theorem runForm_of_forbidden {r : Refusal} (h : checkOperand i s = some r) : runForm c m i s = .refused r := by
  simp only [runForm, hf, h]

theorem runForm_of_allowed (hop : checkOperand i s = none) :
    runForm c m i s = andThen (f m.cond i s.hidden) fun t =>
      if frameKept c i s.hidden t then advance i s.pc (t.restored s) else .refused (.frame i.form) := by
  simp only [runForm, hf, hop]

theorem runForm_of_broken {t : State} (hop : checkOperand i s = none) (ht : f m.cond i s.hidden = .next t)
    (h : ¬WithinFrame c i s.hidden t) : runForm c m i s = .refused (.frame i.form) := by
  simp only [runForm_of_allowed hf hop, ht, andThen, if_neg (mt frameKept_iff.1 h)]

end

theorem runForm_next {c : Config} {m : Sem} {i : Instr} {s t : State} (h : runForm c m i s = .next t) :
    ∃ f u, m.sem i.form = some f ∧ checkOperand i s = none ∧ f m.cond i s.hidden = .next u ∧ WithinFrame c i s.hidden u
      ∧ advance i s.pc (u.restored s) = .next t := by
  unfold runForm at h
  split at h
  · cases h
  · next f hf =>
    split at h
    · cases h
    · next hop =>
      obtain ⟨u, hu, h⟩ := andThen_next h
      split at h
      · next hk => exact ⟨f, u, hf, hop, hu, frameKept_iff.1 hk, h⟩
      · cases h

theorem advance_setPc {i : Instr} {a : Word} {t u : State} (h : advance i a t = .next u) :
    ∃ v, u = t.setPc v ∧ (isTransfer i = false → v.toNat = a.toNat + i.words) := by
  obtain ⟨hi, rfl⟩ | ⟨-, ha, rfl⟩ := advance_next h
  · exact ⟨u.pc, rfl, by simp [hi]⟩
  · refine ⟨_, rfl, fun _ => ?_⟩
    rw [BitVec.toNat_add, BitVec.toNat_ofNat]
    omega

/-- Settles O44. -/
theorem frameHoldsForEveryInstantiation : Obligations.FrameHoldsForEveryInstantiation := by
  intro c m i s t h
  obtain ⟨f, u, -, -, -, hu, ht⟩ := runForm_next h
  have hk := hu.restored
  obtain ⟨v, rfl, hpc⟩ := advance_setPc ht
  exact ⟨hk.prog, hpc, hk.bf, hk.selbf, hk.holes, hk.spaces, hk.rc,
    fun hn f hf => readField_of_masked _ f hf _ _ (hk.st (decide_eq_false hn))⟩

/-- Settles O45: the semantic function is given the hidden state, which holds nothing of BF. -/
theorem frameHidesHostBuffer : Obligations.FrameHidesHostBuffer := by
  intro c m i s v
  cases hf : m.sem i.form with
  | none =>
    rw [runForm_of_noSem hf, runForm_of_noSem hf]
    rfl
  | some f =>
    cases hop : checkOperand i s with
    | some r =>
      rw [runForm_of_forbidden hf hop, runForm_of_forbidden hf ((checkOperand_withBf i s v).trans hop)]
      rfl
    | none =>
      rw [runForm_of_allowed hf hop, runForm_of_allowed hf ((checkOperand_withBf i s v).trans hop), hidden_withBf, withBf_pc,
        mapRes_andThen]
      congr 1
      funext t
      by_cases hk : frameKept c i s.hidden t = true
      · rw [if_pos hk, if_pos hk]
        exact advance_withBf i s.pc (t.restored s) v
      · rw [if_neg hk, if_neg hk]
        rfl

/-- Settles O46: each change is one the frame forbids. -/
theorem frameRefusals : Obligations.FrameRefusals := by
  refine fun c m i s => ⟨runForm_of_noSem, fun f hf => ⟨fun r => runForm_of_forbidden hf, fun t hop ht h =>
    runForm_of_broken hf hop ht fun hk => ?_⟩⟩
  obtain h | ⟨hi, h⟩ | h | ⟨hs, h⟩ | ⟨hn, h⟩ | h | h | h := h
  · exact h hk.prog
  · exact h (hk.pc hi)
  · exact h hk.bf
  · exact h (hk.rc hs)
  · exact h (hk.st hn)
  · exact h hk.selbf
  · exact h hk.holes
  · exact h hk.spaces

/-! ## The chip's instructions stay within the frame (log 3) -/

theorem withinFrame_settle {c : Config} {i : Instr} {names transfer : Bool} (hn : namesSt i = false → names = false)
    (ht : isTransfer i = false → transfer = false) (e : Change) (p : PtrFile) (s : State) :
    WithinFrame c i s (settle c names transfer e p s) where
  prog := rfl
  pc hi := by simp [ht hi]
  bf := rfl
  rc hs := if_pos hs
  st h := keepProtected_masked _ _ _ _ (hn h)
  selbf := rfl
  holes := rfl
  spaces := rfl

theorem withinFrame_evalOperand (c : Config) (i : Instr) (s : State) : WithinFrame c i s (evalOperand c i s).2 := by
  obtain ⟨-, h⟩ | ⟨k, -, h⟩ := evalOperand_cases c i s <;> rw [h]
  · exact WithinFrame.refl c i s
  · exact withinFrame_settle (fun _ => rfl) (fun _ => rfl) ..

theorem withinFrame_runEffect {c : Config} {i : Instr} {s t : State} (h : runEffect c i s = .next t) : WithinFrame c i s t := by
  obtain ⟨u, q, v, hu, -, -, rfl⟩ := applyEffect_next h
  have hstores : WithinFrame c i (evalOperand c i s).2 u := by
    obtain ⟨d0, d1, rfl⟩ := runAccesses_next hu
    exact ⟨rfl, fun _ => rfl, rfl, fun _ => rfl, fun _ => rfl, rfl, rfl, rfl⟩
  exact ((withinFrame_evalOperand c i s).trans hstores).trans (withinFrame_settle id id ..)

/-! ## The chip's instructions learn nothing that is hidden -/

theorem runAccesses_hidden (c : Config) (l : List Access) (s : State) :
    runAccesses c l s.hidden = mapRes State.hidden (runAccesses c l s) :=
  runAccesses_map (f := State.hidden) (fun _ => rfl) (fun _ sp => by cases sp <;> rfl) (fun _ sp _ _ => by cases sp <;> rfl) c l s

theorem applyEffect_hidden (c : Config) (i : Instr) (e : Effect) (base s : State) :
    applyEffect c i e base.hidden s.hidden = mapRes State.hidden (applyEffect c i e base s) := by
  simp only [applyEffect, made_hidden, runAccesses_hidden, andThen_mapRes, mapRes_andThen, mapRes_mapRes, settle_hidden,
    hidden_ptr, hidden_sp]

theorem evalOperand_hidden (c : Config) (i : Instr) (s : State) :
    evalOperand c i s.hidden = ((evalOperand c i s).1, (evalOperand c i s).2.hidden) := by
  unfold evalOperand
  cases condOperand i with
  | none => rfl
  | some k => simp only [evalCond, hidden_hidden, settle_hidden, hidden_ptr]

theorem runEffect_hidden (c : Config) (i : Instr) (s : State) : runEffect c i s.hidden = mapRes State.hidden (runEffect c i s) := by
  simp only [runEffect, semEffect, evalOperand_hidden, hidden_hidden, applyEffect_hidden]

/-! ## The chip's instructions are the frame's (R72) -/

theorem chipFn_chipSem (c : Config) (i : Instr) (s : State) : chipFn c (chipSem c).cond i s = runEffect c i s := by
  unfold chipFn runEffect semEffect evalOperand
  cases condOperand i <;> rfl

/-- On the hidden state the effect ends as on the state itself, within the frame, and what was hidden is put back. -/
theorem run_eq_runForm (c : Config) (i : Instr) (s : State) : run c i s = runForm c (chipSem c) i s := by
  have hsem : (chipSem c).sem i.form = some (chipFn c) := rfl
  cases hop : checkOperand i s with
  | some r => simp only [run, hop, runForm_of_forbidden hsem hop]
  | none =>
    rw [run_of_allowed hop, runForm_of_allowed hsem hop, chipFn_chipSem, runEffect_hidden, andThen_mapRes]
    cases h : runEffect c i s with
    | next t =>
      have hk := withinFrame_runEffect h
      simp only [andThen, if_pos (frameKept_iff.2 hk.hidden), hk.restored_hidden]
    | fault e => rfl
    | refused e => rfl

/-- Settles O43. -/
theorem execIsTheFrameAtTheChip : Obligations.ExecIsTheFrameAtTheChip := by
  have hexec : ∀ i s, exec i s = runForm Config.chip (chipSem Config.chip) i s := fun i s =>
    (exec_eq_run i s).trans (run_eq_runForm Config.chip i s)
  refine ⟨hexec, fun s => ?_, run_eq_runForm⟩
  rw [step, frameStep, funext fun i => funext (hexec i)]

end Sys2Proof.Machine
end

section
/-! PROOFS. The statements about the ALU forms, and about the forms that go to no memory: where they complete, what stops them, and that
they are their semantic function inside the frame (spec/40_alu.md). -/

namespace Sys2Proof.Machine

/-! ## Where nothing of memory can stop a form (R51, R106, D12) -/

theorem memoryReady_of_none {i : Instr} {s : State} (h : memOperand i = .none)
    (hp : ∀ r, ptrOperand i = some r → PointerInside r s) : MemoryReady i s where
  readable hn := absurd h hn
  direct ram hd := nomatch h.symm.trans hd
  pointer := hp
  stack hs := nomatch h.symm.trans hs
  data := by simp [memorySpaces, h]

theorem ptrOperand_of_direct {i : Instr} {ram : DirectAddr} (h : memOperand i = .direct ram) : ptrOperand i = none := by
  cases i with
  | aopARam | ldARam | ldRamA => rfl
  | _ => cases h

theorem ptrOperand_of_pointer {i : Instr} {r : Rij} (h : memOperand i = .pointer r) : ptrOperand i = some r := by
  cases i with
  | aopInd | incInd | decInd | ldDInd | ldIndS => cases h; rfl
  | _ => cases h

/-- A form with the operand "RAM" steps no pointer. -/
theorem memoryReady_of_direct {i : Instr} {s : State} {ram : DirectAddr} (h : memOperand i = .direct ram) (hs : s.readable)
    (hd : DirectInside ram s) : MemoryReady i s where
  readable _ := hs
  direct ram' h' := by cases h.symm.trans h'; exact hd
  pointer r hr := nomatch (ptrOperand_of_direct h).symm.trans hr
  stack h' := nomatch h.symm.trans h'
  data := by simp [memorySpaces, h]

/-- The pointer a form with the operand "(Rij)" steps is the one it goes through. -/
theorem memoryReady_of_pointer {i : Instr} {s : State} {r : Rij} (h : memOperand i = .pointer r) (hs : s.readable)
    (hp : PointerInside r s) : MemoryReady i s where
  readable _ := hs
  direct ram h' := nomatch h.symm.trans h'
  pointer q hq := by cases (ptrOperand_of_pointer h).symm.trans hq; exact hp
  stack h' := nomatch h.symm.trans h'
  data := by simp [memorySpaces, h]

/-- R37 allows every register but the PC, and address 13 while SELBF is 0. -/
theorem checkOperand_of_allowed {i : Instr} {s : State} {a : RegAddr} (hi : regOperand i = some a) (h : OperandAllowed a s) :
    checkOperand i s = none := by
  obtain ⟨hpc, hrc⟩ := h
  unfold checkOperand
  rw [hi]
  cases a with
  | pc => exact absurd rfl hpc
  | bfRc => simp [hrc rfl]
  | _ => rfl

/-- A form without ",w" that nothing can stop completes, its pc moved as the form says, and keeps the frame. -/
theorem exec_completes_in_frame {i : Instr} {s : State} (hop : checkOperand i s = none) (hm : MemoryReady i s)
    (hd : takesDouble i = false) (hroom : isTransfer i = true ∨ RoomFor i.words s) :
    ∃ t, exec i s = .next t
      ∧ t.pc = (if isTransfer i then (semEffect Config.chip i s).reg .pc else s.pc + BitVec.ofNat 16 i.words) ∧ FrameHeld i s t := by
  obtain ⟨t, ht⟩ := run_completes chip_wide hop hm (.inl hd) hroom
  obtain ⟨u, q, v, -, -, -, hset⟩ := run_settled ht
  exact ⟨t, (exec_eq_run i s).trans ht, by rw [hset, setPc_pc], run_frameHeld ht⟩

/-- Settles O19: nothing of memory can stop any of these forms under its own condition. -/
theorem aluFormsComplete : Obligations.AluFormsComplete := by
  intro s op ad src r sr ram imm w1 w hroom
  refine ⟨fun hp => ?_, fun hs hd => ?_, fun hs hp => ?_, ?_, fun ha => ?_, fun hroom2 => ?_, ?_⟩
  · exact exec_completes_in_frame rfl (memoryReady_of_none rfl fun q hq => by cases hq; exact hp) rfl (.inr hroom)
  · exact exec_completes_in_frame rfl (memoryReady_of_direct rfl hs hd) rfl (.inr hroom)
  · exact exec_completes_in_frame rfl (memoryReady_of_pointer rfl hs hp) rfl (.inr hroom)
  · exact exec_completes_in_frame rfl (memoryReady_of_none rfl nofun) rfl (.inr hroom)
  · exact exec_completes_in_frame (checkOperand_of_allowed rfl ha) (memoryReady_of_none rfl nofun) rfl (.inr hroom)
  · exact exec_completes_in_frame rfl (memoryReady_of_none rfl nofun) rfl (.inr hroom2)
  · exact exec_completes_in_frame rfl (memoryReady_of_none rfl nofun) rfl (.inr hroom)

/-! ## An ALU form is its semantic function (R72, R80 to R86) -/

theorem advance_of_room {i : Instr} {a : Word} (hi : isTransfer i = false) (ha : a.toNat + i.words < 65536) (t : State) :
    advance i a t = .next (t.setPc (a + BitVec.ofNat 16 i.words)) :=
  (if_neg (by simp [hi])).trans (if_pos ha)

/-- A form without a condition hands the state it begins at to its semantic function. -/
theorem runEffect_of_unconditional {c : Config} {i : Instr} {s : State} (h : condOperand i = none) :
    runEffect c i s = applyEffect c i (Config.freeEffect i none s.hidden) s s := by
  simp only [runEffect, semEffect, evalOperand, h]

/-- With room and an allowed operand, a form that has no condition and does not own the next pc is its semantic function's effect, then
the pc at a + W. -/
theorem exec_eq_applyEffect {i : Instr} {s : State} (hcond : condOperand i = none) (hi : isTransfer i = false)
    (hop : checkOperand i s = none) (hroom : RoomFor i.words s) :
    exec i s = mapRes (fun t => t.setPc (s.pc + BitVec.ofNat 16 i.words))
      (applyEffect Config.chip i (Config.freeEffect i none s.hidden) s s) := by
  have hadv : advance i s.pc = fun t => .next (t.setPc (s.pc + BitVec.ofNat 16 i.words)) := funext (advance_of_room hi hroom)
  rw [exec_eq_run, run_of_allowed hop, runEffect_of_unconditional hcond, hadv]
  rfl

/-- Settles O29: no ALU form has a condition, so its semantic function sees the state the instruction begins at. -/
theorem aluFormsAreTheirSemanticFunction : Obligations.AluFormsAreTheirSemanticFunction := by
  intro s op ad src r sr ram imm w1 w hroom
  exact ⟨exec_eq_applyEffect rfl rfl rfl hroom, exec_eq_applyEffect rfl rfl rfl hroom, exec_eq_applyEffect rfl rfl rfl hroom,
    exec_eq_applyEffect rfl rfl rfl hroom, fun ha => exec_eq_applyEffect rfl rfl (checkOperand_of_allowed rfl ha) hroom,
    fun hroom2 => exec_eq_applyEffect rfl rfl rfl hroom2, exec_eq_applyEffect rfl rfl rfl hroom⟩

/-! ## What stops an instruction, and the forms that go to no memory (R37, R72; log 9, 11, 29) -/

theorem checkOperand_some {i : Instr} {s : State} {r : Refusal} (h : checkOperand i s = some r) :
    r ∈ [Refusal.pcOperand, .bfAccess] ∧ regOperand i ≠ none := by
  unfold checkOperand at h
  split at h
  · next hi => cases h; exact ⟨by decide, by simp [hi]⟩
  · next hi =>
    split at h
    · cases h; exact ⟨by decide, by simp [hi]⟩
    · cases h
  all_goals cases h

theorem advance_cases (i : Instr) (a : Word) (t : State) :
    (∃ u, advance i a t = .next u) ∨ (isTransfer i = false ∧ advance i a t = .refused .pcWrap) := by
  by_cases h : isTransfer i = true ∨ a.toNat + i.words < 65536
  · exact .inl (advance_room h t)
  · obtain ⟨hi, ha⟩ := not_or.1 h
    have hi : isTransfer i = false := Bool.eq_false_iff.2 hi
    exact .inr ⟨hi, advance_pcWrap hi (Nat.not_lt.1 ha) t⟩

/-- An instruction faults where an access of its semantic function does, and nowhere else. -/
theorem runAccesses_of_exec_fault {i : Instr} {s : State} {f : Fault} (h : exec i s = .fault f) :
    runAccesses Config.chip ((semEffect Config.chip i s).made i s) (evalOperand Config.chip i s).2 = .fault f := by
  cases hop : checkOperand i s with
  | some r => cases (exec_of_checkOperand hop).symm.trans h
  | none =>
    rw [exec_eq_run, run_of_allowed hop] at h
    obtain h | ⟨t, -, h⟩ := andThen_fault_iff.1 h
    · exact applyEffect_fault_iff.1 h
    · obtain ⟨u, hu⟩ | ⟨-, hu⟩ := advance_cases i s.pc t <;> cases hu.symm.trans h

/-- An instruction is refused for its operand, for a reason of memory, or for its next pc. -/
theorem exec_refused_cases {i : Instr} {s : State} {r : Refusal} (h : exec i s = .refused r) :
    checkOperand i s = some r ∨ MemoryRefusal i s r ∨ (r = .pcWrap ∧ isTransfer i = false) := by
  cases hop : checkOperand i s with
  | some r' => cases (exec_of_checkOperand hop).symm.trans h; exact .inl rfl
  | none =>
    rw [exec_eq_run, run_of_allowed hop] at h
    obtain h | ⟨t, -, h⟩ := andThen_refused_iff.1 h
    · exact .inr (.inl (memoryRefusal_of_applyEffect h))
    · obtain ⟨u, hu⟩ | ⟨hi, hu⟩ := advance_cases i s.pc t <;> cases hu.symm.trans h
      exact .inr (.inr ⟨rfl, hi⟩)

@[simp] theorem setPc_mem (s : State) (v : Word) (sp : Space) : (s.setPc v).mem sp = s.mem sp := by cases sp <;> rfl

section
variable {i : Instr} {s : State} (hm : memOperand i = .none)
include hm

theorem takesDouble_of_none : takesDouble i = false := by
  cases i with
  | adsi | aopPtr | aopReg | aopi | aopsi | bra | incReg | decReg => rfl
  | _ => cases hm

/-- Without a memory operand the one reason of memory is the step of ADSI's pointer. -/
theorem memoryRefusal_of_none {r : Refusal} (h : MemoryRefusal i s r) : r = .addressWrap ∧ i.form = .ADSI := by
  obtain ⟨hr, hn | hi⟩ | ⟨-, hsp⟩ | ⟨-, hd⟩ := h
  · exact absurd hm hn
  · exact ⟨hr, hi⟩
  · simp [memorySpaces, hm] at hsp
  · cases (takesDouble_of_none hm).symm.trans hd

theorem exec_of_none_not_fault (f : Fault) : exec i s ≠ .fault f := fun h => by
  have hl := runAccesses_of_exec_fault h
  rw [made_of_none hm] at hl
  cases hl

/-- Its condition makes no access either (log 11). -/
theorem exec_of_none_mem {t : State} (h : exec i s = .next t) (sp : Space) : t.mem sp = s.mem sp := by
  rw [exec_eq_run] at h
  obtain ⟨u, q, v, hu, -, -, rfl⟩ := run_settled h
  rw [made_of_none hm] at hu
  cases hu
  rw [setPc_mem, settle_mem, evalOperand_mem]

end

/-- Settles O28: none of these forms has a memory operand, so none makes an access. -/
theorem formsWithoutAMemoryOperandTouchNone : Obligations.FormsWithoutAMemoryOperandTouchNone := by
  intro i s t hi
  have apart : ∀ f ∈ [Form.ADSI, .AOP_PTR, .AOP_REG, .AOPI, .AOPSI, .BRA, .INC_REG, .DEC_REG],
      f ∉ [Form.AOP_A_RAM, .AOP_IND, .INC_IND, .DEC_IND, .LD_A_RAM, .LD_RAM_A, .LD_D_IND, .LD_IND_S, .LD_D_INDP, .LD_INDP_S, .CALL] := by
    decide
  have hm : memOperand i = .none := by_contra fun h => apart _ hi (form_of_memOperand h)
  refine ⟨exec_of_none_not_fault hm, fun e h => ?_, exec_of_none_mem hm⟩
  obtain hop | hmem | ⟨rfl, -⟩ := exec_refused_cases h
  · exact .inl (List.mem_cons_of_mem _ (checkOperand_some hop).1)
  · exact .inr (memoryRefusal_of_none hm hmem)
  · exact .inl (List.mem_cons_self ..)

end Sys2Proof.Machine
end

section
/-! PROOFS. The statements about control: where BRA and CALL complete, the condition operand, and how the pc moves
(spec/41_control.md R90 to R93). -/

namespace Sys2Proof.Machine

/-! ## Where BRA and CALL complete (R90, R91, U21) -/

/-- CALL steps no pointer, and its stack lies in the data memories where `spaces` keeps it out of `PROG`. -/
theorem memoryReady_call {k : Cond} {w1 : Word} {s : State} (hs : s.readable) (hsp : StackInside s) (hdata : s.spaces.stack = false) :
    MemoryReady (.call k w1) s where
  readable _ := hs
  direct _ h := nomatch h
  pointer _ h := nomatch h
  stack _ := hsp
  data := by simp [memorySpaces, memOperand, hdata]

/-- Settles O20: BRA makes no access, and under the stated conditions nothing stops CALL's. -/
theorem transferFormsComplete : Obligations.TransferFormsComplete := by
  intro s k w1
  refine ⟨?_, fun hs hsp hdata => ?_⟩
  · exact exec_completes_in_frame rfl (memoryReady_of_none rfl nofun) rfl (.inl rfl)
  · exact exec_completes_in_frame rfl (memoryReady_call hs hsp hdata) rfl (.inl rfl)

/-! ## The condition is evaluated once (R92, R99; log 11) -/

/-- The semantic function of a form with a condition is given its truth value and works on the state its evaluation left. -/
theorem runEffect_of_conditional {c : Config} {i : Instr} {k : Cond} (h : condOperand i = some k) (s : State) :
    runEffect c i s
      = applyEffect c i (Config.freeEffect i (some (evalCond c k s).1) (evalCond c k s).2.hidden) s (evalCond c k s).2 := by
  simp only [runEffect, semEffect, evalOperand, h]

/-- A form that owns the next pc is its semantic function's effect. -/
theorem exec_of_transfer {i : Instr} {s : State} (hi : isTransfer i = true) (hop : checkOperand i s = none) :
    exec i s = runEffect Config.chip i s := by
  have hadv : advance i s.pc = .next := funext fun _ => if_pos hi
  rw [exec_eq_run, run_of_allowed hop, hadv]
  cases runEffect Config.chip i s <;> rfl

/-- A form that does not is, with room and an allowed operand, that effect and then the pc at a + W. -/
theorem exec_of_room {i : Instr} {s : State} (hi : isTransfer i = false) (hop : checkOperand i s = none) (hroom : RoomFor i.words s) :
    exec i s = mapRes (fun t => t.setPc (s.pc + BitVec.ofNat 16 i.words)) (runEffect Config.chip i s) := by
  have hadv : advance i s.pc = fun t => .next (t.setPc (s.pc + BitVec.ofNat 16 i.words)) := funext (advance_of_room hi hroom)
  rw [exec_eq_run, run_of_allowed hop, hadv]
  rfl

/-- With room and an allowed operand, a form that has a condition and does not own the next pc evaluates it, hands its truth value and the
state it leaves to the semantic function, and goes to a + W. -/
theorem exec_of_conditional {i : Instr} {s : State} {k : Cond} (hcond : condOperand i = some k) (hi : isTransfer i = false)
    (hop : checkOperand i s = none) (hroom : RoomFor i.words s) :
    exec i s = mapRes (fun t => t.setPc (s.pc + BitVec.ofNat 16 i.words))
      (applyEffect Config.chip i (Config.freeEffect i (some (evalCond Config.chip k s).1) (evalCond Config.chip k s).2.hidden) s
        (evalCond Config.chip k s).2) := by
  rw [exec_of_room hi hop hroom, runEffect_of_conditional hcond]

/-- Settles O30: INC without a condition is its semantic function on the state itself, every other form here has one. -/
theorem conditionIsEvaluatedOnce : Obligations.ConditionIsEvaluatedOnce := by
  rintro s _ r sr k w1 _ rfl rfl
  refine ⟨?_, ?_, fun hroom => ⟨?_, ?_, ?_, fun ha => ⟨?_, ?_, ?_⟩⟩⟩
  · exact (exec_of_transfer rfl rfl).trans (runEffect_of_conditional rfl s)
  · exact (exec_of_transfer rfl rfl).trans (runEffect_of_conditional rfl s)
  · exact exec_of_conditional (k := k) rfl rfl rfl hroom
  · exact exec_of_conditional (k := k) rfl rfl rfl hroom
  · exact exec_eq_applyEffect rfl rfl rfl hroom
  · exact exec_of_conditional (k := k) rfl rfl (checkOperand_of_allowed rfl ha) hroom
  · exact exec_of_conditional (k := k) rfl rfl (checkOperand_of_allowed rfl ha) hroom
  · exact exec_eq_applyEffect rfl rfl (checkOperand_of_allowed rfl ha) hroom

/-! ## How the pc moves (R24, R37, R93) -/

theorem form_of_transfer {i : Instr} (h : isTransfer i = true) : i.form = .BRA ∨ i.form = .CALL := by
  cases i with
  | bra => exact .inl rfl
  | call => exact .inr rfl
  | _ => cases h

/-- The column W of R62 for the seventeen forms that go to a + W. -/
theorem words_of_not_transfer {i : Instr} (h : isTransfer i = false) : i.words = if i.form = .AOPI then 2 else 1 := by
  cases i with
  | bra | call => cases h
  | _ => rfl

theorem regOperand_ne_pc {i : Instr} {s : State} (h : checkOperand i s = none) : regOperand i ≠ some .pc := fun hpc => by
  simp [checkOperand, hpc] at h

/-- Settles O35: the advance refuses a carry, so a + W is reached without wrapping. -/
theorem pcMovesAsTheFormSays : Obligations.PcMovesAsTheFormSays := by
  intro i s t h
  rw [exec_eq_run] at h
  obtain ⟨hop, u, -, hadv⟩ := run_next h
  refine ⟨fun hi => ⟨?_, words_of_not_transfer hi⟩, fun hi => ⟨form_of_transfer hi, ?_⟩, regOperand_ne_pc hop⟩
  · obtain ⟨v, rfl, hv⟩ := advance_setPc hadv
    exact hv hi
  · obtain ⟨w, q, v, -, -, -, rfl⟩ := run_settled h
    rw [setPc_pc, if_pos hi]

end Sys2Proof.Machine
end

section
/-! PROOFS. The statement about the INC and DEC forms: where they complete, and their frame (spec/42_incdec.md R95 to R99). -/

namespace Sys2Proof.Machine

/-- Settles O21: "(Rij)" is the pointer and the memory operand alike, and the forms with a register make no access; a condition adds
nothing that stops. -/
theorem incDecFormsComplete : Obligations.IncDecFormsComplete := by
  intro s r sr k ko hroom
  refine ⟨fun hs hp => ⟨?_, ?_⟩, fun ha => ⟨?_, ?_⟩⟩
  · exact exec_completes_in_frame rfl (memoryReady_of_pointer rfl hs hp) rfl (.inr hroom)
  · exact exec_completes_in_frame rfl (memoryReady_of_pointer rfl hs hp) rfl (.inr hroom)
  · exact exec_completes_in_frame (checkOperand_of_allowed rfl ha) (memoryReady_of_none rfl nofun) rfl (.inr hroom)
  · exact exec_completes_in_frame (checkOperand_of_allowed rfl ha) (memoryReady_of_none rfl nofun) rfl (.inr hroom)

end Sys2Proof.Machine
end

section
/-! PROOFS. The statements about the load and store forms: where they complete, and that a store to `PROG` through "(Rij)p" or the stack is
refused (spec/43_load.md R100 to R105, spec/20_memory.md R51, R56). -/

namespace Sys2Proof.Machine

/-! ## Where the LD forms complete (R100 to R105, R51) -/

theorem ptrOperand_of_pointerP {i : Instr} {r : Rij} (h : memOperand i = .pointerP r) : ptrOperand i = some r := by
  cases i with
  | ldDIndp | ldIndpS => cases h; rfl
  | _ => cases h

/-- The operand "(Rij)p" is as "(Rij)" where `spaces` keeps it out of `PROG`. -/
theorem memoryReady_of_pointerP {i : Instr} {s : State} {r : Rij} (h : memOperand i = .pointerP r) (hs : s.readable)
    (hp : PointerInside r s) (hdata : s.spaces.indp = false) : MemoryReady i s where
  readable _ := hs
  direct ram h' := nomatch h.symm.trans h'
  pointer q hq := by cases (ptrOperand_of_pointerP h).symm.trans hq; exact hp
  stack h' := nomatch h.symm.trans h'
  data := by simp [memorySpaces, h, hdata]

/-- Settles O22: under the stated conditions neither the operand nor anything of memory can stop these forms. -/
theorem loadStoreFormsComplete : Obligations.LoadStoreFormsComplete := by
  intro s r a ram hs hroom
  refine ⟨fun hd => ⟨?_, ?_⟩, fun ha hp => ⟨?_, ?_, fun hdata => ⟨?_, ?_⟩⟩⟩
  · exact exec_completes_in_frame rfl (memoryReady_of_direct rfl hs hd) rfl (.inr hroom)
  · exact exec_completes_in_frame rfl (memoryReady_of_direct rfl hs hd) rfl (.inr hroom)
  · exact exec_completes_in_frame (checkOperand_of_allowed rfl ha) (memoryReady_of_pointer rfl hs hp) rfl (.inr hroom)
  · exact exec_completes_in_frame (checkOperand_of_allowed rfl ha) (memoryReady_of_pointer rfl hs hp) rfl (.inr hroom)
  · exact exec_completes_in_frame (checkOperand_of_allowed rfl ha) (memoryReady_of_pointerP rfl hs hp hdata) rfl (.inr hroom)
  · exact exec_completes_in_frame (checkOperand_of_allowed rfl ha) (memoryReady_of_pointerP rfl hs hp hdata) rfl (.inr hroom)

/-! ## A store to `PROG` (R56, R105, D18) -/

/-- The forms whose space the sources do not identify reach `PROG` exactly where `spaces` says so. -/
theorem prog_mem_memorySpaces_iff {i : Instr} (hi : i.form ∈ [Form.LD_D_INDP, .LD_INDP_S, .CALL]) (s : State) :
    .prog ∈ memorySpaces i s ↔ (if i.form = .CALL then s.spaces.stack else s.spaces.indp) = true := by
  have hopen : ∀ b : Bool, Space.prog ∈ (if b then [Space.prog, .data0, .data1] else [.data0, .data1]) ↔ b = true := by decide
  cases i with
  | ldDIndp | ldIndpS => exact hopen s.spaces.indp
  | call => exact hopen s.spaces.stack
  | _ => simp [Instr.form] at hi

/-- An effective address is formed, or refused for the end of a memory. -/
theorem effAddr_cases (i : Instr) (b : RegAddr) (d : ShortImm) (s : State) :
    (∃ a, effAddr i b d s = .next a) ∨ effAddr i b d s = .refused .addressWrap := by
  have hsum : ∀ n, (∃ a, addressSum n = .next a) ∨ addressSum n = .refused .addressWrap := fun n =>
    (addressSum_cases n).imp (fun ⟨_, _, h⟩ => ⟨_, h⟩) And.right
  cases h : memOperand i with
  | none => exact .inl ⟨0, by simp only [effAddr, h]⟩
  | direct | pointer | pointerP | stack => simp only [effAddr, h]; exact hsum _

/-- An access is one at its own address. -/
theorem Access.exists_at_eq (x : Access) : ∃ a, x.at a = x := by
  cases x with
  | read _ a | store _ a | readDouble _ a | storeDouble _ a => exact ⟨a, rfl⟩
  | pastEnd => exact ⟨0, rfl⟩

/-- An access asked for is made at some address, or its effective address is refused. -/
theorem formed_cases (x : Access) (y : Option (RegAddr × ShortImm)) (i : Instr) (s : State) :
    (∃ a, Request.formed ⟨x, y⟩ i s = x.at a)
      ∨ (Request.formed ⟨x, y⟩ i s = .pastEnd ∧ ∃ b d, y = some (b, d) ∧ effAddr i b d s.hidden = .refused .addressWrap) := by
  cases y with
  | none => exact .inl (x.exists_at_eq.imp fun _ h => h.symm)
  | some z =>
    obtain ⟨b, d⟩ := z
    obtain ⟨a, ha⟩ | hr := effAddr_cases i b d s.hidden
    · exact .inl ⟨a, by simp only [Request.formed, ha, value?]⟩
    · exact .inr ⟨by simp only [Request.formed, hr, value?], b, d, rfl, hr⟩

/-- Settles O24: the first access asked for is the first one made, at whatever address, and the primitive refuses a store to `PROG`. -/
theorem storeToProgramMemoryIsRefused : Obligations.StoreToProgramMemoryIsRefused := by
  intro c i e base s a v x rest hi
  have hspaces := prog_mem_memorySpaces_iff hi base
  refine ⟨fun hopen he => ?_, fun hdata => ?_⟩
  · have hreach : reaches i base (.store .prog a v) = true := decide_eq_true (hspaces.2 hopen)
    obtain ⟨l, hl⟩ := made_cons hreach he
    obtain ⟨a', hf⟩ | ⟨hf, hwrap⟩ := formed_cases (.store .prog a v) x i base
    · exact .inl (applyEffect_refused (by rw [hl, hf]; rfl))
    · exact .inr ⟨applyEffect_refused (by rw [hl, hf]; rfl), hwrap⟩
  · have hprog : .prog ∉ memorySpaces i base := fun h => by simp [hspaces.1 h] at hdata
    exact ⟨fun h => hprog (of_decide_eq_true (reaches_of_made h nofun)), fun h => hprog (of_decide_eq_true (reaches_of_made h nofun))⟩

end Sys2Proof.Machine
end

section
/-! PROOFS. The statements about stops: the closed list of reasons, runs that stop, and R126's variant of the step
(spec/60_exceptions.md R126, R136). -/

namespace Sys2Proof.Machine

/-! ## The reasons an instruction or a step stops for (R136) -/

theorem Fault.eq_stuck_or_readOfUnwritten (e : Fault) : e = .stuck ∨ e = .readOfUnwritten := by
  cases e with
  | stuck => exact .inl rfl
  | readOfUnwritten => exact .inr rfl

/-- Each refusal of an instruction, with what of its form can raise it. -/
theorem exec_refused_reason {i : Instr} {s : State} {e : Refusal} (h : exec i s = .refused e) :
    (e = .pcWrap ∧ isTransfer i = false) ∨ (e ∈ [Refusal.pcOperand, .bfAccess] ∧ regOperand i ≠ none)
      ∨ (e = .dwMisaligned ∧ takesDouble i = true) ∨ (e = .programWrite ∧ .prog ∈ memorySpaces i s)
      ∨ (e = .addressWrap ∧ (memOperand i ≠ .none ∨ i.form = .ADSI)) := by
  obtain hop | (hwrap | hprog | hdouble) | hpc := exec_refused_cases h
  · exact .inr (.inl (checkOperand_some hop))
  · exact .inr (.inr (.inr (.inr hwrap)))
  · exact .inr (.inr (.inr (.inl hprog)))
  · exact .inr (.inr (.inl hdouble))
  · exact .inl hpc

theorem exec_refused_mem {i : Instr} {s : State} {e : Refusal} (h : exec i s = .refused e) :
    e ∈ [Refusal.pcWrap, .pcOperand, .bfAccess, .dwMisaligned, .programWrite, .addressWrap] := by
  obtain ⟨rfl, -⟩ | ⟨hop, -⟩ | ⟨rfl, -⟩ | ⟨rfl, -⟩ | ⟨rfl, -⟩ := exec_refused_reason h
  · decide
  · exact List.mem_cons_of_mem _ (List.mem_append_left [Refusal.dwMisaligned, .programWrite, .addressWrap] hop)
  all_goals decide

theorem runDecoded_refused {f : Instr → State → Res State} {d : Decoded} {s : State} {e : Refusal} (h : runDecoded f d s = .refused e) :
    e ∈ [Refusal.undecoded, .customInstruction, .unlistedInstruction] ∨ ∃ i, d = .instr i ∧ f i s = .refused e := by
  cases d with
  | instr i => exact .inr ⟨i, rfl, h⟩
  | undecoded | custom | unlisted => cases h; exact .inl (by decide)

/-- The fetch refuses a second word past 0xFFFF, and nothing else before the words are decoded. -/
theorem fetchRun_refused {c : Config} {f : Instr → State → Res State} {s : State} {e : Refusal} (h : fetchRun c f s = .refused e) :
    e = .pcWrap ∨ ∃ w0 w1, runDecoded f (decode c w0 w1) s = .refused e := by
  obtain h0 | ⟨w0, -, h⟩ := andThen_refused_iff.1 h
  · exact (memRead_not_refused _ _ _ _ h0).elim
  split at h
  · split at h
    · cases h; exact .inl rfl
    · obtain h1 | ⟨w1, -, h⟩ := andThen_refused_iff.1 h
      · exact (memRead_not_refused _ _ _ _ h1).elim
      · exact .inr ⟨w0, w1, h⟩
  · exact .inr ⟨w0, 0, h⟩

/-- Settles O42: only an access faults; a refusal is the fetch's, the operand's, one of memory or the next pc's. -/
theorem stopsAreTheClosedList : Obligations.StopsAreTheClosedList := by
  refine ⟨fun i s e h => ⟨e.eq_stuck_or_readOfUnwritten, fun hm => exec_of_none_not_fault hm e h⟩, fun _ _ _ => exec_refused_reason,
    fun _ e _ => e.eq_stuck_or_readOfUnwritten, fun s e h => ?_⟩
  obtain rfl | ⟨w0, w1, h⟩ := fetchRun_refused h
  · decide
  obtain hnone | ⟨i, -, hi⟩ := runDecoded_refused h
  · exact List.mem_append_left [Refusal.pcWrap, .pcOperand, .bfAccess, .dwMisaligned, .programWrite, .addressWrap] hnone
  · exact List.mem_append_right [Refusal.undecoded, .customInstruction, .unlistedInstruction] (exec_refused_mem hi)

/-! ## A run that stops is never final (R136, R142) -/

section
variable {endPc : Word} {s : State}

theorem runUntil_of_over (h : s.over endPc = true) (n : Nat) : runUntil endPc n s = .next s := by
  cases n with
  | zero => rfl
  | succ n => simp only [runUntil, h, if_true]

theorem runUntil_succ (h : s.over endPc = false) (n : Nat) : runUntil endPc (n + 1) s = andThen (step s) (runUntil endPc n) := by
  simp only [runUntil, h, Bool.false_eq_true, if_false]
  cases step s <;> rfl

/-- A run that ends stops at no bound: every step before its end answers a next state, and after its end it takes none. -/
theorem runUntil_next_of_endsAt {m : Nat} {t : State} (h : EndsAt endPc m s t) (n : Nat) : ∃ u, runUntil endPc n s = .next u := by
  induction m generalizing s n with
  | zero =>
    obtain ⟨hrun, ht⟩ := h
    cases hrun
    exact ⟨t, runUntil_of_over ht n⟩
  | succ m ih =>
    cases hs : s.over endPc with
    | true => exact ⟨s, runUntil_of_over hs n⟩
    | false =>
      obtain ⟨hrun, ht⟩ := h
      rw [runUntil_succ hs] at hrun
      obtain ⟨v, hv, hrun⟩ := andThen_next hrun
      cases n with
      | zero => exact ⟨s, rfl⟩
      | succ n =>
        rw [runUntil_succ hs, hv]
        exact ih ⟨hrun, ht⟩ n

end

/-- Settles O56: a run that reaches its end answers a next state at every bound. -/
theorem stoppedRunIsNeverFinal : Obligations.StoppedRunIsNeverFinal := fun _ n _ hstop _ _ hend =>
  (runUntil_next_of_endsAt hend n).elim hstop

/-! ## An interrupt request (R126) -/

/-- Settles O57: both are the branches of the variant's definition. -/
theorem requestedInterruptIsRefused : Obligations.RequestedInterruptIsRefused := fun _ => ⟨if_pos rfl, if_neg Bool.false_ne_true⟩

end Sys2Proof.Machine
end

section
/-! PROOFS. The statements about a launch and a run from it: what the launch state holds, what a run leaves as the launch set it, words
loaded at the pc, and where a run ends (spec/70_reset_and_hazards.md). -/

namespace Sys2Proof.Machine

/-! ## The last supplied value wins (R148) -/

theorem foldl_unchanged {σ κ ν α : Type} {write : σ → κ × ν → σ} {f : σ → α} (h : ∀ s e, f (write s e) = f s)
    (l : List (κ × ν)) (s : σ) : f (l.foldl write s) = f s := by
  rw [← List.foldl_hom f (g₂ := fun a _ => a) fun s e => (h s e).symm, List.foldl_fixed]

/-- After a list of writes a key reads the last value written to it, and what it read before where none was. `P` is what a write needs in
order to read back, and keeps. -/
theorem foldl_read {σ κ ν : Type} [DecidableEq κ] {write : σ → κ × ν → σ} {P : σ → Prop} {read : σ → κ → Option ν}
    (hP : ∀ s e, P s → P (write s e))
    (hread : ∀ s e k, P s → read (write s e) k = if k = e.1 then some e.2 else read s k)
    {s : σ} (hs : P s) (l : List (κ × ν)) (k : κ) :
    read (l.foldl write s) k = (l.reverse.lookup k).or (read s k) := by
  induction l using List.reverseRecOn with
  | nil => rfl
  | append_singleton l e ih =>
    have hl : P (l.foldl write s) := List.foldlRecOn l write hs fun t ht e _ => hP t e ht
    rw [List.foldl_append, List.foldl_cons, List.foldl_nil, hread _ e k hl, ih, List.reverse_append, List.reverse_singleton,
      List.singleton_append, List.lookup_cons]
    by_cases hk : k = e.1
    · simp [hk]
    · simp [hk, beq_false_of_ne hk]

theorem supplied_wf (words : List (Word × Word)) : (supplied words).wf = true :=
  List.foldlRecOn (motive := fun m : Memory => m.wf = true) words _ rfl fun m h e _ => m.wf_write e.1 e.2 h

theorem supplied_read (words : List (Word × Word)) (a : Word) : (supplied words).read a.toNat = words.reverse.lookup a := by
  have h := foldl_read (P := fun _ => True) (read := fun (m : Memory) (a : Word) => m.read a.toNat)
    (write := fun m e => m.write e.1.toNat e.2) (s := []) (fun _ _ h => h)
    (fun m e k _ => by simp only [Memory.read_write, BitVec.toNat_inj]) trivial words a
  exact h.trans Option.or_none

theorem PtrFile.canonical_write {p : PtrFile} (r : Rij) (w : Nat) (h : p.canonical = true) : (p.write r w).canonical = true := by
  unfold PtrFile.write
  split
  · exact p.canonical_erase r h
  · next hw => exact p.canonical_insert r w hw h

/-! ## The launch state (R148) -/

@[simp] theorem setPtr_reg (s : State) (r : Rij) (n : Nat) (a : RegAddr) : (s.setPtr r n).reg a = s.reg a := by cases a <;> rfl

@[simp] theorem setPtr_mem (s : State) (r : Rij) (n : Nat) (sp : Space) : (s.setPtr r n).mem sp = s.mem sp := by cases sp <;> rfl

/-- The launch state before its registers, its pointer registers and its pc are set. -/
def Launch.unset (l : Launch) : State :=
  { State.reset with
    selbf := l.selbf
    holes := l.holes
    spaces := l.spaces
    prog := supplied l.prog
    data0 := supplied l.data0
    data1 := supplied l.data1 }

/-- The launch state before its pointer registers and its pc are set. -/
def Launch.withRegs (l : Launch) : State := l.regs.foldl (fun t e => t.setReg e.1 e.2) l.unset

theorem Launch.state_eq (l : Launch) : l.state = (l.ptrs.foldl (fun t e => t.setPtr e.1 e.2) l.withRegs).setPc l.resetPc := rfl

theorem Launch.unset_reg (l : Launch) (a : RegAddr) (ha : a ≠ .pc) : l.unset.reg a = 0 := by
  cases a with
  | pc => exact absurd rfl ha
  | bfRc => exact ite_self 0
  | _ => rfl

/-- What no write of a register, a pointer register or the pc changes is as the launch supplies it. -/
theorem Launch.state_unchanged {α : Type} (l : Launch) {f : State → α} (hreg : ∀ s a v, f (s.setReg a v) = f s)
    (hptr : ∀ s r n, f (s.setPtr r n) = f s) (hpc : ∀ s v, f (s.setPc v) = f s) : f l.state = f l.unset := by
  rw [l.state_eq, hpc, foldl_unchanged fun s e => hptr s e.1 e.2, Launch.withRegs, foldl_unchanged fun s e => hreg s e.1 e.2]

theorem Launch.state_mem (l : Launch) (sp : Space) : l.state.mem sp = l.unset.mem sp :=
  l.state_unchanged (f := fun s => s.mem sp) (fun s a v => mem_setReg s a v sp) (fun s r n => setPtr_mem s r n sp)
    fun s v => setPc_mem s v sp

theorem Launch.state_reg (l : Launch) {a : RegAddr} (ha : a ≠ .pc) : l.state.reg a = (l.regs.reverse.lookup a).getD 0 := by
  have h := foldl_read (P := fun _ => True) (read := fun (s : State) a => some (s.reg a)) (write := fun s e => s.setReg e.1 e.2)
    (fun _ _ h => h) (fun s e k _ => by split <;> simp [*, reg_setReg_other]) trivial l.regs a (s := l.unset)
  rw [l.state_eq, setPc_reg_other _ _ ha, foldl_unchanged (f := fun s => s.reg a) fun s e => setPtr_reg s e.1 e.2 a]
  rw [Option.or_some, l.unset_reg a ha] at h
  exact Option.some.inj h

theorem Launch.state_readPtr (l : Launch) (r : Rij) : l.state.readPtr r = (l.ptrs.reverse.lookup r).getD 0 := by
  have hnil : l.withRegs.ptr = [] := foldl_unchanged (fun s e => setReg_ptr s e.2 e.1) l.regs l.unset
  have hzero : l.withRegs.readPtr r = 0 := by rw [State.readPtr, hnil]; rfl
  have h := foldl_read (P := fun s : State => s.ptr.canonical = true) (read := fun (s : State) r => some (s.readPtr r))
    (write := fun s e => s.setPtr e.1 e.2) (fun _ e hs => PtrFile.canonical_write e.1 e.2 hs)
    (fun s e k hs => by rw [pointerWriteIsLocal s e.1 k e.2 hs]; split <;> rfl) (by rw [hnil]; rfl) l.ptrs r (s := l.withRegs)
  rw [Option.or_some, hzero] at h
  exact Option.some.inj h

/-- Settles O2: each list of the launch is a list of writes, of which the last to a key wins; no write reaches what another list sets. -/
theorem launchHoldsItsPremises : Obligations.LaunchHoldsItsPremises := by
  intro l
  have hmem := l.state_mem
  have hword : ∀ (sp : Space) (words : List (Word × Word)), l.unset.mem sp = supplied words →
      ∀ a, l.state.word? sp a = words.reverse.lookup a := fun sp words h a => by
    rw [State.word?, hmem, h, supplied_read]
  have hwf : ∀ (sp : Space) (words : List (Word × Word)), l.unset.mem sp = supplied words → (l.state.mem sp).wf = true :=
    fun sp words h => by rw [hmem, h, supplied_wf]
  exact ⟨rfl,
    l.state_unchanged (fun s a v => setReg_selbf s v a) setPtr_selbf setPc_selbf,
    l.state_unchanged (fun s a v => setReg_holes s v a) setPtr_holes setPc_holes,
    l.state_unchanged (fun s a v => setReg_spaces s v a) setPtr_spaces setPc_spaces,
    hwf .prog l.prog rfl, hwf .data0 l.data0 rfl, hwf .data1 l.data1 rfl,
    hword .prog l.prog rfl, hword .data0 l.data0 rfl, hword .data1 l.data1 rfl, fun _ => l.state_reg, l.state_readPtr⟩

/-! ## What a run leaves as the launch set it (D4, D12, D19) -/

/-- `t` has the premises of `s` that no run changes. -/
structure PremisesStay (s t : State) : Prop where
  selbf : t.selbf = s.selbf
  holes : t.holes = s.holes
  spaces : t.spaces = s.spaces
  bf : t.bf = s.bf
  rc : s.selbf = true → t.rc = s.rc

namespace PremisesStay

theorem refl (s : State) : PremisesStay s s := ⟨rfl, rfl, rfl, rfl, fun _ => rfl⟩

theorem trans {s t u : State} (h : PremisesStay s t) (h' : PremisesStay t u) : PremisesStay s u where
  selbf := h'.selbf.trans h.selbf
  holes := h'.holes.trans h.holes
  spaces := h'.spaces.trans h.spaces
  bf := h'.bf.trans h.bf
  rc hs := (h'.rc (h.selbf.trans hs)).trans (h.rc hs)

theorem of_step {s t : State} (h : step s = .next t) : PremisesStay s t := by
  obtain ⟨i, -, hi⟩ := step_next h
  have hk := run_kept hi
  exact ⟨hk.selbf, hk.holes, hk.spaces, hk.bf, hk.rc⟩

theorem of_runUntil {endPc : Word} {n : Nat} {s t : State} (h : runUntil endPc n s = .next t) : PremisesStay s t :=
  runUntil_keeps (fun _ _ ht hu => ht.trans (of_step hu)) (refl s) h

end PremisesStay

/-- Settles O39: every step keeps the premises, so every run does. -/
theorem launchPremisesStay : Obligations.LaunchPremisesStay := fun _ _ _ _ h =>
  have hp := PremisesStay.of_runUntil h
  ⟨hp.selbf, hp.holes, hp.spaces, hp.bf, hp.rc⟩

/-! ## Words loaded at the pc (R148 (2), R72) -/

/-- One word of `PROG` loaded, with memory put behind its address: `loadAtPc` is one or two of them. -/
def State.loadWord (s : State) (a v : Word) : State :=
  { s with prog := s.prog.write a.toNat v, holes := makePresent s.holes .prog a.toNat }

section
variable (s : State) (sp : Space) (a b v w0 w1 : Word)

theorem loadAtPc_last (h : s.pc = 0xFFFF) : loadAtPc s w0 w1 = s.loadWord s.pc w0 := by
  simp only [loadAtPc, if_pos h, State.loadWord]

theorem loadAtPc_two (h : s.pc ≠ 0xFFFF) : loadAtPc s w0 w1 = (s.loadWord s.pc w0).loadWord (s.pc + 1) w1 := by
  have hsucc : (s.pc + 1).toNat = s.pc.toNat + 1 := by
    have : s.pc.toNat ≠ 65535 := fun h' => h (BitVec.eq_of_toNat_eq h')
    bv_omega
  simp only [loadAtPc, if_neg h, State.loadWord, hsucc]

theorem loadWord_word? : (s.loadWord a v).word? sp b = if sp = .prog ∧ b = a then some v else s.word? sp b :=
  setWord_word? s .prog sp a b v

theorem loadWord_present : (s.loadWord a v).present sp b = (s.present sp b || (decide (sp = .prog) && decide (b = a))) := by
  simp only [State.present, State.loadWord, makePresent_covers, Bool.not_and, Bool.not_or, Bool.not_not, BitVec.toNat_inj]

variable {s sp a b v}

theorem loadWord_other (h : sp = .prog → b ≠ a) :
    (s.loadWord a v).word? sp b = s.word? sp b ∧ (s.loadWord a v).present sp b = s.present sp b := by
  have hne : ¬(sp = .prog ∧ b = a) := fun ⟨hsp, hb⟩ => h hsp hb
  rw [loadWord_word?, loadWord_present, if_neg hne, ← Bool.decide_and, decide_eq_false hne, Bool.or_false]
  exact ⟨rfl, rfl⟩

theorem memRead_loadWord_same : memRead (s.loadWord a v) .prog a = .next v :=
  memRead_next_iff.2 ⟨by simp [loadWord_present], by simp [loadWord_word?]⟩

theorem memRead_loadWord_other (h : b ≠ a) : memRead (s.loadWord a v) .prog b = memRead s .prog b := by
  obtain ⟨hword, hpresent⟩ := loadWord_other (s := s) (v := v) (sp := .prog) fun _ => h
  simp only [memRead, hword, hpresent]

end

section
variable (s : State) (w0 w1 : Word)

theorem memRead_loadAtPc_first : memRead (loadAtPc s w0 w1) .prog s.pc = .next w0 := by
  by_cases h : s.pc = 0xFFFF
  · rw [loadAtPc_last s w0 w1 h, memRead_loadWord_same]
  · rw [loadAtPc_two s w0 w1 h, memRead_loadWord_other (by bv_omega), memRead_loadWord_same]

theorem memRead_loadAtPc_second (h : s.pc ≠ 0xFFFF) : memRead (loadAtPc s w0 w1) .prog (s.pc + 1) = .next w1 := by
  rw [loadAtPc_two s w0 w1 h, memRead_loadWord_same]

theorem loadAtPc_other {sp : Space} {a : Word} (h : sp = .prog → a ≠ s.pc ∧ (s.pc ≠ 0xFFFF → a ≠ s.pc + 1)) :
    (loadAtPc s w0 w1).word? sp a = s.word? sp a ∧ (loadAtPc s w0 w1).present sp a = s.present sp a := by
  have hfirst := loadWord_other (s := s) (v := w0) fun hsp => (h hsp).1
  by_cases hpc : s.pc = 0xFFFF
  · rwa [loadAtPc_last s w0 w1 hpc]
  · have hsecond := loadWord_other (s := s.loadWord s.pc w0) (v := w1) fun hsp => (h hsp).2 hpc
    rw [loadAtPc_two s w0 w1 hpc]
    exact ⟨hsecond.1.trans hfirst.1, hsecond.2.trans hfirst.2⟩

theorem step_loadAtPc (h : s.pc ≠ 0xFFFF) :
    step (loadAtPc s w0 w1) = runDecoded exec (decode Config.chip w0 w1) (loadAtPc s w0 w1) :=
  fetchRun_readable exec (memRead_loadAtPc_first s w0 w1) fun _ => ⟨h, memRead_loadAtPc_second s w0 w1 h⟩

theorem step_loadAtPc_last (h : s.pc = 0xFFFF) :
    step (loadAtPc s w0 w1) = if needsSecond Config.chip w0 then .refused .pcWrap
      else runDecoded exec (decode Config.chip w0 0) (loadAtPc s w0 w1) := by
  have h0 := memRead_loadAtPc_first s w0 w1
  cases hn : needsSecond Config.chip w0 with
  | true => exact fetchRun_pcWrap exec h0 hn h
  | false => exact fetchRun_readable exec h0 fun ht => by rw [hn] at ht; cases ht

end

/-- Settles O54: `withFetchWord` is `loadAtPc` of the two words. -/
theorem loadedWordsAreFetched : Obligations.LoadedWordsAreFetched := by
  rintro s nbits w w0 w1 rfl rfl
  exact ⟨memRead_loadAtPc_first .., ⟨_, _, rfl⟩, fun _ _ => loadAtPc_other _ _ _,
    fun h => ⟨memRead_loadAtPc_second _ _ _ h, step_loadAtPc _ _ _ h⟩, step_loadAtPc_last _ _ _⟩

/-! ## Where a run ends (R142) -/

theorem runUntil_add (endPc : Word) (n k : Nat) (s : State) :
    runUntil endPc (n + k) s = andThen (runUntil endPc n s) (runUntil endPc k) := by
  induction n generalizing s with
  | zero => rw [Nat.zero_add]; rfl
  | succ n ih =>
    cases hs : s.over endPc with
    | true => simp only [runUntil_of_over hs, andThen]
    | false =>
      rw [Nat.add_right_comm, runUntil_succ hs, runUntil_succ hs]
      cases step s with
      | next t => exact ih t
      | fault | refused => rfl

/-- Settles O55: a run of `n + k` steps is one of `n` and then one of `k`, and a run that is over takes no more. -/
theorem runEndsAtEndPc : Obligations.RunEndsAtEndPc := by
  refine ⟨fun endPc n s h => ?_, fun endPc n k s t ⟨hrun, ht⟩ => ⟨?_, ht⟩⟩
  · have hover : s.over endPc = true := decide_eq_true h
    exact ⟨runUntil_of_over hover n, hover⟩
  · rw [runUntil_add, hrun]
    exact runUntil_of_over ht k

end Sys2Proof.Machine
end

section
/-! PROOFS. The statement about the state after reset (spec/10_state.md section 9, spec/70_reset_and_hazards.md section 1). -/

namespace Sys2Proof.Machine

/-- Every clause of the invariant speaks of listed words and listed pointer registers only, so it holds where nothing is listed, whatever
addresses are absent. -/
theorem inv_of_empty {s : State} (hmem : ∀ sp, s.mem sp = []) (hptr : s.ptr = []) : s.Inv := by
  refine (inv_iff s).2 ⟨fun sp => ?_, ?_, fun sp _ => ?_⟩
  · rw [hmem]
    rfl
  · rw [hptr]
    rfl
  · rw [dataPresent, hmem]
    rfl

@[simp] theorem reset_mem (sp : Space) : State.reset.mem sp = [] := by cases sp <;> rfl

@[simp] theorem reset_ptr : State.reset.ptr = [] := rfl

/-- Settles O1: after reset no memory word and no pointer register is listed (log 4, 7). -/
theorem resetMeetsInvariant : Obligations.ResetMeetsInvariant := inv_of_empty reset_mem reset_ptr

end Sys2Proof.Machine
end
